-- ==== Sys2Proof/Word.lean ====
section
/-! DEFINITION. The word types: a byte (`DATA_BITS` = 8) and a CPU address (`ADDR_BITS` = 16), rule R7. -/

namespace Sys2Proof

/-- A memory cell, a register other than PC, an ALU result: 8 bits (R7, `DATA_BITS`; R21 to R24). -/
abbrev Byte := BitVec 8

/-- A CPU address or the program counter: 16 bits (R7, `ADDR_BITS`; R25). All arithmetic on it is
modulo 2^16 (R26), which is `BitVec` addition. -/
abbrev Word := BitVec 16

/-- The VRAM address register and its temporary latch: 15 bits (R7, `VRAM_ADDR_BITS`; R41). -/
abbrev VramAddr := BitVec 15

end Sys2Proof
end

