-- ==== Sys2Proof/Syntax.lean ====
section
/-! DEFINITION. The instruction set as abstract syntax: one constructor per mnemonic of
`spec/opcode_table.json` (56 documented mnemonics and `ILL`), whose argument says which of the
mnemonic's rows is meant (the addressing mode, with its operand bytes). A mnemonic with a single row
has no mode argument. Every mode type lists exactly the modes its mnemonics have in R119, so no
implemented row is missing and no row that does not exist can be written. DESIGN CHOICE, log entry 1,
safe. -/

namespace Sys2Proof

/-- The memory addressing modes, each with its operand bytes (R107 to R112, R114, R115). -/
inductive Addressing where
  /-- ZP, `$nn` (R107) -/
  | zp (d8 : Byte)
  /-- ZPX, `$nn,X` (R108) -/
  | zpx (d8 : Byte)
  /-- ZPY, `$nn,Y` (R109) -/
  | zpy (d8 : Byte)
  /-- ABS, `$nnnn` (R110) -/
  | abs (a16 : Word)
  /-- ABX, `$nnnn,X` (R111) -/
  | abx (a16 : Word)
  /-- ABY, `$nnnn,Y` (R112) -/
  | aby (a16 : Word)
  /-- IZX, `($nn,X)` (R114) -/
  | izx (d8 : Byte)
  /-- IZY, `($nn),Y` (R115) -/
  | izy (d8 : Byte)
  deriving DecidableEq, Repr

/-- A source operand: an immediate byte (R106) or a memory operand. -/
inductive Source where
  | imm (d8 : Byte)
  | mem (m : Addressing)
  deriving DecidableEq, Repr

/-- The modes of LDA, ADC, SBC, CMP, AND, ORA, EOR (R140, R160 to R162, R175 to R177). -/
inductive AluMode where
  | imm (d8 : Byte)
  | zp (d8 : Byte)
  | zpx (d8 : Byte)
  | abs (a16 : Word)
  | abx (a16 : Word)
  | aby (a16 : Word)
  | izx (d8 : Byte)
  | izy (d8 : Byte)
  deriving DecidableEq, Repr

/-- The modes of LDX (R141). -/
inductive LdxMode where
  | imm (d8 : Byte)
  | zp (d8 : Byte)
  | zpy (d8 : Byte)
  | abs (a16 : Word)
  | aby (a16 : Word)
  deriving DecidableEq, Repr

/-- The modes of LDY (R142). -/
inductive LdyMode where
  | imm (d8 : Byte)
  | zp (d8 : Byte)
  | zpx (d8 : Byte)
  | abs (a16 : Word)
  | abx (a16 : Word)
  deriving DecidableEq, Repr

/-- The modes of STA (R143): no immediate form. -/
inductive StaMode where
  | zp (d8 : Byte)
  | zpx (d8 : Byte)
  | abs (a16 : Word)
  | abx (a16 : Word)
  | aby (a16 : Word)
  | izx (d8 : Byte)
  | izy (d8 : Byte)
  deriving DecidableEq, Repr

/-- The modes of STX (R144). -/
inductive StxMode where
  | zp (d8 : Byte)
  | zpy (d8 : Byte)
  | abs (a16 : Word)
  deriving DecidableEq, Repr

/-- The modes of STY (R145). -/
inductive StyMode where
  | zp (d8 : Byte)
  | zpx (d8 : Byte)
  | abs (a16 : Word)
  deriving DecidableEq, Repr

/-- The modes of CPX and CPY (R163, R164). -/
inductive CmpMode where
  | imm (d8 : Byte)
  | zp (d8 : Byte)
  | abs (a16 : Word)
  deriving DecidableEq, Repr

/-- The modes of BIT (R178). -/
inductive BitMode where
  | zp (d8 : Byte)
  | abs (a16 : Word)
  deriving DecidableEq, Repr

/-- The modes of INC and DEC (R165, R168). -/
inductive RmwMode where
  | zp (d8 : Byte)
  | zpx (d8 : Byte)
  | abs (a16 : Word)
  | abx (a16 : Word)
  deriving DecidableEq, Repr

/-- The modes of ASL, LSR, ROL, ROR (R179 to R182): the accumulator (R105) or memory. -/
inductive ShiftMode where
  | acc
  | zp (d8 : Byte)
  | zpx (d8 : Byte)
  | abs (a16 : Word)
  | abx (a16 : Word)
  deriving DecidableEq, Repr

/-- The modes of JMP (R185): ABS gives the target, IND a pointer to it (R113). -/
inductive JmpMode where
  | abs (a16 : Word)
  | ind (a16 : Word)
  deriving DecidableEq, Repr

/-- The instructions (R119): 56 documented mnemonics, and `ill` for the 105 illegal opcode values
(R121), which carries the value. -/
inductive Instr where
  -- loads and stores, R140 to R145
  | lda (m : AluMode)
  | ldx (m : LdxMode)
  | ldy (m : LdyMode)
  | sta (m : StaMode)
  | stx (m : StxMode)
  | sty (m : StyMode)
  -- register transfers and the stack, R150 to R159
  | tax
  | tay
  | txa
  | tya
  | tsx
  | txs
  | pha
  | php
  | pla
  | plp
  -- arithmetic, compare, increment and decrement, R160 to R170
  | adc (m : AluMode)
  | sbc (m : AluMode)
  | cmp (m : AluMode)
  | cpx (m : CmpMode)
  | cpy (m : CmpMode)
  | inc (m : RmwMode)
  | inx
  | iny
  | dec (m : RmwMode)
  | dex
  | dey
  -- logic, bit test, shifts and rotates, R175 to R182
  | and (m : AluMode)
  | ora (m : AluMode)
  | eor (m : AluMode)
  | bit (m : BitMode)
  | asl (m : ShiftMode)
  | lsr (m : ShiftMode)
  | rol (m : ShiftMode)
  | ror (m : ShiftMode)
  -- control transfer, R185 to R198; `rel8` is the offset byte of R116
  | jmp (m : JmpMode)
  | jsr (a16 : Word)
  | rts
  | rti
  | brk
  | bcc (rel8 : Byte)
  | bcs (rel8 : Byte)
  | beq (rel8 : Byte)
  | bne (rel8 : Byte)
  | bmi (rel8 : Byte)
  | bpl (rel8 : Byte)
  | bvc (rel8 : Byte)
  | bvs (rel8 : Byte)
  -- flags, NOP, R200 to R207
  | clc
  | sec
  | cli
  | sei
  | clv
  | cld
  | sed
  | nop
  -- every illegal opcode value, R208
  | ill (op : Byte)
  deriving DecidableEq, Repr

/-- The source operand a mode of the eight-mode read class names. -/
def AluMode.source : AluMode → Source
  | .imm d => .imm d
  | .zp d => .mem (.zp d)
  | .zpx d => .mem (.zpx d)
  | .abs a => .mem (.abs a)
  | .abx a => .mem (.abx a)
  | .aby a => .mem (.aby a)
  | .izx d => .mem (.izx d)
  | .izy d => .mem (.izy d)

/-- The source operand a mode of LDX names. -/
def LdxMode.source : LdxMode → Source
  | .imm d => .imm d
  | .zp d => .mem (.zp d)
  | .zpy d => .mem (.zpy d)
  | .abs a => .mem (.abs a)
  | .aby a => .mem (.aby a)

/-- The source operand a mode of LDY names. -/
def LdyMode.source : LdyMode → Source
  | .imm d => .imm d
  | .zp d => .mem (.zp d)
  | .zpx d => .mem (.zpx d)
  | .abs a => .mem (.abs a)
  | .abx a => .mem (.abx a)

/-- The destination a mode of STA names. -/
def StaMode.addressing : StaMode → Addressing
  | .zp d => .zp d
  | .zpx d => .zpx d
  | .abs a => .abs a
  | .abx a => .abx a
  | .aby a => .aby a
  | .izx d => .izx d
  | .izy d => .izy d

/-- The destination a mode of STX names. -/
def StxMode.addressing : StxMode → Addressing
  | .zp d => .zp d
  | .zpy d => .zpy d
  | .abs a => .abs a

/-- The destination a mode of STY names. -/
def StyMode.addressing : StyMode → Addressing
  | .zp d => .zp d
  | .zpx d => .zpx d
  | .abs a => .abs a

/-- The source operand a mode of CPX or CPY names. -/
def CmpMode.source : CmpMode → Source
  | .imm d => .imm d
  | .zp d => .mem (.zp d)
  | .abs a => .mem (.abs a)

/-- The memory operand a mode of BIT names. -/
def BitMode.addressing : BitMode → Addressing
  | .zp d => .zp d
  | .abs a => .abs a

/-- The memory operand a mode of INC or DEC names. -/
def RmwMode.addressing : RmwMode → Addressing
  | .zp d => .zp d
  | .zpx d => .zpx d
  | .abs a => .abs a
  | .abx a => .abx a

/-- The memory operand a mode of a shift or rotate names; none for the accumulator form. -/
def ShiftMode.addressing : ShiftMode → Option Addressing
  | .acc => none
  | .zp d => some (.zp d)
  | .zpx d => some (.zpx d)
  | .abs a => some (.abs a)
  | .abx a => some (.abx a)

end Sys2Proof
end

