-- ==== Sys2Proof/Decode.lean ====
section
/-! DEFINITION. Decoding and encoding (R100 to R103, R119 to R123): the byte-order helpers, the decoder,
total on any bytes, written from the opcode map of R119, and after it the encoder, written from the
same map. -/

namespace Sys2Proof

/-- The low byte of a word (R8). -/
def lo (w : Word) : Byte := w.setWidth 8

/-- The high byte of a word (R8). -/
def hi (w : Word) : Byte := (w >>> 8).setWidth 8

/-- `word(l, h) = l + 256*h`, the little-endian pair (R8, R69). -/
def word (l h : Byte) : Word := h ++ l

/-- A zero-page byte as an address: zero extension (R103). -/
def zeroExt (d : Byte) : Word := d.setWidth 16

/-- `sext_8` on 16 bits (R8, R103): the branch offset as a two's-complement word. -/
def signExt (d : Byte) : Word := d.signExtend 16

/-- The instruction that opcode `op` names, with `d` the byte after it and `a` the word after it
(R103, R119, R123). A value outside the map is the illegal opcode of that value, by name (R121). -/
def decodeOp (op d : Byte) (a : Word) : Instr :=
  match op.toNat with
  | 0x00 => .brk
  | 0x01 => .ora (.izx d)
  | 0x05 => .ora (.zp d)
  | 0x06 => .asl (.zp d)
  | 0x08 => .php
  | 0x09 => .ora (.imm d)
  | 0x0A => .asl .acc
  | 0x0D => .ora (.abs a)
  | 0x0E => .asl (.abs a)
  | 0x10 => .bpl d
  | 0x11 => .ora (.izy d)
  | 0x15 => .ora (.zpx d)
  | 0x16 => .asl (.zpx d)
  | 0x18 => .clc
  | 0x19 => .ora (.aby a)
  | 0x1D => .ora (.abx a)
  | 0x1E => .asl (.abx a)
  | 0x20 => .jsr a
  | 0x21 => .and (.izx d)
  | 0x24 => .bit (.zp d)
  | 0x25 => .and (.zp d)
  | 0x26 => .rol (.zp d)
  | 0x28 => .plp
  | 0x29 => .and (.imm d)
  | 0x2A => .rol .acc
  | 0x2C => .bit (.abs a)
  | 0x2D => .and (.abs a)
  | 0x2E => .rol (.abs a)
  | 0x30 => .bmi d
  | 0x31 => .and (.izy d)
  | 0x35 => .and (.zpx d)
  | 0x36 => .rol (.zpx d)
  | 0x38 => .sec
  | 0x39 => .and (.aby a)
  | 0x3D => .and (.abx a)
  | 0x3E => .rol (.abx a)
  | 0x40 => .rti
  | 0x41 => .eor (.izx d)
  | 0x45 => .eor (.zp d)
  | 0x46 => .lsr (.zp d)
  | 0x48 => .pha
  | 0x49 => .eor (.imm d)
  | 0x4A => .lsr .acc
  | 0x4C => .jmp (.abs a)
  | 0x4D => .eor (.abs a)
  | 0x4E => .lsr (.abs a)
  | 0x50 => .bvc d
  | 0x51 => .eor (.izy d)
  | 0x55 => .eor (.zpx d)
  | 0x56 => .lsr (.zpx d)
  | 0x58 => .cli
  | 0x59 => .eor (.aby a)
  | 0x5D => .eor (.abx a)
  | 0x5E => .lsr (.abx a)
  | 0x60 => .rts
  | 0x61 => .adc (.izx d)
  | 0x65 => .adc (.zp d)
  | 0x66 => .ror (.zp d)
  | 0x68 => .pla
  | 0x69 => .adc (.imm d)
  | 0x6A => .ror .acc
  | 0x6C => .jmp (.ind a)
  | 0x6D => .adc (.abs a)
  | 0x6E => .ror (.abs a)
  | 0x70 => .bvs d
  | 0x71 => .adc (.izy d)
  | 0x75 => .adc (.zpx d)
  | 0x76 => .ror (.zpx d)
  | 0x78 => .sei
  | 0x79 => .adc (.aby a)
  | 0x7D => .adc (.abx a)
  | 0x7E => .ror (.abx a)
  | 0x81 => .sta (.izx d)
  | 0x84 => .sty (.zp d)
  | 0x85 => .sta (.zp d)
  | 0x86 => .stx (.zp d)
  | 0x88 => .dey
  | 0x8A => .txa
  | 0x8C => .sty (.abs a)
  | 0x8D => .sta (.abs a)
  | 0x8E => .stx (.abs a)
  | 0x90 => .bcc d
  | 0x91 => .sta (.izy d)
  | 0x94 => .sty (.zpx d)
  | 0x95 => .sta (.zpx d)
  | 0x96 => .stx (.zpy d)
  | 0x98 => .tya
  | 0x99 => .sta (.aby a)
  | 0x9A => .txs
  | 0x9D => .sta (.abx a)
  | 0xA0 => .ldy (.imm d)
  | 0xA1 => .lda (.izx d)
  | 0xA2 => .ldx (.imm d)
  | 0xA4 => .ldy (.zp d)
  | 0xA5 => .lda (.zp d)
  | 0xA6 => .ldx (.zp d)
  | 0xA8 => .tay
  | 0xA9 => .lda (.imm d)
  | 0xAA => .tax
  | 0xAC => .ldy (.abs a)
  | 0xAD => .lda (.abs a)
  | 0xAE => .ldx (.abs a)
  | 0xB0 => .bcs d
  | 0xB1 => .lda (.izy d)
  | 0xB4 => .ldy (.zpx d)
  | 0xB5 => .lda (.zpx d)
  | 0xB6 => .ldx (.zpy d)
  | 0xB8 => .clv
  | 0xB9 => .lda (.aby a)
  | 0xBA => .tsx
  | 0xBC => .ldy (.abx a)
  | 0xBD => .lda (.abx a)
  | 0xBE => .ldx (.aby a)
  | 0xC0 => .cpy (.imm d)
  | 0xC1 => .cmp (.izx d)
  | 0xC4 => .cpy (.zp d)
  | 0xC5 => .cmp (.zp d)
  | 0xC6 => .dec (.zp d)
  | 0xC8 => .iny
  | 0xC9 => .cmp (.imm d)
  | 0xCA => .dex
  | 0xCC => .cpy (.abs a)
  | 0xCD => .cmp (.abs a)
  | 0xCE => .dec (.abs a)
  | 0xD0 => .bne d
  | 0xD1 => .cmp (.izy d)
  | 0xD5 => .cmp (.zpx d)
  | 0xD6 => .dec (.zpx d)
  | 0xD8 => .cld
  | 0xD9 => .cmp (.aby a)
  | 0xDD => .cmp (.abx a)
  | 0xDE => .dec (.abx a)
  | 0xE0 => .cpx (.imm d)
  | 0xE1 => .sbc (.izx d)
  | 0xE4 => .cpx (.zp d)
  | 0xE5 => .sbc (.zp d)
  | 0xE6 => .inc (.zp d)
  | 0xE8 => .inx
  | 0xE9 => .sbc (.imm d)
  | 0xEA => .nop
  | 0xEC => .cpx (.abs a)
  | 0xED => .sbc (.abs a)
  | 0xEE => .inc (.abs a)
  | 0xF0 => .beq d
  | 0xF1 => .sbc (.izy d)
  | 0xF5 => .sbc (.zpx d)
  | 0xF6 => .inc (.zpx d)
  | 0xF8 => .sed
  | 0xF9 => .sbc (.aby a)
  | 0xFD => .sbc (.abx a)
  | 0xFE => .inc (.abx a)
  | _ => .ill op

/-- Decode the bytes `b0 b1 b2` at ascending addresses (R101): the second and third bytes never affect
which instruction is decoded (R123). Total: every opcode value is implemented or illegal (R122). -/
def decode (b0 b1 b2 : Byte) : Instr := decodeOp b0 b1 (word b1 b2)

/-- The opcode byte of an instruction: the cell of the opcode map it stands in (R119); an illegal
instruction carries its own (R121). -/
def Instr.opcode : Instr → Byte
  | .lda (.izx _) => 0xA1#8
  | .lda (.zp _) => 0xA5#8
  | .lda (.imm _) => 0xA9#8
  | .lda (.abs _) => 0xAD#8
  | .lda (.izy _) => 0xB1#8
  | .lda (.zpx _) => 0xB5#8
  | .lda (.aby _) => 0xB9#8
  | .lda (.abx _) => 0xBD#8
  | .ldx (.imm _) => 0xA2#8
  | .ldx (.zp _) => 0xA6#8
  | .ldx (.abs _) => 0xAE#8
  | .ldx (.zpy _) => 0xB6#8
  | .ldx (.aby _) => 0xBE#8
  | .ldy (.imm _) => 0xA0#8
  | .ldy (.zp _) => 0xA4#8
  | .ldy (.abs _) => 0xAC#8
  | .ldy (.zpx _) => 0xB4#8
  | .ldy (.abx _) => 0xBC#8
  | .sta (.izx _) => 0x81#8
  | .sta (.zp _) => 0x85#8
  | .sta (.abs _) => 0x8D#8
  | .sta (.izy _) => 0x91#8
  | .sta (.zpx _) => 0x95#8
  | .sta (.aby _) => 0x99#8
  | .sta (.abx _) => 0x9D#8
  | .stx (.zp _) => 0x86#8
  | .stx (.abs _) => 0x8E#8
  | .stx (.zpy _) => 0x96#8
  | .sty (.zp _) => 0x84#8
  | .sty (.abs _) => 0x8C#8
  | .sty (.zpx _) => 0x94#8
  | .tax => 0xAA#8
  | .tay => 0xA8#8
  | .txa => 0x8A#8
  | .tya => 0x98#8
  | .tsx => 0xBA#8
  | .txs => 0x9A#8
  | .pha => 0x48#8
  | .php => 0x08#8
  | .pla => 0x68#8
  | .plp => 0x28#8
  | .adc (.izx _) => 0x61#8
  | .adc (.zp _) => 0x65#8
  | .adc (.imm _) => 0x69#8
  | .adc (.abs _) => 0x6D#8
  | .adc (.izy _) => 0x71#8
  | .adc (.zpx _) => 0x75#8
  | .adc (.aby _) => 0x79#8
  | .adc (.abx _) => 0x7D#8
  | .sbc (.izx _) => 0xE1#8
  | .sbc (.zp _) => 0xE5#8
  | .sbc (.imm _) => 0xE9#8
  | .sbc (.abs _) => 0xED#8
  | .sbc (.izy _) => 0xF1#8
  | .sbc (.zpx _) => 0xF5#8
  | .sbc (.aby _) => 0xF9#8
  | .sbc (.abx _) => 0xFD#8
  | .cmp (.izx _) => 0xC1#8
  | .cmp (.zp _) => 0xC5#8
  | .cmp (.imm _) => 0xC9#8
  | .cmp (.abs _) => 0xCD#8
  | .cmp (.izy _) => 0xD1#8
  | .cmp (.zpx _) => 0xD5#8
  | .cmp (.aby _) => 0xD9#8
  | .cmp (.abx _) => 0xDD#8
  | .cpx (.imm _) => 0xE0#8
  | .cpx (.zp _) => 0xE4#8
  | .cpx (.abs _) => 0xEC#8
  | .cpy (.imm _) => 0xC0#8
  | .cpy (.zp _) => 0xC4#8
  | .cpy (.abs _) => 0xCC#8
  | .inc (.zp _) => 0xE6#8
  | .inc (.abs _) => 0xEE#8
  | .inc (.zpx _) => 0xF6#8
  | .inc (.abx _) => 0xFE#8
  | .inx => 0xE8#8
  | .iny => 0xC8#8
  | .dec (.zp _) => 0xC6#8
  | .dec (.abs _) => 0xCE#8
  | .dec (.zpx _) => 0xD6#8
  | .dec (.abx _) => 0xDE#8
  | .dex => 0xCA#8
  | .dey => 0x88#8
  | .and (.izx _) => 0x21#8
  | .and (.zp _) => 0x25#8
  | .and (.imm _) => 0x29#8
  | .and (.abs _) => 0x2D#8
  | .and (.izy _) => 0x31#8
  | .and (.zpx _) => 0x35#8
  | .and (.aby _) => 0x39#8
  | .and (.abx _) => 0x3D#8
  | .ora (.izx _) => 0x01#8
  | .ora (.zp _) => 0x05#8
  | .ora (.imm _) => 0x09#8
  | .ora (.abs _) => 0x0D#8
  | .ora (.izy _) => 0x11#8
  | .ora (.zpx _) => 0x15#8
  | .ora (.aby _) => 0x19#8
  | .ora (.abx _) => 0x1D#8
  | .eor (.izx _) => 0x41#8
  | .eor (.zp _) => 0x45#8
  | .eor (.imm _) => 0x49#8
  | .eor (.abs _) => 0x4D#8
  | .eor (.izy _) => 0x51#8
  | .eor (.zpx _) => 0x55#8
  | .eor (.aby _) => 0x59#8
  | .eor (.abx _) => 0x5D#8
  | .bit (.zp _) => 0x24#8
  | .bit (.abs _) => 0x2C#8
  | .asl (.zp _) => 0x06#8
  | .asl .acc => 0x0A#8
  | .asl (.abs _) => 0x0E#8
  | .asl (.zpx _) => 0x16#8
  | .asl (.abx _) => 0x1E#8
  | .lsr (.zp _) => 0x46#8
  | .lsr .acc => 0x4A#8
  | .lsr (.abs _) => 0x4E#8
  | .lsr (.zpx _) => 0x56#8
  | .lsr (.abx _) => 0x5E#8
  | .rol (.zp _) => 0x26#8
  | .rol .acc => 0x2A#8
  | .rol (.abs _) => 0x2E#8
  | .rol (.zpx _) => 0x36#8
  | .rol (.abx _) => 0x3E#8
  | .ror (.zp _) => 0x66#8
  | .ror .acc => 0x6A#8
  | .ror (.abs _) => 0x6E#8
  | .ror (.zpx _) => 0x76#8
  | .ror (.abx _) => 0x7E#8
  | .jmp (.abs _) => 0x4C#8
  | .jmp (.ind _) => 0x6C#8
  | .jsr _ => 0x20#8
  | .rts => 0x60#8
  | .rti => 0x40#8
  | .brk => 0x00#8
  | .bcc _ => 0x90#8
  | .bcs _ => 0xB0#8
  | .beq _ => 0xF0#8
  | .bne _ => 0xD0#8
  | .bmi _ => 0x30#8
  | .bpl _ => 0x10#8
  | .bvc _ => 0x50#8
  | .bvs _ => 0x70#8
  | .clc => 0x18#8
  | .sec => 0x38#8
  | .cli => 0x58#8
  | .sei => 0x78#8
  | .clv => 0xB8#8
  | .cld => 0xD8#8
  | .sed => 0xF8#8
  | .nop => 0xEA#8
  | .ill op => op

/-- The operand bytes of an addressing mode: one `d8`, or a word, low byte first (R101, R103). -/
def Addressing.operandBytes : Addressing → List Byte
  | .zp d | .zpx d | .zpy d | .izx d | .izy d => [d]
  | .abs a | .abx a | .aby a => [lo a, hi a]

/-- The operand bytes of a source operand (R101). -/
def Source.operandBytes : Source → List Byte
  | .imm d => [d]
  | .mem m => m.operandBytes

/-- The operand bytes of an instruction (R101): none in format F1, `d8` in F2, `a16` in F3. -/
def Instr.operandBytes : Instr → List Byte
  | .lda m | .adc m | .sbc m | .cmp m | .and m | .ora m | .eor m => m.source.operandBytes
  | .ldx m => m.source.operandBytes
  | .ldy m => m.source.operandBytes
  | .sta m => m.addressing.operandBytes
  | .stx m => m.addressing.operandBytes
  | .sty m => m.addressing.operandBytes
  | .cpx m | .cpy m => m.source.operandBytes
  | .bit m => m.addressing.operandBytes
  | .inc m | .dec m => m.addressing.operandBytes
  | .asl m | .lsr m | .rol m | .ror m =>
    match m.addressing with
    | none => []
    | some x => x.operandBytes
  | .jmp (.abs a) | .jmp (.ind a) | .jsr a => [lo a, hi a]
  | .bcc r | .bcs r | .beq r | .bne r | .bmi r | .bpl r | .bvc r | .bvs r => [r]
  | .tax | .tay | .txa | .tya | .tsx | .txs | .pha | .php | .pla | .plp => []
  | .inx | .iny | .dex | .dey | .rts | .rti | .brk => []
  | .clc | .sec | .cli | .sei | .clv | .cld | .sed | .nop => []
  | .ill _ => []

/-- The bytes of an instruction at ascending addresses (R100, R101). -/
def encode (i : Instr) : List Byte := i.opcode :: i.operandBytes

/-- The instruction's length in bytes: 1, 2 or 3 by its format (R101, R102); 1 for an illegal opcode,
`ILLEGAL_SKIP` (R102, R208). -/
def Instr.length (i : Instr) : Nat := (encode i).length

/-- Why a byte string holds no whole instruction: the machine itself never meets this, since fetch
always has a next byte (R131); it is the answer of the list form of the decoder only. -/
inductive DecodeError where
  /-- no byte at all -/
  | noBytes
  /-- the opcode's operand bytes are not all there -/
  | truncated (op : Byte)
  deriving DecidableEq, Repr

/-- Decode the first instruction of a byte string and give back the bytes after it, or say by name why
there is none. -/
def decodeBytes : List Byte → Except DecodeError (Instr × List Byte)
  | [] => .error .noBytes
  | op :: rest =>
    let i := decode op (rest.getD 0 0) (rest.getD 1 0)
    if i.length ≤ rest.length + 1 then .ok (i, rest.drop (i.length - 1)) else .error (.truncated op)

/-- Byte `k` of an instruction whose bits are `w`, numbered as the opcode table numbers them (bit 0 is
the least significant bit of byte 0, byte 1 is bits 15..8), of which the table gives `nbits`: every
bit above is 0. -/
def tableByte (nbits w k : Nat) : Byte := BitVec.ofNat 8 (w % 2 ^ nbits / 256 ^ k)

/-- What the decoder reads from a table word. Never `none`: decoding is total (R122). -/
def decodeTableWord (nbits w : Nat) : Option Instr :=
  some (decode (tableByte nbits w 0) (tableByte nbits w 1) (tableByte nbits w 2))

end Sys2Proof
end

