-- ==== Sys2Proof/Config.lean ====
section
/-! DEFINITION. What is fixed for one machine (the parameters of R7 and the cartridge image of R50 and
R327) and the free values the spec leaves open. A free value is an `opaque` constant with no body: no
proof can see what it is. -/

namespace Sys2Proof

/-! ## The cartridge (R50, R327) -/

/-- The cartridge's mirroring flag: which physical 1KB bank backs each logical nametable (R267). -/
inductive Mirroring where
  | horizontal
  | vertical
  | singleScreen (bank : Nat)
  | fourScreen
  deriving DecidableEq, Repr, Inhabited

/-- What the loader supplies beside the two byte buffers (R327): their sizes, the mapper identifier, the
mirroring flag, the battery flag, and whether the cartridge has RAM at 0x6000 (R305). The program bytes
are cells of `State.mem` and the character bytes cells of `Ppu.chr`; `chrBytes = 0` means character
RAM. DESIGN CHOICE, log entry 25, safe: R327's list has no datum for `ramPresent`, so the model takes it apart from the
battery flag, any combination allowed. -/
structure Cartridge where
  prgBytes : Nat
  chrBytes : Nat
  mapperId : Nat
  mirroring : Mirroring
  battery : Bool
  ramPresent : Bool
  deriving DecidableEq, Repr, Inhabited

/-- The owner of a 2KB dispatch page: which reader, writer and code buffer its entry of the Memory Page
Table holds (R39, R61, R78). `base` is the offset of the page's first byte in the buffer behind it. -/
inductive Page where
  /-- work RAM and its mirrors (R302) -/
  | workRam
  /-- the PPU registers (R303) -/
  | ppuRegs
  /-- peripheral I/O (R304) -/
  | io
  /-- no owner: open bus, discard, illegal fill (R67) -/
  | unmapped
  /-- cartridge RAM (R305), from byte `base` of its 8KB on -/
  | cartRam (base : Nat)
  /-- RAM a mapper variant claims beyond those 8KB (R78, R305), from its byte `base` on: DESIGN CHOICE, log entry 28, safe -/
  | mapperRam (base : Nat)
  /-- program ROM: the writer is the mapper (R305) -/
  | prgRom (base : Nat)
  /-- a page a mapper variant claims for registers (R78): reads are open, writes go to the mapper -/
  | mapperRegs
  deriving DecidableEq, Repr, Inhabited

/-- What `apply_mapping` assigns (R290, R293): handlers of the claimable pages 9 to 15, the program-ROM
offset behind each of pages 16 to 31, the 1KB character bank behind each pattern window (R277), the
physical bank behind each logical nametable (R267). -/
structure Mapping where
  lowPages : List Page
  prgBase : List Nat
  chrPage : List Nat
  ntMap : List Nat
  deriving DecidableEq, Repr, Inhabited

/-- The PPU and cartridge memories whose contents after a full reset are unspecified (R347, D26); the nametable memory is the
PPU's own 2KB and what the cartridge supplies beyond them (R42). -/
inductive PpuMemory where
  | palette
  | oam
  | nametable
  | characterRam
  deriving DecidableEq, Repr, Inhabited

/-- The arguments a machine is built with (the OPEN rows of R7 that no free constant below stands for). They are data of the
state, so that a statement over all states is one over all arguments, and nothing ever changes them. At `State.reset` they
are the defaults of R7. DESIGN CHOICE, log entry 6, unsafe for a statement about `State.reset` alone. -/
structure Params where
  /-- `RAM_POWERUP` (D18, R345): the byte of cell 0, of cell 1, and so on; cells past the end of the list hold the default -/
  ramPowerUp : List Byte
  /-- `UNMAPPED_FILL` (D20, R65); "must be outside IMPLEMENTED", which statements that need it say (`Params.legal`) -/
  unmappedFill : Byte
  /-- `STEP_BOUNDARY` (D36, R245, R309), how many cycles after the present the debug boundary lies; `none` is disabled and
  `some 0` is the degenerate boundary of R309. DEDUCED, log entry 26, safe -/
  stepBoundary : Option Nat
  deriving DecidableEq, Repr, Inhabited

namespace Config

/-! ## Parameters of R7 with a value; those the source does not state are at their defaults (DESIGN CHOICE, log entry 19,
unsafe for a machine built otherwise) -/

/-- The default of `RAM_POWERUP`, every cell (D18, R345). -/
def ramPowerUpDefault : Byte := 0xFF#8

/-- `PERSISTENT_ERASE` (D19, R349). -/
def persistentErase : Byte := 0x00#8

/-- The default of `UNMAPPED_FILL`, an illegal opcode value (D20, R65). -/
def unmappedFillDefault : Byte := 0xF2#8

/-- `ILLEGAL_CYCLES` (R7, R208). -/
def illegalCycles : Nat := 2

/-- `ILLEGAL_SKIP` (D2, R208). -/
def illegalSkip : Word := 1#16

/-- `STACK_PAGE` as an address: the page 0x01 (D6, R75). -/
def stackPage : Word := 0x0100#16

/-- `VEC_NMI` (D8, R236). -/
def vecNmi : Word := 0xFFFA#16

/-- `VEC_RESET` (D8, R343). -/
def vecReset : Word := 0xFFFC#16

/-- `VEC_IRQ`, shared with BRK (D8, R236). -/
def vecIrq : Word := 0xFFFE#16

/-- `INT_CYCLES` (D14, R236). -/
def intCycles : Nat := 7

/-- `PPU_RATIO`: dots per CPU cycle (R250, C5). -/
def ppuRatio : Nat := 3

/-- `DOTS_PER_LINE` (D24, R262). -/
def dotsPerLine : Nat := 341

/-- `FRAME_DOTS` (D24, R262). -/
def frameDots : Nat := 89342

/-- `SHORT_FRAME_DOTS` (R262, R264). -/
def shortFrameDots : Nat := 89341

/-- `VBL_SET_DOT` (R262). -/
def vblSetDot : Nat := 82523

/-- `MAX_SPRITES_PER_LINE` (D27, R273). -/
def maxSpritesPerLine : Nat := 8

/-- `OAM_DMA_CYCLES` (D30, R317). -/
def oamDmaCycles : Nat := 513

/-- `NMI_DELAY` (D15, R234). -/
def nmiDelay : Nat := 0

/-- `ODD_SKIP_NEEDS_RENDERING` (D33, R264). -/
def oddSkipNeedsRendering : Bool := true

/-- The size of character RAM: 8KB (R277). -/
def characterRamBytes : Nat := 8192

/-- The size of cartridge RAM: 8KB (R305). -/
def cartRamBytes : Nat := 8192

/-- The arguments of R7 at their defaults. -/
def defaultParams : Params :=
  { ramPowerUp := [], unmappedFill := unmappedFillDefault, stepBoundary := none }

/-! ## Free values -/

/-- The `k`-th byte the machine reads without the spec saying its value: `OPEN_BUS` (R67, D21), the audio
status (R304), the undriven joypad bits (R318), status bit 5 (R276), a byte of cartridge RAM at a load (log
entry 7). Chosen afresh each time: `k` is `State.freeReads`, which every such read advances. DESIGN CHOICE, log entry 8, safe. -/
opaque freeByte : Nat → Byte

/-- What a cell of an unspecified PPU memory holds after the full reset of index `k` until it is written (R347,
D26, U8), or after the load of that index where the memory is the cartridge's. DESIGN CHOICE, log entries 10 and 27, safe. -/
opaque powerUpByte : Nat → PpuMemory → Nat → Byte

/-- What a cell of a mapper variant's own RAM holds after the load of index `k` until it is written (R78, R349). DESIGN CHOICE,
log entry 28, safe. -/
opaque mapperRamByte : Nat → Nat → Byte

/-- Whether a battery flag keeps a mapper variant's own RAM too, so that `erase_persistent_ram` clears it (R305, R349).
DESIGN CHOICE, log entry 28, safe. -/
opaque mapperRamPersistent : Nat → Bool

/-- The joypad bits the host passes to the `k`-th `emulate_frame` call (R318, R320, R50). DESIGN CHOICE, log entry
4, safe. -/
opaque joypadBits : Nat → Byte × Byte

/-! The mapper variants other than the no-op one (`MAPPER`, R290, D31): the source gives the contract and
no register map (N30), so the register block is a list of bytes and every operation of it is free. The
first argument is the mapper identifier, the second the register block. DESIGN CHOICE, log entry 11, safe. -/

/-- The register block after `reset()` (R291). -/
opaque mapperReset : Nat → List Byte

/-- The register block after `write(time, address, data)` (R292). -/
opaque mapperWrite : Nat → List Byte → Nat → Word → Byte → List Byte

/-- The bank assignments `apply_mapping()` issues: a function of the register block and the cartridge
(R293). -/
opaque mapperMapping : Nat → List Byte → Cartridge → Mapping

/-- `next_irq(present)` (R294), given the private clock, the present time, and what a scanline counter can
see of the PPU: the control and mask latches and the PPU dot. -/
opaque mapperNextIrq : Nat → List Byte → Nat → Nat → Byte → Byte → Nat → Option Nat

/-- The register block after `run_until(time)`, from the private clock's value to `time` (R295, R297), with
the same view of the PPU. -/
opaque mapperRunUntil : Nat → List Byte → Nat → Nat → Byte → Byte → Nat → List Byte

/-- The register block after `end_frame(length)` (R295), given the private clock, which `run_until(length)` has just brought
up to `length`. -/
opaque mapperEndFrame : Nat → List Byte → Nat → Nat → List Byte

/-! The audio chips other than the trivial one (`APU`, R319, U20): external agents with unconstrained internals and the
four operations of the rule. The first argument is the chip, the second its internals. DESIGN CHOICE, log entry 12,
safe. -/

/-- The internals after `write_register(time, address, data)` (R319). -/
opaque apuWrite : Nat → List Byte → Nat → Word → Byte → List Byte

/-- The internals after `run_until(time)` (R319). -/
opaque apuRunUntil : Nat → List Byte → Nat → List Byte

/-- The internals after `end_frame(length)` (R319). -/
opaque apuEndFrame : Nat → List Byte → Nat → List Byte

/-- `earliest_irq()` (R319); `none` is `never`. -/
opaque apuEarliestIrq : Nat → List Byte → Option Nat

end Config

end Sys2Proof
end

