-- ==== Sys2Proof/Machine/State.lean ====
section
/-! DEFINITION. The machine's state as plain data (`10_state.md`), the reasons a step can stop, and the
state after reset. -/

namespace Sys2Proof.Machine

/-- The six latches of the status byte P (R27 to R32). B and bit 5 are not latches (R34). -/
structure Status where
  n : Bool
  v : Bool
  d : Bool
  i : Bool
  z : Bool
  c : Bool
  deriving DecidableEq, Repr

/-- The CPU Register File (R20 to R27). -/
structure Cpu where
  a : Byte
  x : Byte
  y : Byte
  sp : Byte
  pc : Word
  p : Status
  deriving DecidableEq, Repr

/-- The three stopping reasons of `run` (R221). -/
inductive StopReason where
  /-- `StopCycles` (R223) -/
  | cycles
  /-- `StopICleared` (R224) -/
  | iCleared
  /-- `StopIllegal` (R225), with the opcode value recorded for the Bus Controller (R11) -/
  | illegal (op : Byte)
  deriving DecidableEq, Repr

/-- A CPU-side memory: cells at strictly rising addresses, none equal to what an unlisted address reads as
(`Memory.blank`). -/
abbrev Memory := List Host.Cell

/-- A memory of the PPU or the host's picture buffer: the cells written so far, at strictly rising
addresses. -/
abbrev Cells := List Host.Cell

/-- What the host needs to know of the moment a picture row was drawn to give its pixels colours (R281, R253): the
palette's 32 entries, the greyscale bit, the three emphasis bits. -/
structure RowColours where
  palette : List Byte
  grey : Bool
  emphasis : BitVec 3
  deriving DecidableEq, Repr

/-- The output side of the PPU (R49, R281): the buffer the host named (pointer and row stride), the bytes
written to it, keyed by host address, and the colours of each drawn row, keyed by row. -/
structure Video where
  buffer : Option (Nat × Nat)
  pixels : Cells
  rowColours : List (Nat × RowColours)
  deriving DecidableEq, Repr

/-- The PPU (R41 to R43): the register set, its memories, its timing state, its output. -/
structure Ppu where
  -- the register set, R41
  ctrl : Byte
  mask : Byte
  vbl : Bool
  spr0hit : Bool
  sprovf : Bool
  v : VramAddr
  t : VramAddr
  fx : BitVec 3
  w : Bool
  oamAddr : Byte
  rdbuf : Byte
  iolatch : Byte
  palette : Cells
  -- the memories, R42, R277
  oam : Cells
  nt : Cells
  chr : Cells
  chrBytes : Nat
  chrWritable : Bool
  chrPage : List Nat
  ntMap : List Nat
  -- the timing state, R43
  ppuClk : Nat
  phase : Nat
  oddFrame : Bool
  vblDone : Bool
  renderedUntil : Nat
  -- the model's own timing notes: this frame has dropped its dot (R264); the frame dot at which the row
  -- being drawn sets the sprite-zero-hit flag (R275); the index of the last full reset, which chose the unspecified contents (R347);
  -- that of the last full reset or load, which chose them in the memories that are the cartridge's (log entry 27)
  shortened : Bool
  spr0Dot : Option Nat
  powerUps : Nat
  cartPowerUps : Nat
  -- the output, R49
  video : Video
  deriving DecidableEq, Repr

/-- The mapper's state (R45): its register block and its private clock (R46). -/
structure Mapper where
  regs : List Byte
  clk : Nat
  deriving DecidableEq, Repr

/-- The RAM a mapper variant claims beyond the cartridge's 8KB (R78): the bytes written, and what the others are, either free ones,
chosen by the index of the load, or `PERSISTENT_ERASE` (`none`). DESIGN CHOICE, log entry 28, safe. -/
structure MapperRam where
  cells : Cells
  index : Option Nat
  deriving DecidableEq, Repr

/-- The audio chip as the core sees it (R319): which chip it is (0 is the trivial one), its internals, which the core
never inspects, and what it answers to `earliest_irq()`. -/
structure Audio where
  variant : Nat
  regs : List Byte
  irq : Option Nat
  deriving DecidableEq, Repr

/-- The joypads (R48, R318): the bits held for the frame, each pad's serial position, the strobe. -/
structure Joypads where
  bits1 : Byte
  bits2 : Byte
  pos1 : Nat
  pos2 : Nat
  strobe : Bool
  deriving DecidableEq, Repr

/-- The machine. -/
structure State where
  /-- the register file (R20) -/
  cpu : Cpu
  /-- the CPU cycle counter (R36) -/
  clk : Nat
  /-- the stop time of the `run` call in progress, `none` outside `run` (R37) -/
  endCycle : Option Nat
  /-- what the last finished `run` call returned (R221); `none` before the first and during a call -/
  lastStop : Option StopReason
  /-- the illegal-opcode counter (R38) -/
  errorCount : Nat
  /-- the Memory Page Table, one owner for each of the 32 dispatch pages (R39) -/
  pageTable : List Page
  /-- work RAM at 0x0000, cartridge RAM at 0x6000, program byte `k` at 0x8000 + k (R40, R50, R305) -/
  mem : Memory
  /-- the cartridge in the slot (R50) -/
  cart : Cartridge
  /-- the arguments the machine is built with (R7), the model's own -/
  params : Params
  /-- the PPU (R41 to R43) -/
  ppu : Ppu
  /-- the mapper (R45) -/
  mapper : Mapper
  /-- the mapper variant's own RAM (R78) -/
  mapperRam : MapperRam
  /-- the pending non-maskable interrupt time, `none` is `never` (R47) -/
  nmiTime : Option Nat
  /-- the earliest maskable interrupt time as last computed (R47) -/
  irqTime : Option Nat
  /-- the audio chip (R319) -/
  apu : Audio
  /-- the joypads (R48) -/
  pads : Joypads
  /-- an `emulate_frame` call is in progress (R308) -/
  inFrame : Bool
  /-- what the last `emulate_frame` call returned (R49, R314) -/
  frameResult : Option Nat
  /-- the model's own: how many `emulate_frame` calls there have been, the index of the free joypad bits -/
  frames : Nat
  /-- the model's own: how many free bytes have been taken -/
  freeReads : Nat
  deriving DecidableEq, Repr

/-- Why a step can stop with a fault: never. The spec has no fault and no stuck state (`93` Part 1: "This
machine has no case whose treatment is `fault` or `stuck`"; R61, R71, R220, R230), so the type has no
constructor. -/
inductive Fault where
  deriving DecidableEq, Repr

/-- Why a step can be refused. -/
inductive Refusal where
  /-- raised by an arm of `exec` whose instruction has no meaning yet; no arm raises it (safe) -/
  | notModelled (mnemonic : String)
  deriving DecidableEq, Repr

/-- The outcome of an instruction or a step. -/
abbrev Result := Host.Outcome State Fault Refusal

/-- The cartridge in the slot at `State.reset`: 32KB of program bytes with nothing written in them,
character RAM, the no-op mapper, no RAM (the cartridge of P6 in `95_test_vectors.md` less its
program). DESIGN CHOICE, log entry 2, unsafe for statements about the run from reset. -/
def blankCartridge : Cartridge :=
  { prgBytes := 32768, chrBytes := 0, mapperId := 0, mirroring := .horizontal, battery := false,
    ramPresent := false }

/-- The PPU after a full reset with the blank cartridge (R347, R51, R298). -/
def Ppu.reset : Ppu :=
  { ctrl := 0, mask := 0, vbl := false, spr0hit := false, sprovf := false, v := 0, t := 0, fx := 0,
    w := false, oamAddr := 0, rdbuf := 0, iolatch := 0, palette := [], oam := [], nt := [], chr := [],
    chrBytes := 8192, chrWritable := true, chrPage := [0, 1, 2, 3, 4, 5, 6, 7], ntMap := [0, 0, 1, 1],
    ppuClk := 0, phase := 0, oddFrame := false, vblDone := false, renderedUntil := 0, shortened := false,
    spr0Dot := none, powerUps := 0, cartPowerUps := 0, video := { buffer := none, pixels := [], rowColours := [] } }

/-- The machine right after `reset(full = true, erase = true)` with the blank cartridge (R340 to R350,
R51). PC is the word the blank program memory holds at `VEC_RESET`, 0x0000. DESIGN CHOICE for the cartridge (log entry
2) and for the model's own fields (log entry 20). -/
def State.reset : State :=
  { cpu := { a := 0x00#8, x := 0x00#8, y := 0x00#8, sp := 0xFD#8, pc := 0x0000#16,
             p := { n := false, v := false, d := false, i := true, z := false, c := false } },
    clk := 0, endCycle := none, lastStop := none, errorCount := 0,
    pageTable :=
      [.workRam, .workRam, .workRam, .workRam, .ppuRegs, .ppuRegs, .ppuRegs, .ppuRegs,
       .io, .unmapped, .unmapped, .unmapped, .unmapped, .unmapped, .unmapped, .unmapped,
       .prgRom 0, .prgRom 2048, .prgRom 4096, .prgRom 6144, .prgRom 8192, .prgRom 10240,
       .prgRom 12288, .prgRom 14336, .prgRom 16384, .prgRom 18432, .prgRom 20480, .prgRom 22528,
       .prgRom 24576, .prgRom 26624, .prgRom 28672, .prgRom 30720],
    mem := [], cart := blankCartridge, params := Config.defaultParams, ppu := Ppu.reset, mapper := { regs := [], clk := 0 },
    mapperRam := { cells := [], index := some 0 },
    nmiTime := none, irqTime := none, apu := { variant := 0, regs := [], irq := none },
    pads := { bits1 := 0, bits2 := 0, pos1 := 0, pos2 := 0, strobe := false },
    inFrame := false, frameResult := none, frames := 0, freeReads := 0 }

end Sys2Proof.Machine
end

