-- ==== Sys2Proof/Machine/Memory.lean ====
section
/-! DEFINITION. The two kinds of memory as lists of cells in one canonical form: the CPU-side memory
(`State.mem`), whose unlisted cells read as `Memory.blank`, and the cells of the PPU's memories and of a mapper variant's own
RAM, which list what has been written. -/

namespace Sys2Proof.Machine

/-- The value listed for key `k`, if any. -/
def Assoc.find {α : Type} (k : Nat) : List (Nat × α) → Option α
  | [] => none
  | (k', v) :: rest => if k' = k then some v else Assoc.find k rest

/-- List `v` for key `k`, in key order, in place of what was listed for it. -/
def Assoc.put {α : Type} (k : Nat) (v : α) : List (Nat × α) → List (Nat × α)
  | [] => [(k, v)]
  | (k', v') :: rest =>
    if k < k' then (k, v) :: (k', v') :: rest
    else if k = k' then (k, v) :: rest
    else (k', v') :: Assoc.put k v rest

/-- List nothing for key `k`. -/
def Assoc.remove {α : Type} (k : Nat) (l : List (Nat × α)) : List (Nat × α) :=
  l.filter (fun c => c.1 != k)

/-- Keys strictly rising: the canonical order, hence no key listed twice. -/
abbrev Assoc.sorted {α : Type} (l : List (Nat × α)) : Prop := l.Pairwise (fun a b => a.1 < b.1)

/-- The first key of program memory in `State.mem`: program byte `k` is cell 0x8000 + k, which for the flat
32KB layout is its CPU address (R298). -/
def prgKey : Nat := 0x8000

/-- The first key of cartridge RAM in `State.mem` (R78). -/
def cartRamKey : Nat := 0x6000

/-- What a CPU-side cell that is not listed reads as: the default of `RAM_POWERUP` in work RAM (R345), `PERSISTENT_ERASE` in
cartridge RAM (R349), 0x00 in program memory (the blank cartridge). A full reset writes the machine's own `RAM_POWERUP` and a
new cartridge brings its own bytes, so that these bytes stand for unwritten memory only at `State.reset`. DESIGN CHOICE, log
entries 5 to 7, unsafe there: the spec leaves these bytes open. -/
def Memory.blank (k : Nat) : Byte := if k < 0x800 then Config.ramPowerUpDefault else Config.persistentErase

/-- The byte in cell `k`. -/
def Memory.read (m : Memory) (k : Nat) : Byte := (Assoc.find k m).getD (Memory.blank k)

/-- Write `v` to cell `k`, keeping the canonical form: writing what an unlisted cell reads as removes the
entry. -/
def Memory.write (m : Memory) (k : Nat) (v : Byte) : Memory :=
  if v = Memory.blank k then Assoc.remove k m else Assoc.put k v m

/-- The canonical form of the CPU-side memory: addresses strictly rising, no entry equal to what an unlisted
address reads as. -/
abbrev Memory.wf (m : Memory) : Prop :=
  Assoc.sorted m ∧ ∀ c ∈ m, c.2 ≠ Memory.blank c.1

/-- Write bytes to the cells from `k` up, in order. -/
def Memory.load : Nat → List Byte → Memory → Memory
  | _, [], m => m
  | k, b :: bs, m => Memory.load (k + 1) bs (Memory.write m k b)

/-- Forget every listed cell whose key `drop` names: those cells read as unlisted again. -/
def Memory.forget (m : Memory) (drop : Nat → Bool) : Memory := m.filter (fun c => !drop c.1)

/-- Byte `k` of a mapper variant's own RAM (R78). -/
def MapperRam.byte (m : MapperRam) (k : Nat) : Byte :=
  (Assoc.find k m.cells).getD (m.index.elim Config.persistentErase (fun i => Config.mapperRamByte i k))

/-- Store a byte of it. -/
def MapperRam.store (m : MapperRam) (k : Nat) (v : Byte) : MapperRam := { m with cells := Assoc.put k v m.cells }

/-- Write bytes to it from byte 0 up, in order. -/
def MapperRam.load (m : MapperRam) (bytes : List Byte) : MapperRam :=
  bytes.zipIdx.foldl (fun r b => r.store b.2 b.1) m

/-- Every byte of it `PERSISTENT_ERASE` (R349). -/
def MapperRam.erased : MapperRam := { cells := [], index := none }

/-- Every byte of it a free one of the load of index `k`. -/
def MapperRam.unspecified (k : Nat) : MapperRam := { cells := [], index := some k }

end Sys2Proof.Machine
end

