-- ==== Sys2Proof/Machine/Ppu.lean ====
section
/-! DEFINITION. The PPU alone: its memories (R277, R280), its timing (R250, R261 to R264), rendering (R266 to
R275, R281) and the end of its frame (R282). Nothing here touches the CPU. -/

namespace Sys2Proof.Machine

/-! ## Memories -/

/-- The size of the nametable memory on chip; what lies past it the cartridge supplies (R42). -/
def onChipNametableBytes : Nat := 0x800

/-- The index of the full reset or load that left a cell unspecified: character RAM and the nametable memory past the 2KB on chip
are the cartridge's, so that a load counts for them. DESIGN CHOICE, log entry 27, safe. -/
def Ppu.indexOf (p : Ppu) (which : PpuMemory) (k : Nat) : Nat :=
  match which with
  | .palette | .oam => p.powerUps
  | .nametable => if k < onChipNametableBytes then p.powerUps else p.cartPowerUps
  | .characterRam => p.cartPowerUps

/-- A cell of one of the memories that are unspecified until written (R347). -/
def Ppu.cell (p : Ppu) (which : PpuMemory) (cells : Cells) (k : Nat) : Byte :=
  (Assoc.find k cells).getD (Config.powerUpByte (p.indexOf which k) which k)

/-- The PPU after a load (R327): the character buffer is the new cartridge's, and of the nametable memory only what is on chip is
kept. `index` is the load's own, which chooses the bytes of the memories the cartridge brings (R42, R277). DESIGN CHOICE, log
entry 27, safe: the spec gives those no content at a load. -/
def Ppu.afterLoad (p : Ppu) (index : Nat) (chr : List Byte) : Ppu :=
  { p with
    chr := chr.zipIdx.foldl (fun m b => Assoc.put b.2 b.1 m) []
    nt := p.nt.filter (fun c => c.1 < onChipNametableBytes)
    cartPowerUps := index }

/-- Byte `k` of sprite memory (R42, R92). -/
def Ppu.oamByte (p : Ppu) (k : Nat) : Byte := p.cell .oam p.oam k

/-- Store a byte of sprite memory. -/
def Ppu.oamStore (p : Ppu) (k : Nat) (d : Byte) : Ppu := { p with oam := Assoc.put k d p.oam }

/-- Which byte of the character buffer PPU address `a` in 0x0000 to 0x1FFF names: bank `chr_page[a >> 10]`,
modulo the bank count (R90, R277). -/
def Ppu.chrIndex (p : Ppu) (a : Nat) : Nat :=
  (p.chrPage.getD (a / 1024) 0 % (p.chrBytes / 1024)) * 1024 + a % 1024

/-- Which byte of nametable memory PPU address `a` in 0x2000 to 0x3EFF names (R267; 0x3000 to 0x3EFF mirror
0x2000 to 0x2EFF, R91, R280). -/
def Ppu.ntIndex (p : Ppu) (a : Nat) : Nat := p.ntMap.getD (a / 1024 % 4) 0 * 1024 + a % 1024

/-- Which of the 32 palette cells PPU address `a` in 0x3F00 to 0x3FFF names: entries 0x10, 0x14, 0x18, 0x1C
alias 0x00, 0x04, 0x08, 0x0C (R280). -/
def paletteIndex (a : Nat) : Nat :=
  let i := a % 32
  if i % 4 = 0 then i % 16 else i

/-- `palette[i]` after the aliasing: a 6-bit colour (R41, R280). -/
def Ppu.paletteByte (p : Ppu) (i : Nat) : Byte := p.cell .palette p.palette (paletteIndex i) &&& 0x3F#8

/-- `PpuRead(a)` (R280). -/
def Ppu.read (p : Ppu) (a : Nat) : Byte :=
  if a < 0x2000 then
    if p.chrWritable then p.cell .characterRam p.chr (p.chrIndex a)
    else (Assoc.find (p.chrIndex a) p.chr).getD 0
  else if a < 0x3F00 then p.cell .nametable p.nt (p.ntIndex a)
  else p.paletteByte a

/-- `PpuWrite(a, d)` (R280): a write to pattern memory is dropped unless `chr_writable` (R277). -/
def Ppu.write (p : Ppu) (a : Nat) (d : Byte) : Ppu :=
  if a < 0x2000 then
    if p.chrWritable then { p with chr := Assoc.put (p.chrIndex a) d p.chr } else p
  else if a < 0x3F00 then { p with nt := Assoc.put (p.ntIndex a) d p.nt }
  else { p with palette := Assoc.put (paletteIndex a) (d &&& 0x3F#8) p.palette }

/-! ## Fields of the latches (R252, R253, R268) -/

/-- Rendering enabled: background or sprites are shown (R253). -/
def Ppu.rendering (p : Ppu) : Bool := p.mask.getLsbD 3 || p.mask.getLsbD 4

/-- `v[4:0]`, coarse X. -/
def coarseX (v : VramAddr) : Nat := v.toNat % 32

/-- `v[9:5]`, coarse Y. -/
def coarseY (v : VramAddr) : Nat := v.toNat / 32 % 32

/-- `v[10]`, the horizontal nametable bit. -/
def nameX (v : VramAddr) : Nat := v.toNat / 1024 % 2

/-- `v[11]`, the vertical nametable bit. -/
def nameY (v : VramAddr) : Nat := v.toNat / 2048 % 2

/-- `v[14:12]`, fine Y. -/
def fineY (v : VramAddr) : Nat := v.toNat / 4096 % 8

/-! ## Rendering one picture row -/

/-- Bit `b` of the two planes as a 2-bit colour, the second plane the high bit (R268, R274). -/
def planeColour (p0 p1 : Byte) (b : Nat) : Nat := (p1.getLsbD b).toNat * 2 + (p0.getLsbD b).toNat

/-- The background at pixel `x` of the row about to be drawn (R268): whether it is opaque, and its palette
index (0, the backdrop, where it is not). -/
def Ppu.background (p : Ppu) (x : Nat) : Bool × Nat :=
  let s := p.fx.toNat + x
  let cx0 := coarseX p.v + s / 8
  let ntx := (nameX p.v + cx0 / 32) % 2
  let cx := cx0 % 32
  let cy := coarseY p.v
  let table := nameY p.v * 2048 + ntx * 1024
  let tile := (p.read (0x2000 + table + cy * 32 + cx)).toNat
  let attr8 := (p.read (0x23C0 + table + (cy / 4) * 8 + cx / 4)).toNat
  let grp := attr8 / 2 ^ ((cy / 2 % 2) * 4 + (cx / 2 % 2) * 2) % 4
  let pa := (p.ctrl.getLsbD 4).toNat * 4096 + tile * 16 + fineY p.v
  let c := planeColour (p.read pa) (p.read (pa + 8)) (7 - s % 8)
  if c ≠ 0 ∧ p.mask.getLsbD 3 ∧ (8 ≤ x ∨ p.mask.getLsbD 1) then (true, grp * 4 + c) else (false, 0)

/-- Sprite height: 8 or 16 rows (R252 bit 5, R273). -/
def Ppu.spriteHeight (p : Ppu) : Nat := if p.ctrl.getLsbD 5 then 16 else 8

/-- The first picture row of OAM entry `i`: one below its Y byte (R273). -/
def Ppu.spriteTop (p : Ppu) (i : Nat) : Nat := (p.oamByte (4 * i)).toNat + 1

/-- OAM entry `i` is in range on picture row `y` (R273). -/
def Ppu.spriteInRange (p : Ppu) (y i : Nat) : Bool :=
  p.spriteTop i ≤ y && y - p.spriteTop i < p.spriteHeight

/-- The entries drawn on row `y`: the first eight in range, in ascending order (R273). -/
def Ppu.selectedSprites (p : Ppu) (y : Nat) : List Nat :=
  ((List.range 64).filter (p.spriteInRange y)).take Config.maxSpritesPerLine

/-- The 2-bit colour of OAM entry `i`, in range on row `y`, at pixel `x`; 0 where it is not opaque (R274). -/
def Ppu.spriteColour (p : Ppu) (y i x : Nat) : Nat :=
  let tile := (p.oamByte (4 * i + 1)).toNat
  let flags := p.oamByte (4 * i + 2)
  let x0 := (p.oamByte (4 * i + 3)).toNat
  let h := p.spriteHeight
  let r0 := y - p.spriteTop i
  let r := if flags.getLsbD 7 then h - 1 - r0 else r0
  let pa :=
    if p.ctrl.getLsbD 5 then (tile % 2) * 4096 + (tile / 2 * 2 + r / 8) * 16 + r % 8
    else (p.ctrl.getLsbD 3).toNat * 4096 + tile * 16 + r
  let k := x - x0
  let b := if flags.getLsbD 6 then k else 7 - k
  if x0 ≤ x ∧ k < 8 ∧ p.mask.getLsbD 4 ∧ (8 ≤ x ∨ p.mask.getLsbD 2) then
    planeColour (p.read pa) (p.read (pa + 8)) b
  else 0

/-- The composed palette index at pixel `x` of row `y`, `sprites` being the selected entries (R274): the
lowest-numbered opaque sprite, unless the background is opaque and that sprite is behind it. -/
def Ppu.composed (p : Ppu) (y : Nat) (sprites : List Nat) (x : Nat) : Nat :=
  let bg := p.background x
  match sprites.find? (fun i => p.spriteColour y i x != 0) with
  | none => bg.2
  | some i =>
    let flags := p.oamByte (4 * i + 2)
    if bg.1 && flags.getLsbD 5 then bg.2
    else 16 + (flags.toNat % 4) * 4 + p.spriteColour y i x

/-- The 256 palette indices of picture row `y` (R281). -/
def Ppu.rowPixels (p : Ppu) (y : Nat) : List Nat :=
  let sprites := p.selectedSprites y
  (List.range 256).map (p.composed y sprites)

/-- The pixel of row `y` at which the sprite-zero hit falls, if it does (R275): the first `x` below 255
where entry 0 and the background are both opaque. -/
def Ppu.spriteZeroHit (p : Ppu) (y : Nat) : Option Nat :=
  if p.spriteInRange y 0 then
    (List.range 255).find? (fun x => p.spriteColour y 0 x != 0 && (p.background x).1)
  else none

/-- Write a row's bytes to the host's buffer, at `pointer + y*row_stride + x` (R281); nothing if the host
named no buffer (R322). -/
def Video.writeRow (o : Video) (y : Nat) (row : List Nat) : Video :=
  match o.buffer with
  | none => o
  | some (pointer, stride) =>
    let store := fun (cells : Cells) (px : Nat × Nat) =>
      Assoc.put (pointer + y * stride + px.2) (BitVec.ofNat 8 px.1) cells
    { o with pixels := row.zipIdx.foldl store o.pixels }

/-- Draw picture row `y` as a whole with the state of this moment (R266, R281), and note the frame dot at
which the sprite-zero-hit flag will be set (R275). DESIGN CHOICE, log entry 21, safe: the host's buffer and the row's
colours are kept as data. -/
def Ppu.drawRow (p : Ppu) (y : Nat) : Ppu :=
  let out := p.video.writeRow y (p.rowPixels y)
  let colours : RowColours :=
    { palette := (List.range 32).map p.paletteByte, grey := p.mask.getLsbD 0
      emphasis := p.mask.extractLsb' 5 3 }
  { p with
    video := { out with rowColours := Assoc.put y colours out.rowColours }
    spr0Dot := (p.spriteZeroHit y).map (fun x => (y + 1) * Config.dotsPerLine + x + 1) }

/-! ## The movement of `v` (R271) -/

/-- The vertical copy: `v[14:11] <- t[14:11]; v[9:5] <- t[9:5]`. -/
def verticalCopy (v t : VramAddr) : VramAddr := (v &&& 0x041F#15) ||| (t &&& 0x7BE0#15)

/-- The horizontal copy: `v[10] <- t[10]; v[4:0] <- t[4:0]`. -/
def horizontalCopy (v t : VramAddr) : VramAddr := (v &&& 0x7BE0#15) ||| (t &&& 0x041F#15)

/-- The step to the next row at `YINC_DOT`. -/
def nextRow (v : VramAddr) : VramAddr :=
  if fineY v < 7 then v + 0x1000#15
  else
    let v0 := v &&& 0x0FFF#15
    if coarseY v0 = 29 then (v0 &&& 0x0C1F#15) ^^^ 0x0800#15
    else if coarseY v0 = 31 then v0 &&& 0x0C1F#15
    else v0 + 0x0020#15

/-! ## Dots (R250, R261 to R264) -/

/-- The scanline and the dot in it of frame dot `n` (R261); in a shortened frame line 0 has one dot less, so
every later dot comes one earlier (R264). PRESUMED, log entry 13, unsafe. -/
def Ppu.position (p : Ppu) (n : Nat) : Nat × Nat :=
  let m := if p.shortened && 340 ≤ n then n + 1 else n
  (m / Config.dotsPerLine, m % Config.dotsPerLine)

/-- What the PPU does at a dot of the pre-render line (R271, R264): the moves of `v` when rendering is
enabled; and at the last dot a shortened line keeps, whether this frame drops one. PRESUMED, log entry 13, unsafe for a
program that switches rendering at that dot. -/
def Ppu.preRenderDot (p : Ppu) (dot : Nat) : Ppu :=
  if dot = 339 then
    { p with shortened := p.oddFrame && (p.rendering || !Config.oddSkipNeedsRendering) }
  else if !p.rendering then p
  else if dot = 256 then { p with v := nextRow p.v }
  else if dot = 257 then { p with v := horizontalCopy p.v p.t }
  else if 280 ≤ dot ∧ dot ≤ 304 then { p with v := verticalCopy p.v p.t }
  else p

/-- What the PPU does at a dot of a visible line of picture row `y`: the row is drawn at its first dot
(R266), and `v` moves when rendering is enabled (R271). -/
def Ppu.visibleDot (p : Ppu) (y dot : Nat) : Ppu :=
  if dot = 0 then p.drawRow y
  else if !p.rendering then p
  else if dot = 256 then { p with v := nextRow p.v }
  else if dot = 257 then { p with v := horizontalCopy p.v p.t }
  else p

/-- The sprite-zero-hit flag of the row being drawn is set at its dot (R275). -/
def Ppu.hitDot (p : Ppu) (n : Nat) : Ppu := if p.spr0Dot = some n then { p with spr0hit := true } else p

/-- What the PPU does at a dot of a line; nothing on the post-render and vertical-blank lines (R262). -/
def Ppu.lineDot (p : Ppu) (line dot : Nat) : Ppu :=
  if line = 0 then p.preRenderDot dot
  else if line ≤ 240 then p.visibleDot (line - 1) dot
  else p

/-- Everything the PPU does at frame dot `n`, the vertical-blank event apart (R263). -/
def Ppu.atDot (p : Ppu) (n : Nat) : Ppu := (p.hitDot n).lineDot (p.position n).1 (p.position n).2

/-- `k` dots, the first of them frame dot `n`. -/
def Ppu.runDots : Nat → Nat → Ppu → Ppu
  | 0, _, p => p
  | k + 1, n, p => Ppu.runDots k (n + 1) (p.atDot n)

/-- `dot(c) = 3*c + phase`, the dot reached at CPU time `c` (R250). -/
def Ppu.dotAt (p : Ppu) (c : Nat) : Nat := Config.ppuRatio * c + p.phase

/-- How many frame dots have a CPU time earlier than `T`, the CPU time of dot `n` being the least `c` with
`dot(c) >= n` (R266, R85): those up to `dot(T - 1)`. -/
def Ppu.dotsBefore (p : Ppu) (T : Nat) : Nat := if T = 0 then 0 else p.dotAt (T - 1) + 1

/-- `render_until(T)` (R266): every effect of a dot whose CPU time is earlier than `T`, and none of a dot at
or after it (R85). -/
def Ppu.renderUntil (p : Ppu) (T : Nat) : Ppu :=
  if p.renderedUntil < T then
    { Ppu.runDots (p.dotsBefore T - p.dotsBefore p.renderedUntil) (p.dotsBefore p.renderedUntil) p with
      renderedUntil := T
      ppuClk := p.dotAt T }
  else p

/-- `T_vbl`, the CPU time of the vertical-blank event: the least `c` with `dot(c) >= VBL_SET_DOT` (R263). DEDUCED, log
entry 14, unsafe: in a shortened frame too. -/
def Ppu.vblTime (p : Ppu) : Nat := (Config.vblSetDot - p.phase + 2) / 3

/-- The dots of this frame (R264). -/
def Ppu.frameDots (p : Ppu) : Nat := if p.shortened then Config.shortFrameDots else Config.frameDots

/-- `frame_len`, the frame's length in CPU cycles: the least `c` with `dot(c) >= frame_dots` (R264). -/
def Ppu.frameLen (p : Ppu) : Nat := (p.frameDots - p.phase + 2) / 3

/-- What is left of the frame is rendered (R282). -/
def Ppu.finishFrame (p : Ppu) : Ppu :=
  Ppu.runDots (Config.frameDots - p.dotsBefore p.renderedUntil) (p.dotsBefore p.renderedUntil) p

/-- `end_frame` of the PPU, the rest of the frame rendered (R282, R264, R307): the parity toggles, the
remainder is carried into `phase`, the dot clock restarts at it, and the flags that `FLAG_CLEAR_DOT` of the
new frame clears are cleared here (R263; DEDUCED, log entry 15, safe). -/
def Ppu.endFrame (p : Ppu) : Ppu :=
  let phase' := Config.ppuRatio * p.frameLen + p.phase - p.frameDots
  { p with
    phase := phase', ppuClk := phase', renderedUntil := 0, oddFrame := !p.oddFrame, vblDone := false
    vbl := false, spr0hit := false, sprovf := false, shortened := false, spr0Dot := none }

/-! ## Register effects that need nothing but the PPU (R252, R255 to R259) -/

/-- The bits of `t` a control write sets: `t[11:10] <- d[1:0]` (R252). -/
def tAfterControl (t : VramAddr) (d : Byte) : VramAddr :=
  (t &&& 0x73FF#15) ||| ((d.setWidth 15 &&& 0x3#15) <<< 10)

/-- The bits of `t` the first scroll write sets: `t[4:0] <- d[7:3]` (R257). -/
def tAfterScrollX (t : VramAddr) (d : Byte) : VramAddr := (t &&& 0x7FE0#15) ||| (d >>> 3).setWidth 15

/-- The bits of `t` the second scroll write sets: `t[14:12] <- d[2:0]; t[9:5] <- d[7:3]` (R257). -/
def tAfterScrollY (t : VramAddr) (d : Byte) : VramAddr :=
  (t &&& 0x0C1F#15) ||| ((d.setWidth 15 &&& 0x7#15) <<< 12) ||| ((d >>> 3).setWidth 15 <<< 5)

/-- The bits of `t` the first address write sets: `t[13:8] <- d[5:0]; t[14] <- 0` (R258). -/
def tAfterAddressHigh (t : VramAddr) (d : Byte) : VramAddr :=
  (t &&& 0x00FF#15) ||| ((d.setWidth 15 &&& 0x3F#15) <<< 8)

/-- The bits of `t` the second address write sets: `t[7:0] <- d` (R258). -/
def tAfterAddressLow (t : VramAddr) (d : Byte) : VramAddr := (t &&& 0x7F00#15) ||| d.setWidth 15

/-- A write to the scroll register, first or second of a pair (R257). -/
def Ppu.writeScroll (p : Ppu) (d : Byte) : Ppu :=
  if p.w then { p with t := tAfterScrollY p.t d, w := false }
  else { p with t := tAfterScrollX p.t d, fx := d.setWidth 3, w := true }

/-- A write to the address register, first or second of a pair (R258). -/
def Ppu.writeAddress (p : Ppu) (d : Byte) : Ppu :=
  if p.w then { p with t := tAfterAddressLow p.t d, v := tAfterAddressLow p.t d, w := false }
  else { p with t := tAfterAddressHigh p.t d, w := true }

/-- The data port's address, `v & 0x3FFF` (R259). -/
def Ppu.dataAddress (p : Ppu) : Nat := p.v.toNat % 0x4000

/-- `v` after a data-port access: plus 1 or 32, modulo 2^15 (R259). -/
def Ppu.stepAddress (p : Ppu) : Ppu := { p with v := p.v + if p.ctrl.getLsbD 2 then 32#15 else 1#15 }

/-- A write to the data port (R259). -/
def Ppu.writeData (p : Ppu) (d : Byte) : Ppu := (p.write p.dataAddress d).stepAddress

/-- A read of the data port: the byte, and the PPU after it (R259). Below the palette the byte is the
buffered one; a palette read is immediate and refills the buffer from the nametable underneath. -/
def Ppu.readData (p : Ppu) : Byte × Ppu :=
  let a := p.dataAddress
  if a < 0x3F00 then (p.rdbuf, { p with rdbuf := p.read a }.stepAddress)
  else ((p.read a &&& 0x3F#8) ||| (p.iolatch &&& 0xC0#8), { p with rdbuf := p.read (a - 0x1000) }.stepAddress)

/-- A write to the OAM data register (R256). -/
def Ppu.writeOamData (p : Ppu) (d : Byte) : Ppu :=
  { p.oamStore p.oamAddr.toNat d with oamAddr := p.oamAddr + 1 }

/-- `result <- {vbl, spr0hit, sprovf, iolatch[4:0]}` with bit 5 the free bit `b5` (R254, R276). -/
def Ppu.statusByte (p : Ppu) (b5 : Bool) : Byte :=
  (if p.vbl then 0x80#8 else 0#8) ||| (if p.spr0hit then 0x40#8 else 0#8)
    ||| (if b5 then 0x20#8 else 0#8) ||| (p.iolatch &&& 0x1F#8)

end Sys2Proof.Machine
end

