-- ==== Sys2Proof/Machine/Mapper.lean ====
section
/-! DEFINITION. The mapper's operations over the system (R290 to R299; `write`, which first brings the PPU up to
its time, is in Ports.lean), and the `irq_changed` notification it and the PPU make (R239). Mapper identifier 0 is the no-op variant (R298), every other a free agent under
the contract (D31). -/

namespace Sys2Proof.Machine

/-- The earlier of two times, `none` being `never`. -/
def earlier : Option Nat → Option Nat → Option Nat
  | some a, some b => some (min a b)
  | some a, none => some a
  | none, b => b

/-- `irq_changed`: a future-interrupt-time estimate is now `t`; the current stop time is lowered to it at once
and never raised (R239, R37). -/
def irqChanged (t : Option Nat) (s : State) : State :=
  match s.endCycle, t with
  | some e, some t => { s with endCycle := some (min e t) }
  | _, _ => s

/-- The bank assignments of the no-op variant (R298): program ROM flat into 0x8000 to 0xFFFF modulo its size,
character data flat, nametables by the mirroring flag (R267); pages 12 to 15 are cartridge RAM when the
cartridge has it, pages 9 to 11 unmapped (R78, R301). -/
def noopMapping (c : Cartridge) : Mapping :=
  { lowPages :=
      (List.replicate 3 Page.unmapped) ++
      (List.range 4).map (fun k => if c.ramPresent then Page.cartRam (k * 2048) else Page.unmapped)
    prgBase := (List.range 16).map (fun k => k * 2048 % c.prgBytes)
    chrPage := List.range 8
    ntMap :=
      match c.mirroring with
      | .horizontal => [0, 0, 1, 1]
      | .vertical => [0, 1, 0, 1]
      | .singleScreen k => [k, k, k, k]
      | .fourScreen => [0, 1, 2, 3] }

/-- What `apply_mapping()` assigns, from the register block and the cartridge alone (R293). -/
def mappingOf (regs : List Byte) (c : Cartridge) : Mapping :=
  if c.mapperId = 0 then noopMapping c else Config.mapperMapping c.mapperId regs c

/-- The page table the assignments give: pages 0 to 8 are the fixed installation of R301, the rest the
mapper's (DESIGN CHOICE, log entry 11: pages 16 to 31 stay program ROM). Every one of the 32 entries has an owner (R61). -/
def pageTableOf (m : Mapping) : List Page :=
  (List.range 32).map (fun p =>
    if p < 4 then Page.workRam
    else if p < 8 then Page.ppuRegs
    else if p = 8 then Page.io
    else if p < 16 then m.lowPages.getD (p - 9) .unmapped
    else Page.prgRom (m.prgBase.getD (p - 16) 0))

/-- `apply_mapping()`: re-issue the register state as bank assignments (R293). -/
def applyMapping (s : State) : State :=
  let m := mappingOf s.mapper.regs s.cart
  { s with
    pageTable := pageTableOf m
    ppu := { s.ppu with
      chrPage := (List.range 8).map (fun k => m.chrPage.getD k 0)
      ntMap := (List.range 4).map (fun k => m.ntMap.getD k 0) } }

/-- `reset()` of the mapper: the power-up register block, then the mapping (R291, R348). -/
def mapperReset (s : State) : State :=
  applyMapping { s with
    mapper := { regs := if s.cart.mapperId = 0 then [] else Config.mapperReset s.cart.mapperId, clk := 0 } }

/-- `run_until(time)` of the mapper: its private clock comes up to `time` (R295). The no-op variant has no
timer (R298). -/
def mapperRunUntil (time : Nat) (s : State) : State :=
  if s.cart.mapperId = 0 then s
  else
    { s with mapper :=
      { regs := Config.mapperRunUntil s.cart.mapperId s.mapper.regs s.mapper.clk time
          s.ppu.ctrl s.ppu.mask (s.ppu.dotAt time)
        clk := max s.mapper.clk time } }

/-- `next_irq(present)` (R294): `never` for the no-op variant (R298). -/
def mapperNextIrq (present : Nat) (s : State) : Option Nat :=
  if s.cart.mapperId = 0 then none
  else Config.mapperNextIrq s.cart.mapperId s.mapper.regs s.mapper.clk present
    s.ppu.ctrl s.ppu.mask (s.ppu.dotAt present)

/-- `irq_time` as it would be recomputed at `present`: the earlier of the mapper's and the audio chip's
answers (R235, R308). -/
def recomputedIrq (present : Nat) (s : State) : Option Nat :=
  earlier (mapperNextIrq present s) s.apu.irq

/-- A source of maskable interrupts has changed: `irq_changed` with the time `irq_time` would now have (R239, R315). -/
def notifyIrq (s : State) : State := irqChanged (recomputedIrq s.clk s) s

/-- `end_frame(length)` of the mapper, whose timers `run_until(length)` has brought to `length` (R295, R307): the private
clock loses the length. -/
def mapperEndFrame (length : Nat) (s : State) : State :=
  if s.cart.mapperId = 0 then s
  else
    { s with mapper :=
      { regs := Config.mapperEndFrame s.cart.mapperId s.mapper.regs s.mapper.clk length
        clk := s.mapper.clk - length } }

end Sys2Proof.Machine
end

