-- ==== Sys2Proof/Machine/Ports.lean ====
section
/-! DEFINITION. Where the CPU meets the devices: bringing the PPU up to the time of an access (R85, R266), its
eight registers (R251 to R259), the vertical-blank event (R263, R265), the mapper's write (R292), and the
peripheral I/O page without OAM DMA (R304, R318, R319). -/

namespace Sys2Proof.Machine

/-- Read a byte the spec leaves open, chosen afresh (R67, D21). -/
def takeFree (s : State) : Byte × State :=
  (Config.freeByte s.freeReads, { s with freeReads := s.freeReads + 1 })

/-! ## The vertical-blank event -/

/-- An NMI becomes due at `t` (R234): `nmi_time` is set and the run shortened (R239). -/
def raiseNmi (t : Nat) (s : State) : State :=
  irqChanged (some (t + Config.nmiDelay)) { s with nmiTime := some (t + Config.nmiDelay) }

/-- `VblEvent` (R263): the flag is set, and the NMI is raised at `T_vbl` if the control latch enables it. -/
def vblEvent (s : State) : State :=
  let s1 := { s with ppu := { s.ppu with vbl := true, vblDone := true } }
  if s.ppu.ctrl.getLsbD 7 then raiseNmi s.ppu.vblTime s1 else s1

/-- Bring the PPU up to an access time-stamped `T`: every effect of a time earlier than `T`, none of a time at
or after it (R85, R251, R266), the vertical-blank event among them (R263 a). -/
def catchUp (T : Nat) (s : State) : State :=
  let s1 := { s with ppu := s.ppu.renderUntil T }
  if !s1.ppu.vblDone && s1.ppu.vblTime < T then vblEvent s1 else s1

/-- Before an access time-stamped `T` takes effect, the PPU and the mapper's timers have done everything that belongs to
an earlier time (R85). -/
def syncDevices (T : Nat) (s : State) : State := mapperRunUntil T (catchUp T s)

/-! ## The PPU registers -/

/-- A status read at time `T` (R254), with the race of R265: stamped exactly `T_vbl` before the event, it
suppresses this frame's flag and NMI. Bit 5 is free (R276; DESIGN CHOICE, log entry 9, safe). -/
def readStatus (T : Nat) (s : State) : Byte × State :=
  let f := takeFree s
  let p := f.2.ppu
  let race := !p.vblDone && T == p.vblTime
  (p.statusByte (f.1.getLsbD 0),
    { f.2 with ppu := { p with vbl := false, w := false, vblDone := p.vblDone || race } })

/-- A read of PPU register `r` (R251): status, OAM data and data answer; the write-only registers return the
last byte written to any register. -/
def ppuRegRead (r : Nat) (s : State) : Byte × State :=
  let s1 := syncDevices s.clk s
  match r with
  | 2 => readStatus s.clk s1
  | 4 => (s1.ppu.oamByte s1.ppu.oamAddr.toNat, s1)
  | 7 => (s1.ppu.readData.1, { s1 with ppu := s1.ppu.readData.2 })
  | _ => (s1.ppu.iolatch, s1)

/-- A write to the control register at time `T` (R252): `ctrl`, two bits of `t`, and an NMI at once if the enable
bit rises while the vertical-blank flag is set (R234 b). -/
def writeControl (T : Nat) (d : Byte) (s : State) : State :=
  let s1 := { s with ppu := { s.ppu with ctrl := d, t := tAfterControl s.ppu.t d } }
  if !s.ppu.ctrl.getLsbD 7 && d.getLsbD 7 && s.ppu.vbl then raiseNmi T s1 else s1

/-- A write of `d` to PPU register `r` (R251 to R259). The two latches a mapper's scanline counter can see, control and
mask, may move its interrupt time, which shortens the run (R239, R315). -/
def ppuRegWrite (r : Nat) (d : Byte) (s : State) : State :=
  let s0 := syncDevices s.clk s
  let s1 := { s0 with ppu := { s0.ppu with iolatch := d } }
  match r with
  | 0 => notifyIrq (writeControl s.clk d s1)
  | 1 => notifyIrq { s1 with ppu := { s1.ppu with mask := d } }
  | 3 => { s1 with ppu := { s1.ppu with oamAddr := d } }
  | 4 => { s1 with ppu := s1.ppu.writeOamData d }
  | 5 => { s1 with ppu := s1.ppu.writeScroll d }
  | 6 => { s1 with ppu := s1.ppu.writeAddress d }
  | 7 => { s1 with ppu := s1.ppu.writeData d }
  | _ => s1

/-! ## The mapper's write -/

/-- The mapper's registers take a write stamped with the present time (R292). -/
def mapperTakes (a : Word) (d : Byte) (s : State) : State :=
  { s with mapper :=
    { s.mapper with regs := Config.mapperWrite s.cart.mapperId s.mapper.regs s.clk a d } }

/-- `write(time, address, data)` of the mapper, `time` being the present CPU time (R292, R81): the PPU and the timers
are brought up to it (R85, R295), the registers take the write, the mapping is issued again, and an earlier
interrupt time shortens the run (R239). The no-op variant ignores it (R298). -/
def mapperWrite (a : Word) (d : Byte) (s : State) : State :=
  if s.cart.mapperId = 0 then s
  else notifyIrq (applyMapping (mapperTakes a d (syncDevices s.clk s)))

/-! ## Peripheral I/O -/

/-- A write to the joypad strobe, 0x4016 (R318): while it is 1, and at the moment it goes to 0, both positions are
0. -/
def writeStrobe (d : Byte) (s : State) : State :=
  let strobe := d.getLsbD 0
  if s.pads.strobe || strobe then { s with pads := { s.pads with strobe := strobe, pos1 := 0, pos2 := 0 } }
  else { s with pads := { s.pads with strobe := strobe } }

/-- The serial bit of a pad at a position: the button's bit, 1 past the eighth (R318). -/
def padBit (bits : Byte) (pos : Nat) : Bool := if pos < 8 then bits.getLsbD pos else true

/-- The position after a read: one on, unless the strobe holds it at 0 or it is past the eighth (R318). -/
def padNext (strobe : Bool) (pos : Nat) : Nat :=
  if strobe then 0 else if pos < 8 then pos + 1 else pos

/-- A joypad port's byte: bit 0 the serial bit, the others free (R318). -/
def padByte (free : Byte) (bit : Bool) : Byte := (free &&& 0xFE#8) ||| (if bit then 1#8 else 0#8)

/-- A read of joypad port 1, 0x4016 (R318). -/
def readPad1 (s : State) : Byte × State :=
  let f := takeFree s
  let pos := if s.pads.strobe then 0 else s.pads.pos1
  (padByte f.1 (padBit s.pads.bits1 pos),
    { f.2 with pads := { s.pads with pos1 := padNext s.pads.strobe pos } })

/-- A read of joypad port 2, 0x4017 (R318). -/
def readPad2 (s : State) : Byte × State :=
  let f := takeFree s
  let pos := if s.pads.strobe then 0 else s.pads.pos2
  (padByte f.1 (padBit s.pads.bits2 pos),
    { f.2 with pads := { s.pads with pos2 := padNext s.pads.strobe pos } })

/-- A read in the I/O page (R304): the two joypad ports; the audio status and every other address read as a free
byte. -/
def ioRead (a : Word) (s : State) : Byte × State :=
  if a = 0x4016#16 then readPad1 s
  else if a = 0x4017#16 then readPad2 s
  else takeFree s

/-- The audio chip with new internals, and with them a new answer to `earliest_irq()` (R319). -/
def Audio.withRegs (p : Audio) (regs : List Byte) : Audio :=
  { p with regs := regs, irq := Config.apuEarliestIrq p.variant regs }

/-- `run_until(time)` of the audio chip (R319); the trivial chip has nothing to run. -/
def Audio.runUntil (time : Nat) (p : Audio) : Audio :=
  if p.variant = 0 then p else p.withRegs (Config.apuRunUntil p.variant p.regs time)

/-- The audio chip's internals take a write (R319). -/
def Audio.takes (p : Audio) (T : Nat) (a : Word) (d : Byte) : Audio := p.withRegs (Config.apuWrite p.variant p.regs T a d)

/-- The audio chip is brought up to a time (R319). When the core does so is the model's choice: before a register write,
before `earliest_irq()` is asked at a pass of the frame loop, and before `end_frame`. DESIGN CHOICE, log entry 12, safe. -/
def apuRunUntil (time : Nat) (s : State) : State := { s with apu := s.apu.runUntil time }

/-- The audio chip takes a write stamped with the present time (R319). -/
def apuTakes (a : Word) (d : Byte) (s : State) : State := { s with apu := s.apu.takes s.clk a d }

/-- `write_register(T, addr, v)` of the audio chip, `T` being the present CPU time (R319, R304, R85); an earlier interrupt
time shortens the run (R315, R239). The trivial chip ignores it. -/
def apuWrite (a : Word) (d : Byte) (s : State) : State :=
  if s.apu.variant = 0 then s
  else notifyIrq (apuTakes a d (apuRunUntil s.clk (syncDevices s.clk s)))

end Sys2Proof.Machine
end

