-- ==== Sys2Proof/Machine/Ops.lean ====
section
/-! DEFINITION. The named operations over registers and the CPU address space: register writes, `Fetch`,
`MemRead`, `MemWrite` (R60 to R68), OAM DMA (R317), word reads (R72, R73), the stack (R75 to R77), ending a
`run` (R221), taking an interrupt and returning from one (R188, R189, R236), and the part of an instruction
step common to all (R124). -/

namespace Sys2Proof.Machine

/-! ## Register writes -/

/-- `A <- v` -/
def State.setA (s : State) (v : Byte) : State := { s with cpu := { s.cpu with a := v } }

/-- `X <- v` -/
def State.setX (s : State) (v : Byte) : State := { s with cpu := { s.cpu with x := v } }

/-- `Y <- v` -/
def State.setY (s : State) (v : Byte) : State := { s with cpu := { s.cpu with y := v } }

/-- `SP <- v` -/
def State.setSp (s : State) (v : Byte) : State := { s with cpu := { s.cpu with sp := v } }

/-- `PC <- w` -/
def State.setPc (s : State) (w : Word) : State := { s with cpu := { s.cpu with pc := w } }

/-- All six flags at once. -/
def State.setP (s : State) (p : Status) : State := { s with cpu := { s.cpu with p := p } }

/-- `clk <- clk + n` -/
def State.addClk (s : State) (n : Nat) : State := { s with clk := s.clk + n }

/-! ## The CPU address space -/

/-- `page(addr) = addr >> 11`'s entry of the page table (R61). An index past the table cannot occur
(`pageTableOf`); it would have no owner (R228). -/
def State.pageAt (s : State) (a : Word) : Page := s.pageTable.getD (a.toNat / 2048) .unmapped

/-- The cell of `State.mem` behind address `a`, if the page is plain memory (R65): work RAM with its mirrors (R79),
cartridge RAM, the mapped program bank (R90). A `cartRam` page is a window of the 8KB
of R305; RAM beyond them is a `mapperRam` page's (log entry 28). -/
def State.cellOf (s : State) (a : Word) : Option Nat :=
  match s.pageAt a with
  | .workRam => some (a.toNat % 2048)
  | .cartRam base => some (cartRamKey + (base + a.toNat % 2048) % 0x2000)
  | .prgRom base => some (prgKey + (base + a.toNat % 2048) % s.cart.prgBytes)
  | .mapperRam _ | .ppuRegs | .io | .unmapped | .mapperRegs => none

/-- The byte of the mapper variant's own RAM behind address `a`, if the page is one it claims for RAM (R78). -/
def State.ramCellOf (s : State) (a : Word) : Option Nat :=
  match s.pageAt a with
  | .mapperRam base => some (base + a.toNat % 2048)
  | .workRam | .cartRam _ | .prgRom _ | .ppuRegs | .io | .unmapped | .mapperRegs => none

/-- `Fetch(addr)` (R64): the byte of the code buffer, which is the plain memory itself or the illegal fill
(R65). No side effect. -/
def State.fetch (s : State) (a : Word) : Byte :=
  match s.cellOf a, s.ramCellOf a with
  | some k, _ => Memory.read s.mem k
  | none, some k => s.mapperRam.byte k
  | none, none => s.params.unmappedFill

/-- The instruction at PC, its bytes fetched at ascending addresses modulo 2^16 (R103, R123, R131). -/
def State.instrAt (s : State) : Instr :=
  decode (s.fetch s.cpu.pc) (s.fetch (s.cpu.pc + 1)) (s.fetch (s.cpu.pc + 2))

/-- `MemRead(addr, 1)` (R62): the byte, and the state after the reader's side effects (R80). -/
def memRead (a : Word) (s : State) : Byte × State :=
  match s.pageAt a with
  | .workRam | .cartRam _ | .prgRom _ => (Memory.read s.mem ((s.cellOf a).getD 0), s)
  | .mapperRam _ => (s.mapperRam.byte ((s.ramCellOf a).getD 0), s)
  | .ppuRegs => ppuRegRead (a.toNat % 8) s
  | .io => ioRead a s
  | .unmapped | .mapperRegs => takeFree s

/-- Store a byte in a cell of the CPU-side memory. -/
def State.store (s : State) (k : Nat) (v : Byte) : State := { s with mem := Memory.write s.mem k v }

/-- Store a byte of the mapper variant's own RAM. -/
def State.storeRam (s : State) (k : Nat) (v : Byte) : State := { s with mapperRam := s.mapperRam.store k v }

/-- Copy `i` of OAM DMA: `oam[(oam_addr + i) mod 256] <- MemRead(base + i, 1)` (R317). -/
def oamCopy (base : Word) (i : Nat) (s : State) : State :=
  let r := memRead (base + BitVec.ofNat 16 i) s
  { r.2 with ppu := r.2.ppu.oamStore ((r.2.ppu.oamAddr.toNat + i) % 256) r.1 }

/-- The 256 copies of OAM DMA from `base`, `k` of them left (R317). -/
def oamDmaCopies (base : Word) : Nat → State → State
  | 0, s => s
  | k + 1, s => oamDmaCopies base k (oamCopy base (255 - k) s)

/-- A write of `v` to 0x4014: OAM DMA of the 256-byte page `v` (R317). -/
def oamDma (v : Byte) (s : State) : State :=
  (oamDmaCopies (word 0 v) 256 (syncDevices s.clk s)).addClk Config.oamDmaCycles

/-- A write in the I/O page (R304). -/
def ioWrite (a : Word) (d : Byte) (s : State) : State :=
  if a = 0x4014#16 then oamDma d s
  else if a = 0x4016#16 then writeStrobe d s
  else if 0x4000#16 ≤ a ∧ a ≤ 0x4017#16 then apuWrite a d s
  else s

/-- `MemWrite(addr, 1, v)` (R63): plain RAM stores, a device takes the byte, program ROM passes it to the mapper
(R78, R305), an unmapped page discards it (R67). -/
def memWrite (a : Word) (v : Byte) (s : State) : State :=
  match s.pageAt a with
  | .workRam | .cartRam _ => s.store ((s.cellOf a).getD 0) v
  | .mapperRam _ => s.storeRam ((s.ramCellOf a).getD 0) v
  | .ppuRegs => ppuRegWrite (a.toNat % 8) v s
  | .io => ioWrite a v s
  | .prgRom _ | .mapperRegs => mapperWrite a v s
  | .unmapped => s

/-- Two `MemRead`s, low byte first, as a word. -/
def readPair (l h : Word) (s : State) : Word × State :=
  let rl := memRead l s
  let rh := memRead h rl.2
  (word rl.1 rh.1, rh.2)

/-- `ReadWord(a)` (R72), for the vectors. -/
def readWord (a : Word) (s : State) : Word × State := readPair a (a + 1) s

/-- `(a & 0xFF00) | ((a + 1) & 0x00FF)`: the next address within the same 256-byte page (R73). -/
def nextInPage (a : Word) : Word := (a &&& 0xFF00#16) ||| ((a + 1) &&& 0x00FF#16)

/-- `ReadWordWrap(a)` (R73): the second byte comes from the same 256-byte page. -/
def readWordWrap (a : Word) (s : State) : Word × State := readPair a (nextInPage a) s

/-! ## The stack -/

/-- The address of a stack cell, `0x0100 + sp` (R75). -/
def stackAddr (sp : Byte) : Word := Config.stackPage + zeroExt sp

/-- `Push(v)` (R75): store, then decrement modulo 256 (R77). -/
def push (v : Byte) (s : State) : State :=
  let s1 := memWrite (stackAddr s.cpu.sp) v s
  s1.setSp (s1.cpu.sp - 1)

/-- A 16-bit value is pushed high byte first (R75, R69). -/
def pushWord (w : Word) (s : State) : State := push (lo w) (push (hi w) s)

/-- `Pull()` (R76): increment modulo 256, then read. -/
def pull (s : State) : Byte × State :=
  let s1 := s.setSp (s.cpu.sp + 1)
  memRead (stackAddr s1.cpu.sp) s1

/-- A 16-bit value is pulled low byte first (R76). -/
def pullWord (s : State) : Word × State :=
  let l := pull s
  let h := pull l.2
  (word l.1 h.1, h.2)

/-! ## The status byte (R33 to R35) -/

/-- `PackP(b)` (R35): `{N, V, 1, b, D, I, Z, C}`. -/
def packP (p : Status) (b : Bool) : Byte :=
  (if p.n then 0x80#8 else 0#8) ||| (if p.v then 0x40#8 else 0#8) ||| 0x20#8
    ||| (if b then 0x10#8 else 0#8) ||| (if p.d then 0x08#8 else 0#8) ||| (if p.i then 0x04#8 else 0#8)
    ||| (if p.z then 0x02#8 else 0#8) ||| (if p.c then 0x01#8 else 0#8)

/-- `UnpackP(v)` (R35): bits 5 and 4 are ignored. -/
def unpackP (v : Byte) : Status :=
  { n := v.getLsbD 7, v := v.getLsbD 6, d := v.getLsbD 3, i := v.getLsbD 2, z := v.getLsbD 1,
    c := v.getLsbD 0 }

/-! ## Ending a run (R221 to R225) -/

/-- `raise Stop(reason)`: the `run` call in progress ends (R11, R221). -/
def State.stop (s : State) (r : StopReason) : State := { s with endCycle := none, lastStop := some r }

/-- After an instruction that wrote the interrupt-disable flag, `oldI` being its value before: a change from 1 to
0, and only that, ends the run (R224, D12). -/
def stopIfICleared (oldI : Bool) (s : State) : State :=
  if oldI && !s.cpu.p.i then s.stop .iCleared else s

/-! ## Interrupts (R188, R189, R236) -/

/-- Taking an interrupt, shared by NMI, IRQ and BRK (R189, R236): push the return address and the status byte with
break bit `b`, set I, load PC from the vector. D is not changed. -/
def takeInterrupt (ret : Word) (b : Bool) (vector : Word) (s : State) : State :=
  let s1 := pushWord ret s
  let s2 := push (packP s1.cpu.p b) s1
  let r := readWord vector (s2.setP { s2.cpu.p with i := true })
  r.2.setPc r.1

/-- `InterruptEntry(vector)` (R236): the return address is PC, the break bit 0, the cost `INT_CYCLES`. -/
def interruptEntry (vector : Word) (s : State) : State :=
  (takeInterrupt s.cpu.pc false vector s).addClk Config.intCycles

/-- The return from an interrupt (R188): the status byte, then PC, with no 1 added; a clearing of I ends the run. -/
def returnFromInterrupt (s : State) : State :=
  let f := pull s
  let r := pullWord (f.2.setP (unpackP f.1))
  stopIfICleared s.cpu.p.i (r.2.setPc r.1)

/-! ## The instruction step (R124) -/

/-- What every instruction does first (R124, R130): PC moves past its bytes and `CYCLES[op]` is added to `clk`,
before any data access, so that each carries the time after it (R81; DESIGN CHOICE, log entry 18, safe). -/
def issue (i : Instr) (s : State) : State :=
  (s.setPc (s.cpu.pc + BitVec.ofNat 16 i.length)).addClk (baseCycles i.opcode)

end Sys2Proof.Machine
end

