-- ==== Sys2Proof/Machine/Bus.lean ====
section
/-! DEFINITION. The Bus Controller (R300 to R316): the passes of the frame loop between instructions, the deadline
it gives `run`, interrupt vectoring, the end of a frame and the re-basing of the clocks. -/

namespace Sys2Proof.Machine

/-- The numeric codes of the stop reasons (D32), seen by the Bus Controller only (R221). -/
def StopReason.code : StopReason → Nat
  | .cycles => 0
  | .iCleared => 1
  | .illegal _ => 2

/-- `emulate_frame(joypad1_bits, joypad2_bits)` begins: the host's bits, free for each call, are latched (R308, R318,
R320). -/
def beginFrame (s : State) : State :=
  let bits := Config.joypadBits s.frames
  { s with
    inFrame := true, frames := s.frames + 1
    pads := { s.pads with bits1 := bits.1, bits2 := bits.2 } }

/-- The top of the loop (R308, R263 b): the PPU is brought up to the boundary, and the vertical-blank event applied if
its time has come. -/
def syncBoundary (s : State) : State :=
  let s1 := catchUp s.clk s
  if !s1.ppu.vblDone && s1.ppu.vblTime ≤ s1.clk then vblEvent s1 else s1

/-- A time is due: it is not `never` and not later than the present. -/
def due (t : Option Nat) (now : Nat) : Bool :=
  match t with
  | none => false
  | some t => decide (t ≤ now)

/-- A stop time lowered to a time, if there is one. -/
def lowered (e : Nat) : Option Nat → Nat
  | none => e
  | some t => min e t

/-- The deadline of the next `run` (R309): the earliest of the frame end, `T_vbl` while this frame's event is ahead,
`irq_time` when I is 0, the debug boundary. -/
def deadline (s : State) : Nat :=
  lowered (lowered (lowered s.ppu.frameLen (if s.ppu.vblDone then none else some s.ppu.vblTime))
    (if s.cpu.p.i then none else s.irqTime)) (s.params.stepBoundary.map (s.clk + ·))

/-- A time re-based by a frame's length (R307): one that was already due stays due (DESIGN CHOICE, log entry 17,
safe). -/
def rebase (len : Nat) (t : Option Nat) : Option Nat := t.map (· - len)

/-- `end_frame(length)` of the audio chip, brought up to `length` (R319), and its answer re-based (R307). -/
def Audio.endFrame (len : Nat) (p : Audio) : Audio :=
  if p.variant = 0 then { p with irq := rebase len p.irq }
  else p.withRegs (Config.apuEndFrame p.variant (p.runUntil len).regs len)

/-- The end of a frame (R314, R307): PPU, mapper and audio chip finish, the mapper's timers first brought up to the frame's
length on the old frame's dots (R295), the clocks are re-based, and `emulate_frame` returns the frame's length. -/
def endFrame (s : State) : State :=
  let p := s.ppu.finishFrame
  let len := p.frameLen
  let s1 := mapperEndFrame len { mapperRunUntil len { s with ppu := p } with ppu := p.endFrame }
  { s1 with
    clk := s1.clk - len
    nmiTime := rebase len s1.nmiTime, irqTime := rebase len s1.irqTime, apu := s1.apu.endFrame len
    inFrame := false, frameResult := some len }

/-- NMI vectoring (R311): one setting of `nmi_time` gives one interrupt (R234). -/
def vectorNmi (s : State) : State := interruptEntry Config.vecNmi { s with nmiTime := none }

/-- IRQ vectoring (R312): the source goes on asserting (R235). -/
def vectorIrq (s : State) : State := interruptEntry Config.vecIrq s

/-- `irq_time` recomputed (R235, R308): the mapper and the audio chip are observed at the present time (R306, R319). -/
def refreshIrq (s : State) : State :=
  let s1 := apuRunUntil s.clk (mapperRunUntil s.clk s)
  { s1 with irqTime := recomputedIrq s1.clk s1 }

/-- `run(deadline)` is called (R222, R308). -/
def openRun (s : State) : State := { s with endCycle := some (deadline s), lastStop := none }

/-- What an instruction boundary comes to: an event dealt with, or the next instruction due in the state given. -/
inductive Boundary where
  | handled (s : State)
  | run (s : State)

/-- `run` looks at its stop time before every instruction, the first included (R222): at or past it, it returns
`StopCycles`. -/
def checkStopTime (s : State) : Boundary :=
  match s.endCycle with
  | some e => if e ≤ s.clk then .handled (s.stop .cycles) else .run s
  | none => .handled s

/-- Where a pass of the frame loop starts (R308): `run`, if one was in progress, has returned `StopCycles`, a frame is in
progress (outside one a frame begins, R326; DESIGN CHOICE, log entry 4, safe), and the PPU is up to the boundary. -/
def passStart (s : State) : State :=
  let s1 := if s.endCycle = none then s else s.stop .cycles
  syncBoundary (if s1.inFrame then s1 else beginFrame s1)

/-- One pass of the frame loop (R308), the tests in the order of R237: the end of the frame, NMI, IRQ when I is 0,
else `run`. -/
def controllerPass (s : State) : Boundary :=
  let s1 := passStart s
  if s1.ppu.frameLen ≤ s1.clk then .handled (endFrame s1)
  else if due s1.nmiTime s1.clk then .handled (vectorNmi s1)
  else
    let s2 := refreshIrq s1
    if !s2.cpu.p.i && due s2.irqTime s2.clk then .handled (vectorIrq s2)
    else checkStopTime (openRun s2)

/-- An instruction boundary (R222, R308, R310): inside a `run` whose stop time is still ahead the next instruction is
due; otherwise `run` has returned and the Bus Controller makes a pass. DESIGN CHOICE, log entry 3, safe. -/
def boundary (s : State) : Boundary :=
  match s.endCycle with
  | some e => if e ≤ s.clk then controllerPass s else .run s
  | none => controllerPass s

end Sys2Proof.Machine
end

