-- ==== Sys2Proof/Machine/Operands.lean ====
section
/-! DEFINITION. Operand resolution: the effective address of every memory mode (R107 to R117), and the shapes in
which an instruction uses its operand: read, store, read-modify-write, branch. -/

namespace Sys2Proof.Machine

/-- A resolved memory operand: its effective address, whether indexing crossed a 256-byte page (R117), and the state
after the pointer reads. -/
structure Target where
  ea : Word
  crossed : Bool
  state : State

/-- Two addresses are in different 256-byte pages: their high bytes differ (R117). -/
def pageDiffers (a b : Word) : Bool := hi a != hi b

/-- `ea <- (base + index) mod 2^16`, with the crossing test against `base` (R111, R112, R115). -/
def indexed (base : Word) (index : Byte) (s : State) : Target :=
  let ea := base + zeroExt index
  { ea := ea, crossed := pageDiffers base ea, state := s }

/-- A target whose mode has no crossing (R107 to R110, R114). -/
def direct (ea : Word) (s : State) : Target := { ea := ea, crossed := false, state := s }

/-- The mode rules R107 to R112, R114, R115. -/
def resolve (m : Addressing) (s : State) : Target :=
  match m with
  | .zp d => direct (zeroExt d) s
  | .zpx d => direct (zeroExt (d + s.cpu.x)) s
  | .zpy d => direct (zeroExt (d + s.cpu.y)) s
  | .abs a => direct a s
  | .abx a => indexed a s.cpu.x s
  | .aby a => indexed a s.cpu.y s
  | .izx d =>
    let p := readWordWrap (zeroExt (d + s.cpu.x)) s
    direct p.1 p.2
  | .izy d =>
    let p := readWordWrap (zeroExt d) s
    indexed p.1 p.2.cpu.y p.2

/-- The indexed page-crossing cycle of the read class (R118). -/
def Target.charged (t : Target) : State := if t.crossed then t.state.addClk 1 else t.state

/-- The operand of a read-class instruction: the immediate byte (R106), or the byte at the effective address, the
page-crossing cycle charged before the read (R118, R124). -/
def readSource (o : Source) (s : State) : Byte × State :=
  match o with
  | .imm d => (d, s)
  | .mem m =>
    let t := resolve m s
    memRead t.ea t.charged

/-- Run `f` on the operand byte. -/
def withSource (o : Source) (f : Byte → State → State) (s : State) : State :=
  let r := readSource o s
  f r.1 r.2

/-- Store a byte at a memory operand: no read of the destination (R82), no page-crossing cycle (R118). -/
def storeAt (m : Addressing) (v : Byte) (s : State) : State :=
  let t := resolve m s
  memWrite t.ea v t.state

end Sys2Proof.Machine
end

