-- ==== Sys2Proof/Machine/Flags.lean ====
section
/-! DEFINITION. The flag computations (R33, R160 to R162, R172, R178 to R182) and the read-modify-write and branch
shapes that use them. -/

namespace Sys2Proof.Machine

/-- `P.Z` and `P.N` from an 8-bit value (R33). -/
def Status.withNZ (p : Status) (v : Byte) : Status := { p with z := v == 0#8, n := v.getLsbD 7 }

/-- `SetNZ(v)` (R33). -/
def setNZ (v : Byte) (s : State) : State := s.setP (s.cpu.p.withNZ v)

/-- `P.C <- b` -/
def setC (b : Bool) (s : State) : State := s.setP { s.cpu.p with c := b }

/-- An addition with carry, exact: `A + M + C`, an integer 0 to 511 (R160). -/
def sumWithCarry (a m : Byte) (c : Bool) : Nat := a.toNat + m.toNat + c.toNat

/-- The overflow rule (R160): `((A ^ sum) & (M ^ sum) & 0x80) != 0`. -/
def addOverflow (a m : Byte) (c : Bool) : Bool :=
  let r := BitVec.ofNat 8 (sumWithCarry a m c)
  ((a ^^^ r) &&& (m ^^^ r)).getLsbD 7

/-- The effect of ADC on A and the flags (R160); D is not read (R171). -/
def addToA (m : Byte) (s : State) : State :=
  let a := s.cpu.a
  let sum := sumWithCarry a m s.cpu.p.c
  let r := BitVec.ofNat 8 sum
  setNZ r ((s.setA r).setP { s.cpu.p with c := decide (0xFF < sum), v := addOverflow a m s.cpu.p.c })

/-- The effect of SBC: ADC of the complemented operand (R161). -/
def subtractFromA (m : Byte) (s : State) : State := addToA (m ^^^ 0xFF#8) s

/-- The flags of a compare of register value `r` with `m` (R162 to R164, R172). -/
def compareWith (r m : Byte) (s : State) : State := setNZ (r - m) (setC (decide (m.toNat ≤ r.toNat)) s)

/-- The flags of BIT (R178): Z from `A & M`, N and V from M. -/
def bitTest (m : Byte) (s : State) : State :=
  s.setP { s.cpu.p with z := (s.cpu.a &&& m) == 0#8, n := m.getLsbD 7, v := m.getLsbD 6 }

/-- What a read-modify-write instruction makes of its operand: the new byte and the new carry, given the old byte and
the old carry. -/
abbrev Modifier := Byte → Bool → Byte × Bool

/-- ASL (R179). -/
def shiftLeft : Modifier := fun v _ => (v <<< 1, v.getLsbD 7)

/-- LSR (R180). -/
def shiftRight : Modifier := fun v _ => (v >>> 1, v.getLsbD 0)

/-- ROL (R181). -/
def rotateLeft : Modifier := fun v c => ((v <<< 1) ||| (if c then 0x01#8 else 0#8), v.getLsbD 7)

/-- ROR (R182). -/
def rotateRight : Modifier := fun v c => ((v >>> 1) ||| (if c then 0x80#8 else 0#8), v.getLsbD 0)

/-- INC: the carry stays (R165). -/
def increment : Modifier := fun v c => (v + 1, c)

/-- DEC: the carry stays (R168). -/
def decrement : Modifier := fun v c => (v - 1, c)

/-- One read and one write at the effective address, C and then the write and then Z and N (R82, R165, R168, R179 to
R182); no page-crossing cycle (R118). -/
def modifyMemory (m : Addressing) (f : Modifier) (s : State) : State :=
  let t := resolve m s
  let v := memRead t.ea t.state
  let r := f v.1 v.2.cpu.p.c
  setNZ r.1 (memWrite t.ea r.1 (setC r.2 v.2))

/-- The same on the accumulator (R105). -/
def modifyA (f : Modifier) (s : State) : State :=
  let r := f s.cpu.a s.cpu.p.c
  setNZ r.1 ((setC r.2 s).setA r.1)

/-- A shift or rotate of the accumulator or of memory. -/
def modifyShift (m : ShiftMode) (f : Modifier) (s : State) : State :=
  match m.addressing with
  | none => modifyA f s
  | some x => modifyMemory x f s

/-- A conditional branch, PC already at the following instruction (R116, R190): taken it costs one cycle more, and one
more again if the target is in another 256-byte page than the following instruction (R126). -/
def branchIf (taken : Bool) (rel8 : Byte) (s : State) : State :=
  if taken then
    let next := s.cpu.pc
    let target := next + signExt rel8
    (s.addClk (if pageDiffers next target then 2 else 1)).setPc target
  else s

end Sys2Proof.Machine
end

