-- ==== Sys2Proof/Machine/Arithmetic.lean ====
section
/-! DEFINITION. Arithmetic, compare, increment and decrement (R160 to R172). -/

namespace Sys2Proof.Machine

/-- ADC (R160). -/
def execAdc (m : AluMode) (s : State) : Result := .next (withSource m.source addToA (issue (.adc m) s))

/-- SBC (R161). -/
def execSbc (m : AluMode) (s : State) : Result :=
  .next (withSource m.source subtractFromA (issue (.sbc m) s))

/-- CMP (R162). -/
def execCmp (m : AluMode) (s : State) : Result :=
  .next (withSource m.source (compareWith s.cpu.a) (issue (.cmp m) s))

/-- CPX (R163). -/
def execCpx (m : CmpMode) (s : State) : Result :=
  .next (withSource m.source (compareWith s.cpu.x) (issue (.cpx m) s))

/-- CPY (R164). -/
def execCpy (m : CmpMode) (s : State) : Result :=
  .next (withSource m.source (compareWith s.cpu.y) (issue (.cpy m) s))

/-- INC (R165). -/
def execInc (m : RmwMode) (s : State) : Result :=
  .next (modifyMemory m.addressing increment (issue (.inc m) s))

/-- INX (R166). -/
def execInx (s : State) : Result :=
  .next (setNZ (s.cpu.x + 1) ((issue .inx s).setX (s.cpu.x + 1)))

/-- INY (R167). -/
def execIny (s : State) : Result :=
  .next (setNZ (s.cpu.y + 1) ((issue .iny s).setY (s.cpu.y + 1)))

/-- DEC (R168). -/
def execDec (m : RmwMode) (s : State) : Result :=
  .next (modifyMemory m.addressing decrement (issue (.dec m) s))

/-- DEX (R169). -/
def execDex (s : State) : Result :=
  .next (setNZ (s.cpu.x - 1) ((issue .dex s).setX (s.cpu.x - 1)))

/-- DEY (R170). -/
def execDey (s : State) : Result :=
  .next (setNZ (s.cpu.y - 1) ((issue .dey s).setY (s.cpu.y - 1)))

end Sys2Proof.Machine
end

