-- ==== Sys2Proof/Machine/Control.lean ====
section
/-! DEFINITION. Control transfer (R185 to R198). -/

namespace Sys2Proof.Machine

/-- JMP (R185): ABS goes to the operand, IND to the word the operand points to, its high byte taken from the same
256-byte page (R113). -/
def execJmp (m : JmpMode) (s : State) : Result :=
  match m with
  | .abs a => .next ((issue (.jmp m) s).setPc a)
  | .ind a =>
    let r := readWordWrap a (issue (.jmp m) s)
    .next (r.2.setPc r.1)

/-- JSR (R186): the pushed word is the address of the instruction's last byte. -/
def execJsr (a16 : Word) (s : State) : Result :=
  let s1 := issue (.jsr a16) s
  .next ((pushWord (s1.cpu.pc - 1) s1).setPc a16)

/-- RTS (R187): the pulled word plus 1. -/
def execRts (s : State) : Result :=
  let r := pullWord (issue .rts s)
  .next (r.2.setPc (r.1 + 1))

/-- RTI (R188). -/
def execRti (s : State) : Result := .next (returnFromInterrupt (issue .rti s))

/-- BRK (R189): the return address is the byte after next, the break bit 1; `run` goes on. -/
def execBrk (s : State) : Result :=
  let s1 := issue .brk s
  .next (takeInterrupt (s1.cpu.pc + 1) true Config.vecIrq s1)

/-- BCC (R191). -/
def execBcc (rel8 : Byte) (s : State) : Result := .next (branchIf (!s.cpu.p.c) rel8 (issue (.bcc rel8) s))

/-- BCS (R192). -/
def execBcs (rel8 : Byte) (s : State) : Result := .next (branchIf s.cpu.p.c rel8 (issue (.bcs rel8) s))

/-- BEQ (R193). -/
def execBeq (rel8 : Byte) (s : State) : Result := .next (branchIf s.cpu.p.z rel8 (issue (.beq rel8) s))

/-- BNE (R194). -/
def execBne (rel8 : Byte) (s : State) : Result := .next (branchIf (!s.cpu.p.z) rel8 (issue (.bne rel8) s))

/-- BMI (R195). -/
def execBmi (rel8 : Byte) (s : State) : Result := .next (branchIf s.cpu.p.n rel8 (issue (.bmi rel8) s))

/-- BPL (R196). -/
def execBpl (rel8 : Byte) (s : State) : Result := .next (branchIf (!s.cpu.p.n) rel8 (issue (.bpl rel8) s))

/-- BVC (R197). -/
def execBvc (rel8 : Byte) (s : State) : Result := .next (branchIf (!s.cpu.p.v) rel8 (issue (.bvc rel8) s))

/-- BVS (R198). -/
def execBvs (rel8 : Byte) (s : State) : Result := .next (branchIf s.cpu.p.v rel8 (issue (.bvs rel8) s))

end Sys2Proof.Machine
end

