-- ==== Sys2Proof/Machine/FlagsNop.lean ====
section
/-! DEFINITION. The flag instructions, NOP, and the illegal opcode (R200 to R208). -/

namespace Sys2Proof.Machine

/-- CLC (R200). -/
def execClc (s : State) : Result := .next ((issue .clc s).setP { s.cpu.p with c := false })

/-- SEC (R201). -/
def execSec (s : State) : Result := .next ((issue .sec s).setP { s.cpu.p with c := true })

/-- CLI (R202): a clearing of I ends the run. -/
def execCli (s : State) : Result :=
  .next (stopIfICleared s.cpu.p.i ((issue .cli s).setP { s.cpu.p with i := false }))

/-- SEI (R203): no stop. -/
def execSei (s : State) : Result := .next ((issue .sei s).setP { s.cpu.p with i := true })

/-- CLV (R204). -/
def execClv (s : State) : Result := .next ((issue .clv s).setP { s.cpu.p with v := false })

/-- CLD (R205). -/
def execCld (s : State) : Result := .next ((issue .cld s).setP { s.cpu.p with d := false })

/-- SED (R206). -/
def execSed (s : State) : Result := .next ((issue .sed s).setP { s.cpu.p with d := true })

/-- NOP (R207). -/
def execNop (s : State) : Result := .next (issue .nop s)

/-- The Bus Controller's half of the illegal-opcode step (R208, R313): count, skip one byte, charge two cycles. -/
def recordIllegal (s : State) : State :=
  (({ s with errorCount := s.errorCount + 1 }).setPc (s.cpu.pc + Config.illegalSkip)).addClk
    Config.illegalCycles

/-- ILL (R208): `run` returns `StopIllegal`, the opcode value recorded for the Bus Controller (R11), with nothing else changed,
and the Bus Controller's half follows at once: one atomic step (D2). Which of the 105 values it is makes no difference to
that half. -/
def execIll (op : Byte) (s : State) : Result := .next (recordIllegal (s.stop (.illegal op)))

end Sys2Proof.Machine
end

