-- ==== Sys2Proof/Machine/LoadStore.lean ====
section
/-! DEFINITION. Loads and stores (R140 to R145). -/

namespace Sys2Proof.Machine

/-- LDA (R140). -/
def execLda (m : AluMode) (s : State) : Result :=
  .next (withSource m.source (fun v t => setNZ v (t.setA v)) (issue (.lda m) s))

/-- LDX (R141). -/
def execLdx (m : LdxMode) (s : State) : Result :=
  .next (withSource m.source (fun v t => setNZ v (t.setX v)) (issue (.ldx m) s))

/-- LDY (R142). -/
def execLdy (m : LdyMode) (s : State) : Result :=
  .next (withSource m.source (fun v t => setNZ v (t.setY v)) (issue (.ldy m) s))

/-- STA (R143). -/
def execSta (m : StaMode) (s : State) : Result :=
  .next (storeAt m.addressing s.cpu.a (issue (.sta m) s))

/-- STX (R144). -/
def execStx (m : StxMode) (s : State) : Result :=
  .next (storeAt m.addressing s.cpu.x (issue (.stx m) s))

/-- STY (R145). -/
def execSty (m : StyMode) (s : State) : Result :=
  .next (storeAt m.addressing s.cpu.y (issue (.sty m) s))

end Sys2Proof.Machine
end

