-- ==== Sys2Proof/Machine/LogicShift.lean ====
section
/-! DEFINITION. Logic, bit test, shifts and rotates (R175 to R182). -/

namespace Sys2Proof.Machine

/-- AND (R175). -/
def execAnd (m : AluMode) (s : State) : Result :=
  .next (withSource m.source (fun v t => setNZ (t.cpu.a &&& v) (t.setA (t.cpu.a &&& v))) (issue (.and m) s))

/-- ORA (R176). -/
def execOra (m : AluMode) (s : State) : Result :=
  .next (withSource m.source (fun v t => setNZ (t.cpu.a ||| v) (t.setA (t.cpu.a ||| v))) (issue (.ora m) s))

/-- EOR (R177). -/
def execEor (m : AluMode) (s : State) : Result :=
  .next (withSource m.source (fun v t => setNZ (t.cpu.a ^^^ v) (t.setA (t.cpu.a ^^^ v))) (issue (.eor m) s))

/-- BIT (R178). -/
def execBit (m : BitMode) (s : State) : Result :=
  .next (withSource (.mem m.addressing) bitTest (issue (.bit m) s))

/-- ASL (R179). -/
def execAsl (m : ShiftMode) (s : State) : Result := .next (modifyShift m shiftLeft (issue (.asl m) s))

/-- LSR (R180). -/
def execLsr (m : ShiftMode) (s : State) : Result := .next (modifyShift m shiftRight (issue (.lsr m) s))

/-- ROL (R181). -/
def execRol (m : ShiftMode) (s : State) : Result := .next (modifyShift m rotateLeft (issue (.rol m) s))

/-- ROR (R182). -/
def execRor (m : ShiftMode) (s : State) : Result := .next (modifyShift m rotateRight (issue (.ror m) s))

end Sys2Proof.Machine
end

