-- ==== Sys2Proof/Machine/TransferStack.lean ====
section
/-! DEFINITION. Register transfers and the stack instructions (R150 to R159). -/

namespace Sys2Proof.Machine

/-- TAX (R150). -/
def execTax (s : State) : Result := .next (setNZ s.cpu.a ((issue .tax s).setX s.cpu.a))

/-- TAY (R151). -/
def execTay (s : State) : Result := .next (setNZ s.cpu.a ((issue .tay s).setY s.cpu.a))

/-- TXA (R152). -/
def execTxa (s : State) : Result := .next (setNZ s.cpu.x ((issue .txa s).setA s.cpu.x))

/-- TYA (R153). -/
def execTya (s : State) : Result := .next (setNZ s.cpu.y ((issue .tya s).setA s.cpu.y))

/-- TSX (R154). -/
def execTsx (s : State) : Result := .next (setNZ s.cpu.sp ((issue .tsx s).setX s.cpu.sp))

/-- TXS (R155): no flag. -/
def execTxs (s : State) : Result := .next ((issue .txs s).setSp s.cpu.x)

/-- PHA (R156). -/
def execPha (s : State) : Result := .next (push s.cpu.a (issue .pha s))

/-- PHP (R157): bits 5 and 4 of the pushed byte are 1. -/
def execPhp (s : State) : Result := .next (push (packP s.cpu.p true) (issue .php s))

/-- PLA (R158). -/
def execPla (s : State) : Result :=
  let r := pull (issue .pla s)
  .next (setNZ r.1 (r.2.setA r.1))

/-- PLP (R159): a clearing of I ends the run. -/
def execPlp (s : State) : Result :=
  let r := pull (issue .plp s)
  .next (stopIfICleared s.cpu.p.i (r.2.setP (unpackP r.1)))

end Sys2Proof.Machine
end

