-- ==== Sys2Proof/Machine/Load.lean ====
section
/-! DEFINITION. Placing an instruction where the next step fetches it, for checks from outside: the bytes go into the
plain memory behind PC, as the loader would lay them. DESIGN CHOICE, log entry 23, safe. -/

namespace Sys2Proof.Machine

/-- The cells behind the three bytes at PC, when all are plain memory and no two the same. -/
def fetchCells (s : State) : Option (Nat × Nat × Nat) :=
  match s.cellOf s.cpu.pc, s.cellOf (s.cpu.pc + 1), s.cellOf (s.cpu.pc + 2) with
  | some a, some b, some c => if a ≠ b ∧ b ≠ c ∧ a ≠ c then some (a, b, c) else none
  | _, _, _ => none

/-- Move PC to 0x0000, which is work RAM in every state with the page table installed, when the bytes at PC are not
plain memory (a device page has no instruction to place). -/
def withPlainPc (s : State) : State :=
  match fetchCells s with
  | some _ => s
  | none => s.setPc 0x0000#16

/-- Open a `run` with an instruction due, when the boundary would deal with an event first (an interrupt, the end of
the frame) and not execute an instruction. -/
def withRunOpen (s : State) : State :=
  match boundary s with
  | .run _ => s
  | .handled _ => { s with inFrame := true, endCycle := some (s.clk + 1) }

/-- `s` with the table word `w` of `nbits` bits (bits above are 0) stored at PC as bytes at ascending addresses, ready
to be the next instruction. -/
def loadForNextStep (s : State) (nbits w : Nat) : State :=
  let s1 := withPlainPc s
  match fetchCells s1 with
  | some (a, b, c) =>
    withRunOpen (((s1.store a (tableByte nbits w 0)).store b (tableByte nbits w 1)).store c (tableByte nbits w 2))
  | none => withRunOpen s1

end Sys2Proof.Machine
end

