-- ==== Sys2Proof/Machine/Step.lean ====
section
/-! DEFINITION. One step: an instruction boundary, and the instruction that starts there unless the boundary was an
event of its own (the end of a frame, an interrupt). -/

namespace Sys2Proof.Machine

/-- One step (R222, R308): at the boundary either the Bus Controller handles an event, which is the step, or the
instruction at PC executes. -/
def step (s : State) : Host.Outcome State Fault Refusal :=
  match boundary s with
  | .handled t => .next t
  | .run t => exec t.instrAt t

/-- The state with the instruction whose bits are `w` stored where the next step fetches: see `loadForNextStep`. -/
def State.withFetchWord (s : State) (nbits w : Nat) : State := loadForNextStep s nbits w

end Sys2Proof.Machine
end

