-- ==== Sys2Proof/Machine/HostCalls.lean ====
section
/-! DEFINITION. What the host can do between frames (R320 to R327): load a cartridge, `reset` (R340 to R350), name a
pixel buffer, look a colour up, read the error counter, restore a battery file or a snapshot. These are functions on the state,
not steps of the machine. DESIGN CHOICE, log entry 22, safe. -/

namespace Sys2Proof.Machine

/-- The PPU after a reset (R347, R344): latches and timing 0 on both kinds; on a full one the palette, OAM, nametable
and character RAM become unspecified again; the character buffer is the cartridge's, or 8KB of RAM when that is
empty (R277). `index` is a full reset's own, which chooses those contents. The host's buffer is not the PPU's to
reset. -/
def Ppu.afterReset (p : Ppu) (full : Bool) (index : Nat) (c : Cartridge) : Ppu :=
  let ramChr := c.chrBytes == 0
  { ctrl := 0, mask := 0, vbl := false, spr0hit := false, sprovf := false, v := 0, t := 0, fx := 0
    w := false, oamAddr := 0, rdbuf := 0, iolatch := 0
    palette := if full then [] else p.palette
    oam := if full then [] else p.oam
    nt := if full then [] else p.nt
    chr := if full && ramChr then [] else p.chr
    chrBytes := if ramChr then Config.characterRamBytes else c.chrBytes
    chrWritable := ramChr
    chrPage := p.chrPage, ntMap := p.ntMap
    ppuClk := 0, phase := 0, oddFrame := false, vblDone := false, renderedUntil := 0
    shortened := false, spr0Dot := none
    powerUps := if full then index else p.powerUps
    cartPowerUps := if full then index else p.cartPowerUps
    video := p.video }

/-- The CPU registers after a reset, PC apart (R343): a soft reset keeps A, X, Y and the flags but I, and moves SP by
three without a stack write. -/
def Cpu.afterReset (c : Cpu) (full : Bool) : Cpu :=
  if full then
    { a := 0, x := 0, y := 0, sp := 0xFD#8, pc := c.pc
      p := { n := false, v := false, d := false, i := true, z := false, c := false } }
  else { c with sp := c.sp - 3, p := { c.p with i := true } }

/-- The CPU-side memory after a reset (R345, R349): a full one gives every cell of work RAM its `RAM_POWERUP`, `erase` clears
battery-backed cartridge RAM to `PERSISTENT_ERASE`; program memory is never touched. -/
def memAfterReset (full erase battery : Bool) (p : Params) (m : Memory) : Memory :=
  let m1 := m.forget (fun k => erase && battery && cartRamKey ≤ k && k < prgKey)
  if full then Memory.load 0 (p.ramPowerUp.take 0x800) (m1.forget (fun k => k < 0x800)) else m1

/-- A mapper variant's own RAM after a reset (R342, R349): cleared to `PERSISTENT_ERASE` where `erase` is asked for and it is persistent,
else as it was. -/
def MapperRam.afterReset (erased : Bool) (m : MapperRam) : MapperRam := if erased then MapperRam.erased else m

/-- `reset(full_reset, erase_persistent_ram)` in the order of R342: memory, PPU, mapper (which installs the pages), CPU
registers, counters, and PC from the reset vector last, so that it comes from the mapped program. -/
def hostReset (full erase : Bool) (s : State) : State :=
  let s1 := mapperReset { s with
    mem := memAfterReset full erase s.cart.battery s.params s.mem
    mapperRam := s.mapperRam.afterReset (erase && s.cart.battery && Config.mapperRamPersistent s.cart.mapperId)
    ppu := s.ppu.afterReset full (s.freeReads + 1) s.cart
    cpu := s.cpu.afterReset full
    clk := 0, endCycle := none, lastStop := none, errorCount := 0, nmiTime := none, irqTime := none
    pads := { bits1 := 0, bits2 := 0, pos1 := 0, pos2 := 0, strobe := false }
    inFrame := false
    freeReads := s.freeReads + 1 }
  let r := readWord Config.vecReset s1
  r.2.setPc r.1

/-- `n` bytes the spec leaves open, from the free value of index `first` on. -/
def freeBytes (first n : Nat) : List Byte := (List.range n).map (fun k => Config.freeByte (first + k))

/-- The loader puts a cartridge in the slot (R327): its description, its program bytes, its character bytes (empty
means character RAM, R277). The sizes are those of the buffers. Nothing of the RAM of the cartridge before this one survives: what
the memories on the new one hold before a program writes them is free. That is its cartridge RAM, until the host restores a
battery file (R349: "unspecified"; DESIGN CHOICE, log entry 7, safe); its character RAM and the nametable memory it supplies
beyond the PPU's own 2KB (R42; the spec gives no content at a load; DESIGN CHOICE, log entry 27, safe); the RAM its mapper
claims beyond 8KB (R78; DESIGN CHOICE, log entry 28, safe). `reset` is the host's next duty (R326). -/
def insertCartridge (c : Cartridge) (prg chr : List Byte) (s : State) : State :=
  let ram := freeBytes s.freeReads Config.cartRamBytes
  let index := s.freeReads + 1
  { s with
    cart := { c with prgBytes := prg.length, chrBytes := chr.length }
    mem := Memory.load prgKey prg (Memory.load cartRamKey ram (s.mem.forget (fun k => prgKey ≤ k)))
    ppu := s.ppu.afterLoad index chr
    mapperRam := MapperRam.unspecified index
    freeReads := s.freeReads + Config.cartRamBytes }

/-- The host restores a battery file into the RAM of the cartridge (R349); a reset that does not erase keeps it. That its bytes go
from 0x6000 up, those past 8KB into the mapper variant's own RAM from its byte 0 up, and that the cells past a short file's end
keep what they hold is the model's choice: DESIGN CHOICE, log entry 7, safe. -/
def restoreBattery (file : List Byte) (s : State) : State :=
  { s with
    mem := Memory.load cartRamKey (file.take Config.cartRamBytes) s.mem
    mapperRam := s.mapperRam.load (file.drop Config.cartRamBytes) }

/-- `set_pixel_buffer(pointer, row_stride)` (R322). -/
def setPixelBuffer (pointer stride : Nat) (s : State) : State :=
  { s with ppu := { s.ppu with video := { s.ppu.video with buffer := some (pointer, stride) } } }

/-- The palette-entry lookup for a pixel of a drawn row (R281, R324): the 6-bit colour of index `i` as it stood when the
row was drawn, ANDed with 0x30 in greyscale; `none` for a row not drawn yet. -/
def paletteLookup (s : State) (row i : Nat) : Option Byte :=
  (Assoc.find row s.ppu.video.rowColours).map (fun rc =>
    let colour := rc.palette.getD i 0
    if rc.grey then colour &&& 0x30#8 else colour)

/-- `error_count()` (R323). -/
def errorCountOf (s : State) : Nat := s.errorCount

/-- Restoring a snapshot (R52, R325): the saved state replaces the whole state, the error counter is cleared, and the
mapping is issued again. What is no state of the machine stays as it now is: the arguments it is built with, and the indices
that choose the inputs and open values still to come, so that the frames after a restore may have any joypad bits (R50,
R326). -/
def restoreSnapshot (saved now : State) : State :=
  applyMapping { saved with
    errorCount := 0, params := now.params, frames := now.frames, freeReads := now.freeReads }

end Sys2Proof.Machine
end

