-- ==== Sys2Proof/Safety.lean ====
section
/-! DEFINITION. The terms claims are stated in: the standing premise on the page table, the formulas of the spec for
effective addresses, lengths and costs written out per mode, and the state in which an instruction meets its operand. -/

namespace Sys2Proof

/-- A page of program ROM, whatever bank it shows. -/
def Page.isPrgRom : Page → Bool
  | .prgRom _ => true
  | _ => false

/-- `UNMAPPED_FILL` is outside `IMPLEMENTED`, as R7 asks of it. -/
def Params.legal (p : Params) : Prop := p.unmappedFill.toNat ∈ illegalOpcodes

/-! ## Lengths and costs per mode (R101, R125) -/

/-- The length of an instruction with a memory operand (R101). -/
def Addressing.bytes : Addressing → Nat
  | .zp _ | .zpx _ | .zpy _ | .izx _ | .izy _ => 2
  | .abs _ | .abx _ | .aby _ => 3

/-- The base cost of a read (R125): ZP 3; ZPX, ZPY 4; ABS 4; ABX, ABY 4; IZX 6; IZY 5. -/
def Addressing.readCycles : Addressing → Nat
  | .zp _ => 3
  | .zpx _ | .zpy _ | .abs _ | .abx _ | .aby _ => 4
  | .izx _ => 6
  | .izy _ => 5

/-- The length of a read-class instruction (R101). -/
def Source.bytes : Source → Nat
  | .imm _ => 2
  | .mem m => m.bytes

/-- Its base cost: 2 for an immediate operand (R125). -/
def Source.readCycles : Source → Nat
  | .imm _ => 2
  | .mem m => m.readCycles

/-- The cost of a store, fixed (R118, R125): as a read, but ABX, ABY 5 and IZY 6. -/
def Addressing.storeCycles : Addressing → Nat
  | .zp _ => 3
  | .zpx _ | .zpy _ | .abs _ => 4
  | .abx _ | .aby _ => 5
  | .izx _ | .izy _ => 6

/-- The cost of a read-modify-write, fixed (R118, R125): ZP 5; ZPX 6; ABS 6; ABX 7. -/
def Addressing.modifyCycles : Addressing → Nat
  | .zp _ => 5
  | .abx _ => 7
  | _ => 6

/-- The length of an instruction in bytes, from its operand form (R101, R102). -/
def Instr.bytes : Instr → Nat
  | .lda m | .adc m | .sbc m | .cmp m | .and m | .ora m | .eor m => m.source.bytes
  | .ldx m => m.source.bytes
  | .ldy m => m.source.bytes
  | .cpx m | .cpy m => m.source.bytes
  | .bit m => m.addressing.bytes
  | .sta m => m.addressing.bytes
  | .stx m => m.addressing.bytes
  | .sty m => m.addressing.bytes
  | .inc m | .dec m => m.addressing.bytes
  | .asl m | .lsr m | .rol m | .ror m => (m.addressing.map Addressing.bytes).getD 1
  | .jmp _ | .jsr _ => 3
  | .bcc _ | .bcs _ | .beq _ | .bne _ | .bmi _ | .bpl _ | .bvc _ | .bvs _ => 2
  | .tax | .tay | .txa | .tya | .tsx | .txs | .pha | .php | .pla | .plp => 1
  | .inx | .iny | .dex | .dey | .rts | .rti | .brk => 1
  | .clc | .sec | .cli | .sei | .clv | .cld | .sed | .nop | .ill _ => 1

/-- The base cost of an instruction, from its operand form and the rule of its mnemonic (R118, R140 to R208). -/
def Instr.cycles : Instr → Nat
  | .lda m | .adc m | .sbc m | .cmp m | .and m | .ora m | .eor m => m.source.readCycles
  | .ldx m => m.source.readCycles
  | .ldy m => m.source.readCycles
  | .cpx m | .cpy m => m.source.readCycles
  | .bit m => m.addressing.readCycles
  | .sta m => m.addressing.storeCycles
  | .stx m => m.addressing.storeCycles
  | .sty m => m.addressing.storeCycles
  | .inc m | .dec m => m.addressing.modifyCycles
  | .asl m | .lsr m | .rol m | .ror m => (m.addressing.map Addressing.modifyCycles).getD 2
  | .jmp (.abs _) => 3
  | .jmp (.ind _) => 5
  | .jsr _ | .rts | .rti => 6
  | .brk => 7
  | .bcc _ | .bcs _ | .beq _ | .bne _ | .bmi _ | .bpl _ | .bvc _ | .bvs _ => 2
  | .pha | .php => 3
  | .pla | .plp => 4
  | .tax | .tay | .txa | .tya | .tsx | .txs | .inx | .iny | .dex | .dey => 2
  | .clc | .sec | .cli | .sei | .clv | .cld | .sed | .nop | .ill _ => 2

/-! ## What each instruction may write (R21 to R32, and the rules of the instructions) -/

/-- The memory operand an instruction stores to: the stores and the read-modify-write forms. -/
def Instr.destination : Instr → Option Addressing
  | .sta m => some m.addressing
  | .stx m => some m.addressing
  | .sty m => some m.addressing
  | .inc m => some m.addressing
  | .dec m => some m.addressing
  | .asl m => m.addressing
  | .lsr m => m.addressing
  | .rol m => m.addressing
  | .ror m => m.addressing
  | _ => none

/-- How many bytes an instruction pushes: PHA and PHP one, JSR two, BRK three. -/
def Instr.pushes : Instr → Nat
  | .pha | .php => 1
  | .jsr _ => 2
  | .brk => 3
  | .lda _ | .ldx _ | .ldy _ | .sta _ | .stx _ | .sty _ | .tax | .tay | .txa | .tya | .tsx | .txs | .pla | .plp => 0
  | .adc _ | .sbc _ | .cmp _ | .cpx _ | .cpy _ | .inc _ | .inx | .iny | .dec _ | .dex | .dey => 0
  | .and _ | .ora _ | .eor _ | .bit _ | .asl _ | .lsr _ | .rol _ | .ror _ | .jmp _ | .rts | .rti => 0
  | .bcc _ | .bcs _ | .beq _ | .bne _ | .bmi _ | .bpl _ | .bvc _ | .bvs _ => 0
  | .clc | .sec | .cli | .sei | .clv | .cld | .sed | .nop | .ill _ => 0

/-- How many bytes an instruction pulls: PLA and PLP one, RTS two, RTI three. -/
def Instr.pulls : Instr → Nat
  | .pla | .plp => 1
  | .rts => 2
  | .rti => 3
  | _ => 0

/-- An illegal opcode (R121). -/
def Instr.mnemonicIsIll : Instr → Bool
  | .ill _ => true
  | _ => false

/-- The instructions that can end a `run` before its stop time (R224, R225): CLI, PLP, RTI and the illegal opcodes. -/
def Instr.canEndRun : Instr → Bool
  | .cli | .plp | .rti | .ill _ => true
  | _ => false

/-- "Written by" of A (R21). -/
def Instr.writesA : Instr → Bool
  | .lda _ | .adc _ | .sbc _ | .and _ | .ora _ | .eor _ | .pla | .txa | .tya => true
  | .asl m | .lsr m | .rol m | .ror m => m.addressing.isNone
  | _ => false

/-- "Written by" of X (R22). -/
def Instr.writesX : Instr → Bool
  | .ldx _ | .inx | .dex | .tax | .tsx => true
  | _ => false

/-- "Written by" of Y (R23). -/
def Instr.writesY : Instr → Bool
  | .ldy _ | .iny | .dey | .tay => true
  | _ => false

/-- The instructions that move SP (R24): the pushes, the pulls, TXS. -/
def Instr.writesSp (i : Instr) : Bool :=
  i.pushes != 0 || i.pulls != 0 || (match i with | .txs => true | _ => false)

/-- "Written by" of C (R28). -/
def Instr.writesC : Instr → Bool
  | .adc _ | .sbc _ | .cmp _ | .cpx _ | .cpy _ | .asl _ | .lsr _ | .rol _ | .ror _ | .clc | .sec | .plp | .rti => true
  | _ => false

/-- The instructions that write Z and N (R29, R32): those that call `SetNZ`, BIT, PLP, RTI. -/
def Instr.writesNZ : Instr → Bool
  | .lda _ | .ldx _ | .ldy _ | .tax | .tay | .txa | .tya | .tsx | .pla | .adc _ | .sbc _ | .cmp _ | .cpx _ | .cpy _ => true
  | .inc _ | .inx | .iny | .dec _ | .dex | .dey | .and _ | .ora _ | .eor _ | .bit _ => true
  | .asl _ | .lsr _ | .rol _ | .ror _ | .plp | .rti => true
  | _ => false

/-- "Written by" of I (R30), interrupt entry and reset apart. -/
def Instr.writesI : Instr → Bool
  | .sei | .cli | .plp | .rti | .brk => true
  | _ => false

/-- The instructions that load the D latch (R31). -/
def Instr.writesD : Instr → Bool
  | .sed | .cld | .plp | .rti => true
  | _ => false

/-- "Written by" of V (R32). -/
def Instr.writesV : Instr → Bool
  | .adc _ | .sbc _ | .bit _ | .clv | .plp | .rti => true
  | _ => false

end Sys2Proof

namespace Sys2Proof.Machine

/-! ## The page table as R301 installs it -/

/-- The installation of R301 and R78: 32 entries, pages 0 to 3 work RAM, 4 to 7 the PPU registers, 8 peripheral I/O, 16 to
31 program ROM. Pages 9 to 15 are the mapper's to claim. -/
structure PagesInstalled (s : State) : Prop where
  length : s.pageTable.length = 32
  ram : ∀ p, p < 4 → s.pageTable.getD p .unmapped = .workRam
  ppu : ∀ p, 4 ≤ p → p < 8 → s.pageTable.getD p .unmapped = .ppuRegs
  io : s.pageTable.getD 8 .unmapped = .io
  rom : ∀ p, 16 ≤ p → p < 32 → (s.pageTable.getD p .unmapped).isPrgRom = true

/-! ## Effective addresses (R107 to R117) -/

/-- Byte `a` of work RAM, whose mirrors reduce modulo 2048 (R302). -/
def ramByte (s : State) (a : Nat) : Byte := Memory.read s.mem (a % 2048)

/-- The pointer in the zero page at `d`, its second byte wrapping inside the zero page (R114, R115). -/
def pointerAt (s : State) (d : Byte) : Word := word (ramByte s d.toNat) (ramByte s (d + 1).toNat)

/-- `ea` of a memory mode (the table of `40_load_store.md`). -/
def effective (m : Addressing) (s : State) : Word :=
  match m with
  | .zp d => zeroExt d
  | .zpx d => zeroExt (d + s.cpu.x)
  | .zpy d => zeroExt (d + s.cpu.y)
  | .abs a => a
  | .abx a => a + zeroExt s.cpu.x
  | .aby a => a + zeroExt s.cpu.y
  | .izx d => pointerAt s (d + s.cpu.x)
  | .izy d => pointerAt s d + zeroExt s.cpu.y

/-- `crossed` (R111, R112, R115): the address before indexing and the one after differ in their high byte. -/
def crosses (m : Addressing) (s : State) : Bool :=
  match m with
  | .abx a => (a &&& 0xFF00#16) != (effective m s &&& 0xFF00#16)
  | .aby a => (a &&& 0xFF00#16) != (effective m s &&& 0xFF00#16)
  | .izy d => (pointerAt s d &&& 0xFF00#16) != (effective m s &&& 0xFF00#16)
  | _ => false

/-! ## The operand of an instruction -/

/-- The state in which an instruction does its own work: PC past its bytes, its whole cost on the clock (R81, R124,
R130). -/
def advanced (s : State) (bytes cycles : Nat) : State :=
  { s with cpu := { s.cpu with pc := s.cpu.pc + BitVec.ofNat 16 bytes }, clk := s.clk + cycles }

/-- The operand byte of a read-class instruction, and the state after reading it: the immediate byte, or one `MemRead` at
`ea`, the page-crossing cycle charged (R106, R118). -/
def operand (o : Source) (s : State) : Byte × State :=
  match o with
  | .imm d => (d, advanced s 2 2)
  | .mem m => memRead (effective m s) (advanced s m.bytes (m.readCycles + (crosses m s).toNat))

/-- The state after a store of `v` (R143 to R145): one `MemWrite` at `ea`. -/
def stored (m : Addressing) (v : Byte) (s : State) : State :=
  memWrite (effective m s) v (advanced s m.bytes m.storeCycles)

/-- The operand byte of a read-modify-write instruction, and the state after its one `MemRead`. -/
def modifyOperand (m : Addressing) (s : State) : Byte × State :=
  memRead (effective m s) (advanced s m.bytes m.modifyCycles)

/-- `SetNZ(v)` on the flags (R33): Z when the byte is zero, N its bit 7. -/
def Status.nz (p : Status) (v : Byte) : Status := { p with z := decide (v = 0#8), n := decide (128 ≤ v.toNat) }

/-- A state with the flags replaced. -/
def State.withFlags (s : State) (p : Status) : State := { s with cpu := { s.cpu with p := p } }

/-- The byte in the stack cell `SP + k` (R75, R76). -/
def stackByte (s : State) (k : Byte) : Byte := Memory.read s.mem (0x100 + (s.cpu.sp + k).toNat)

/-- The word a vector address holds, low byte first (R72, R236). -/
def vectorAt (s : State) (vector : Word) : Word := word (s.fetch vector) (s.fetch (vector + 1))

/-! ## Signed reading of a byte (R8) -/

/-- `sext_8(v)`: the byte as an integer from -128 to 127. -/
def sext8 (v : Byte) : Int := if v.toNat < 128 then v.toNat else (v.toNat : Int) - 256

/-- The state after a conditional branch (R190, R126): not taken 2 cycles; taken 3, or 4 when the target and the following
instruction are in different 256-byte pages. -/
def branched (taken : Bool) (rel8 : Byte) (s : State) : State :=
  let next := s.cpu.pc + 2
  let target := BitVec.ofInt 16 (next.toNat + sext8 rel8)
  if taken then
    { s with
      cpu := { s.cpu with pc := target }
      clk := s.clk + if (target &&& 0xFF00#16) = (next &&& 0xFF00#16) then 3 else 4 }
  else { s with cpu := { s.cpu with pc := next }, clk := s.clk + 2 }

end Sys2Proof.Machine
end

