-- ==== Sys2Proof/Certificates/Slice0/Obligations.lean ====
section
/-! DEFINITION. The statements about the machine, one `Prop` each, from the spec's numbered rules. -/

open Sys2Proof Sys2Proof.Machine

/-! ## Encoding -/

/-- Decoding the bytes of any well-formed instruction, whatever follows them, gives it back with exactly the bytes after it
(R100, R101, R119, R123). -/
def Obligations.DecodeOfEncode : Prop :=
  ∀ (i : Instr) (rest : List Byte), i.wellFormed = true → decodeBytes (encode i ++ rest) = .ok (i, rest)

/-- The other direction: any three bytes decode to a well-formed instruction whose encoding is a prefix of them, one to three
bytes long, and whose opcode byte is the first of them (R100, R122, R123). -/
def Obligations.EncodeOfDecode : Prop :=
  ∀ b0 b1 b2 : Byte,
    (decode b0 b1 b2).wellFormed = true ∧
    encode (decode b0 b1 b2) = [b0, b1, b2].take (decode b0 b1 b2).length ∧
    (decode b0 b1 b2).opcode = b0 ∧
    1 ≤ (decode b0 b1 b2).length ∧ (decode b0 b1 b2).length ≤ 3

/-- The illegal set (R121, R122): there are 105 values; a first byte decodes to the illegal instruction of its own value exactly
when it is one of them; that instruction is one byte long, whatever follows. -/
def Obligations.IllegalSet : Prop :=
  illegalOpcodes.length = 105 ∧
  (∀ op b1 b2 : Byte, (op.toNat ∈ illegalOpcodes ↔ decode op b1 b2 = .ill op)) ∧
  (∀ op : Byte, (Instr.ill op).length = 1)

/-- A few words written out from R119 and the rules of their instructions decode to the instruction they stand for. -/
def Obligations.SampleWords : Prop :=
  decode 0x4C#8 0x00#8 0x80#8 = .jmp (.abs 0x8000#16) ∧
  decode 0xBD#8 0xFF#8 0x10#8 = .lda (.abx 0x10FF#16) ∧
  decode 0x91#8 0xFF#8 0x00#8 = .sta (.izy 0xFF#8) ∧
  decode 0x69#8 0x50#8 0x00#8 = .adc (.imm 0x50#8) ∧
  decode 0x6C#8 0xFF#8 0x02#8 = .jmp (.ind 0x02FF#16) ∧
  decode 0xB0#8 0xFC#8 0x00#8 = .bcs 0xFC#8 ∧
  decode 0x2A#8 0x00#8 0x00#8 = .rol .acc ∧
  decode 0x96#8 0x10#8 0x00#8 = .stx (.zpy 0x10#8) ∧
  decode 0x58#8 0x00#8 0x00#8 = .cli ∧
  decode 0x02#8 0x00#8 0x00#8 = .ill 0x02#8

/-! ## A step runs the decoded instruction -/

/-- Inside a `run` whose stop time is ahead, a step is the execution of the instruction decoded from the three bytes fetched at
PC and the two addresses after it, modulo 2^16 (R103, R123, R124, R131, R222). -/
def Obligations.StepRunsDecodedInstruction : Prop :=
  ∀ (s : State) (e : Nat), s.endCycle = some e → s.clk < e →
    step s = exec (decode (s.fetch s.cpu.pc) (s.fetch (s.cpu.pc + 1)) (s.fetch (s.cpu.pc + 2))) s

/-- Where the boundary leaves an instruction to run, the Bus Controller's pass has changed no CPU register, no CPU-side memory,
no page, no count, no argument of the machine (held in the state by the model's choice, log entry 6) and not the clock, and the
step is the execution of the instruction that stood at PC before it (R222: stopping and resuming `run` is invisible; R308). -/
def Obligations.BoundaryIsTransparent : Prop :=
  ∀ s t : State, boundary s = .run t →
    t.cpu = s.cpu ∧ t.mem = s.mem ∧ t.mapperRam = s.mapperRam ∧ t.clk = s.clk ∧ t.pageTable = s.pageTable ∧
    t.errorCount = s.errorCount ∧
    t.cart = s.cart ∧ t.params = s.params ∧ t.endCycle ≠ none ∧ step s = exec s.instrAt t

/-- What an instruction boundary comes to, in both directions and in the order of R237: inside a `run` whose stop time is ahead
the next instruction is due; otherwise the Bus Controller's pass, from `passStart s` (a frame in progress, the PPU up to the
boundary), ends the frame once its length is reached; else takes an NMI that is due, whatever I holds; else, `irq_time`
recomputed, takes an IRQ that is due with I clear; else opens a `run` (R222, R234, R235, R237, R238, R308). Two points are the
model's choice: that a boundary outside a frame begins the next one, with free joypad bits (log entry 4, DESIGN CHOICE), and, the
last clause, that the debug boundary is a distance from the present, so that a `run` opened has its first instruction due unless
that distance is 0, when it returns at once (log entry 26, DEDUCED). -/
def Obligations.BoundaryEvents : Prop :=
  ∀ s : State,
    (∀ e, s.endCycle = some e → s.clk < e → boundary s = .run s) ∧
    ((∀ e, s.endCycle = some e → e ≤ s.clk) →
      let u := passStart s
      let w := refreshIrq u
      u.cpu = s.cpu ∧ u.mem = s.mem ∧ u.mapperRam = s.mapperRam ∧ u.clk = s.clk ∧
      w.cpu = s.cpu ∧ w.clk = s.clk ∧ w.irqTime = earlier (mapperNextIrq s.clk w) w.apu.irq ∧
      (u.ppu.frameLen ≤ s.clk → boundary s = .handled (endFrame u)) ∧
      (s.clk < u.ppu.frameLen →
        (due u.nmiTime s.clk = true → boundary s = .handled (vectorNmi u)) ∧
        (due u.nmiTime s.clk = false →
          (s.cpu.p.i = false ∧ due w.irqTime s.clk = true → boundary s = .handled (vectorIrq w)) ∧
          (s.cpu.p.i = true ∨ due w.irqTime s.clk = false →
            boundary s = if s.params.stepBoundary = some 0 then .handled ((openRun w).stop .cycles) else .run (openRun w)))))

/-- The machine has no fault and no refusal: every step answers a next state, whatever the state (R220, R230). -/
def Obligations.StepAlwaysAnswers : Prop := ∀ s : State, ∃ t : State, step s = .next t

/-! ## Memory -/

/-- Agreement of the two paths (R65, R64): for a page of plain memory a data read gives the byte a fetch gives and has no side
effect; for any other page a fetch gives the illegal fill, which decodes to an illegal opcode. The fill is an argument of the
machine that R7 wants outside the implemented set (`Params.legal`; log entry 6). A page of a mapper variant's own RAM is plain
memory too (R78; log entry 28, DESIGN CHOICE). -/
def Obligations.FetchAgreesWithRead : Prop :=
  ∀ (s : State) (a : Word) (b1 b2 : Byte),
    match s.pageAt a with
    | .workRam | .cartRam _ | .mapperRam _ | .prgRom _ => memRead a s = (s.fetch a, s)
    | .ppuRegs | .io | .unmapped | .mapperRegs =>
      s.fetch a = s.params.unmappedFill ∧
      (s.params.legal → decode (s.fetch a) b1 b2 = .ill s.params.unmappedFill)

/-- Mirroring (R79, R302, R303, R88): a write anywhere in 0x0000 to 0x1FFF changes nothing but one cell of work RAM, and a read
or a fetch anywhere there sees it exactly when the two addresses agree modulo 2048; in 0x2000 to 0x3FFF addresses that agree in
their low three bits are one PPU register, for reads and for writes. -/
def Obligations.Mirrors : Prop :=
  ∀ (s : State) (a b : Word) (v : Byte), PagesInstalled s →
    (a.toNat < 0x2000 → b.toNat < 0x2000 →
      memWrite a v s = { s with mem := (memWrite a v s).mem } ∧
      memRead b (memWrite a v s) =
        (if b.toNat % 2048 = a.toNat % 2048 then v else (memRead b s).1, memWrite a v s) ∧
      (memWrite a v s).fetch b = (if b.toNat % 2048 = a.toNat % 2048 then v else s.fetch b)) ∧
    (0x2000 ≤ a.toNat → a.toNat < 0x4000 → 0x2000 ≤ b.toNat → b.toNat < 0x4000 → a.toNat % 8 = b.toNat % 8 →
      memRead a s = memRead b s ∧ memWrite a v s = memWrite b v s)

/-- The cartridge space. The no-op mapper's flat layout (R298): address `a` in 0x8000 to 0xFFFF shows program byte `(a - 0x8000)`
modulo the size of the program buffer, to reads and fetches alike, and a write there changes nothing. Cartridge RAM (R305):
with RAM on the cartridge, 0x6000 to 0x7FFF is plain memory: a byte stored there is read and fetched back at its address and
at no other, and nothing else changes; and so in a page a mapper variant claims for RAM of its own (R78), whose first byte is byte
`base` of that RAM. Three points are the model's choice: that such RAM has a byte for every number (log entry 28, DESIGN CHOICE);
that the cartridge says whether it has RAM apart from its battery flag (log entry 25, DESIGN CHOICE); and how a battery file the
host restores lies there: byte `k` at 0x6000 + k, the bytes past a short file's end as they were (log entry 7, DESIGN CHOICE; R349
says only that the host restores it). -/
def Obligations.CartridgeSpace : Prop :=
  (∀ (s : State) (a b : Word) (v : Byte) (file : List Byte),
    s.cart.mapperId = 0 → s.pageTable = pageTableOf (mappingOf s.mapper.regs s.cart) →
    (0x8000 ≤ a.toNat →
      memRead a s = (Memory.read s.mem (0x8000 + (a.toNat - 0x8000) % s.cart.prgBytes), s) ∧
      s.fetch a = Memory.read s.mem (0x8000 + (a.toNat - 0x8000) % s.cart.prgBytes) ∧
      memWrite a v s = s) ∧
    (s.cart.ramPresent = true → 0x6000 ≤ a.toNat → a.toNat < 0x8000 →
      memWrite a v s = { s with mem := (memWrite a v s).mem } ∧
      (memWrite a v s).mem = Memory.write s.mem a.toNat v ∧
      (0x6000 ≤ b.toNat → b.toNat < 0x8000 →
        memRead b (memWrite a v s) = (if b = a then v else (memRead b s).1, memWrite a v s) ∧
        (memWrite a v s).fetch b = if b = a then v else s.fetch b) ∧
      memRead a (restoreBattery file s) =
        (file.getD (a.toNat - 0x6000) (memRead a s).1, restoreBattery file s))) ∧
  (∀ (s : State) (a : Word) (v : Byte) (base : Nat), s.pageAt a = .mapperRam base →
    memWrite a v s = { s with mapperRam := (memWrite a v s).mapperRam } ∧
    ∀ (b : Word) (base' : Nat), s.pageAt b = .mapperRam base' →
      let same := base' + b.toNat % 2048 = base + a.toNat % 2048
      memRead b (memWrite a v s) = (if same then v else (memRead b s).1, memWrite a v s) ∧
      (memWrite a v s).fetch b = if same then v else s.fetch b)

/-- What a data read leaves alone (R62, R68, R80): the CPU registers, the clock, all CPU-side memory, a mapper variant's own RAM
among it (log entry 28), the page table, the cartridge, the arguments of the machine, the audio chip, the counts, and the no-op mapper (another's timers may run, R85); a
`run` in progress goes on, its stop time kept or lowered (R37, R239); outside the PPU and I/O pages it changes nothing but the
index of the next free byte (the model's own field, log entry 8). -/
def Obligations.ReadFrame : Prop :=
  ∀ (a : Word) (s t : State), (memRead a s).2 = t →
    t.cpu = s.cpu ∧ t.clk = s.clk ∧ t.mem = s.mem ∧ t.mapperRam = s.mapperRam ∧ t.pageTable = s.pageTable ∧ t.cart = s.cart ∧
    (s.cart.mapperId = 0 → t.mapper = s.mapper) ∧ t.errorCount = s.errorCount ∧ t.lastStop = s.lastStop ∧
    t.apu = s.apu ∧ t.params = s.params ∧
    (∀ e', t.endCycle = some e' → ∃ e, s.endCycle = some e ∧ e' ≤ e) ∧
    (∀ e, s.endCycle = some e → ∃ e', t.endCycle = some e' ∧ e' ≤ e) ∧
    (s.pageAt a ≠ .ppuRegs → s.pageAt a ≠ .io → t = { s with freeReads := t.freeReads })

/-- What a data write leaves alone (R63, R305, R317): the CPU registers, the counts, every cell of CPU-side memory and every
byte of a mapper variant's own RAM (R78; log entry 28, DESIGN CHOICE) but the one behind its address, and program memory always;
only OAM DMA moves the clock, by 513 cycles; a `run` in progress goes on, its stop time kept or lowered (R37, R239). -/
def Obligations.WriteFrame : Prop :=
  ∀ (a : Word) (v : Byte) (s t : State), memWrite a v s = t →
    t.cpu = s.cpu ∧ t.errorCount = s.errorCount ∧ t.lastStop = s.lastStop ∧ t.cart = s.cart ∧
    t.clk = s.clk + (if s.pageAt a = .io ∧ a = 0x4014#16 then 513 else 0) ∧
    (∀ k, s.cellOf a ≠ some k → Memory.read t.mem k = Memory.read s.mem k) ∧
    (∀ k, s.ramCellOf a ≠ some k → t.mapperRam.byte k = s.mapperRam.byte k) ∧
    (∀ k, 0x8000 ≤ k → Memory.read t.mem k = Memory.read s.mem k) ∧ t.params = s.params ∧
    (∀ e', t.endCycle = some e' → ∃ e, s.endCycle = some e ∧ e' ≤ e) ∧
    (∀ e, s.endCycle = some e → ∃ e', t.endCycle = some e' ∧ e' ≤ e)

/-- `ReadWordWrap(a)` (R73) for a pointer in RAM: low byte at `a`, high byte at the next address of the same 256-byte page,
which after an address ending in 0xFF is `a - 0xFF`; reading it changes nothing. -/
def Obligations.PointerWrapsInPage : Prop :=
  ∀ (s : State) (a : Word), PagesInstalled s → a.toNat < 0x2000 →
    readWordWrap a s =
      (word (ramByte s a.toNat)
        (ramByte s (if a.toNat % 256 = 255 then a.toNat - 255 else a.toNat + 1)), s)

/-- `Push(v)`, `Pull()` and the wrap of SP (R75, R76, R77): a push stores at 0x0100 + SP and decrements SP modulo 256; a pull
increments it and reads there; nothing else changes, and SP = 0 and SP = 0xFF are no exception. -/
def Obligations.StackPrimitives : Prop :=
  ∀ (s : State) (v : Byte), PagesInstalled s →
    push v s =
      { s with cpu := { s.cpu with sp := s.cpu.sp - 1 }, mem := Memory.write s.mem (0x100 + s.cpu.sp.toNat) v } ∧
    pull s = (stackByte s 1, { s with cpu := { s.cpu with sp := s.cpu.sp + 1 } })

/-- `PackP` and `UnpackP` (R35, R34): the packed byte is the sum of the flags at their bits with bit 5 one and bit 4 the
argument; unpacking it, with any bits 5 and 4, gives the flags back. -/
def Obligations.StatusByte : Prop :=
  ∀ (p : Status) (b : Bool) (v : Byte),
    (packP p b).toNat =
      p.n.toNat * 0x80 + p.v.toNat * 0x40 + 0x20 + b.toNat * 0x10 + p.d.toNat * 0x08 + p.i.toNat * 0x04 +
        p.z.toNat * 0x02 + p.c.toNat ∧
    unpackP (packP p b) = p ∧
    unpackP v = unpackP (v &&& 0xCF#8) ∧
    unpackP v = { n := v.getLsbD 7, v := v.getLsbD 6, d := v.getLsbD 3, i := v.getLsbD 2, z := v.getLsbD 1,
                  c := v.getLsbD 0 }

/-! ## Instructions on registers and flags alone -/

/-- TAX, TAY, TXA, TYA, TSX, TXS (R150 to R155) and INX, INY, DEX, DEY (R166, R167, R169, R170): opcode, one byte, two cycles,
the register moved or stepped by one modulo 256, Z and N from the result but for TXS, and nothing else. -/
def Obligations.RegisterMoves : Prop :=
  ∀ (s : State) (b1 b2 : Byte),
    (decode 0xAA#8 b1 b2 = .tax ∧ exec .tax s = .next { s with
      cpu := { s.cpu with pc := s.cpu.pc + 1, x := s.cpu.a, p := s.cpu.p.nz s.cpu.a }, clk := s.clk + 2 }) ∧
    (decode 0xA8#8 b1 b2 = .tay ∧ exec .tay s = .next { s with
      cpu := { s.cpu with pc := s.cpu.pc + 1, y := s.cpu.a, p := s.cpu.p.nz s.cpu.a }, clk := s.clk + 2 }) ∧
    (decode 0x8A#8 b1 b2 = .txa ∧ exec .txa s = .next { s with
      cpu := { s.cpu with pc := s.cpu.pc + 1, a := s.cpu.x, p := s.cpu.p.nz s.cpu.x }, clk := s.clk + 2 }) ∧
    (decode 0x98#8 b1 b2 = .tya ∧ exec .tya s = .next { s with
      cpu := { s.cpu with pc := s.cpu.pc + 1, a := s.cpu.y, p := s.cpu.p.nz s.cpu.y }, clk := s.clk + 2 }) ∧
    (decode 0xBA#8 b1 b2 = .tsx ∧ exec .tsx s = .next { s with
      cpu := { s.cpu with pc := s.cpu.pc + 1, x := s.cpu.sp, p := s.cpu.p.nz s.cpu.sp }, clk := s.clk + 2 }) ∧
    (decode 0x9A#8 b1 b2 = .txs ∧ exec .txs s = .next { s with
      cpu := { s.cpu with pc := s.cpu.pc + 1, sp := s.cpu.x }, clk := s.clk + 2 }) ∧
    (decode 0xE8#8 b1 b2 = .inx ∧ exec .inx s = .next { s with
      cpu := { s.cpu with pc := s.cpu.pc + 1, x := s.cpu.x + 1, p := s.cpu.p.nz (s.cpu.x + 1) }, clk := s.clk + 2 }) ∧
    (decode 0xC8#8 b1 b2 = .iny ∧ exec .iny s = .next { s with
      cpu := { s.cpu with pc := s.cpu.pc + 1, y := s.cpu.y + 1, p := s.cpu.p.nz (s.cpu.y + 1) }, clk := s.clk + 2 }) ∧
    (decode 0xCA#8 b1 b2 = .dex ∧ exec .dex s = .next { s with
      cpu := { s.cpu with pc := s.cpu.pc + 1, x := s.cpu.x - 1, p := s.cpu.p.nz (s.cpu.x - 1) }, clk := s.clk + 2 }) ∧
    (decode 0x88#8 b1 b2 = .dey ∧ exec .dey s = .next { s with
      cpu := { s.cpu with pc := s.cpu.pc + 1, y := s.cpu.y - 1, p := s.cpu.p.nz (s.cpu.y - 1) }, clk := s.clk + 2 })

/-- CLC, SEC, CLI, SEI, CLV, CLD, SED, NOP (R200 to R207): opcode, one byte, two cycles, the one flag, and nothing else; only CLI
ends a run, with `StopICleared`, and only when I was set. -/
def Obligations.FlagInstructions : Prop :=
  ∀ (s : State) (b1 b2 : Byte),
    (decode 0x18#8 b1 b2 = .clc ∧ exec .clc s = .next { s with
      cpu := { s.cpu with pc := s.cpu.pc + 1, p := { s.cpu.p with c := false } }, clk := s.clk + 2 }) ∧
    (decode 0x38#8 b1 b2 = .sec ∧ exec .sec s = .next { s with
      cpu := { s.cpu with pc := s.cpu.pc + 1, p := { s.cpu.p with c := true } }, clk := s.clk + 2 }) ∧
    (decode 0x78#8 b1 b2 = .sei ∧ exec .sei s = .next { s with
      cpu := { s.cpu with pc := s.cpu.pc + 1, p := { s.cpu.p with i := true } }, clk := s.clk + 2 }) ∧
    (decode 0xB8#8 b1 b2 = .clv ∧ exec .clv s = .next { s with
      cpu := { s.cpu with pc := s.cpu.pc + 1, p := { s.cpu.p with v := false } }, clk := s.clk + 2 }) ∧
    (decode 0xD8#8 b1 b2 = .cld ∧ exec .cld s = .next { s with
      cpu := { s.cpu with pc := s.cpu.pc + 1, p := { s.cpu.p with d := false } }, clk := s.clk + 2 }) ∧
    (decode 0xF8#8 b1 b2 = .sed ∧ exec .sed s = .next { s with
      cpu := { s.cpu with pc := s.cpu.pc + 1, p := { s.cpu.p with d := true } }, clk := s.clk + 2 }) ∧
    (decode 0xEA#8 b1 b2 = .nop ∧ exec .nop s = .next { s with
      cpu := { s.cpu with pc := s.cpu.pc + 1 }, clk := s.clk + 2 }) ∧
    (decode 0x58#8 b1 b2 = .cli ∧ exec .cli s = .next { s with
      cpu := { s.cpu with pc := s.cpu.pc + 1, p := { s.cpu.p with i := false } }, clk := s.clk + 2
      endCycle := if s.cpu.p.i then none else s.endCycle
      lastStop := if s.cpu.p.i then some .iCleared else s.lastStop })

/-- The illegal opcodes (R208, R225, R313): for every one of the 105 values the count goes up by one, PC by one, the clock by
two, the run ends with `StopIllegal`, the opcode value recorded with it (R11), and nothing else changes. -/
def Obligations.IllegalStep : Prop :=
  ∀ (s : State) (op b1 b2 : Byte), op.toNat ∈ illegalOpcodes →
    exec (decode op b1 b2) s = .next { s with
      cpu := { s.cpu with pc := s.cpu.pc + 1 }, clk := s.clk + 2, errorCount := s.errorCount + 1
      endCycle := none, lastStop := some (.illegal op) }

/-! ## Loads and stores -/

/-- LDA, LDX, LDY in every mode (R140 to R142, R118): the operand byte of the mode in the register, Z and N from it, PC past
the instruction, the mode's cost with the page-crossing cycle; all else is as the operand read leaves it. -/
def Obligations.LoadResult : Prop :=
  ∀ s : State, PagesInstalled s →
    (∀ m : AluMode, exec (.lda m) s =
      let r := operand m.source s
      .next { r.2 with cpu := { r.2.cpu with a := r.1, p := s.cpu.p.nz r.1 } }) ∧
    (∀ m : LdxMode, exec (.ldx m) s =
      let r := operand m.source s
      .next { r.2 with cpu := { r.2.cpu with x := r.1, p := s.cpu.p.nz r.1 } }) ∧
    (∀ m : LdyMode, exec (.ldy m) s =
      let r := operand m.source s
      .next { r.2 with cpu := { r.2.cpu with y := r.1, p := s.cpu.p.nz r.1 } })

/-- STA, STX, STY in every mode (R143 to R145, R118): one write of the register at the mode's address, PC past the
instruction, the mode's fixed cost; all else is as the write leaves it, the flags unchanged. -/
def Obligations.StoreResult : Prop :=
  ∀ s : State, PagesInstalled s →
    (∀ m : StaMode, exec (.sta m) s = .next (stored m.addressing s.cpu.a s)) ∧
    (∀ m : StxMode, exec (.stx m) s = .next (stored m.addressing s.cpu.x s)) ∧
    (∀ m : StyMode, exec (.sty m) s = .next (stored m.addressing s.cpu.y s))

/-! ## Arithmetic -/

/-- ADC and SBC in every mode (R160, R161, R171). ADC: A is the sum of A, the operand and C modulo 256; C is whether the sum passes
255; V is whether the signed sum leaves -128 to 127, which is the rule's bit formula. SBC: A is A minus the operand minus the
borrow, modulo 256, the borrow being 1 when C is clear; C is whether no borrow came out; V is whether the signed difference
leaves -128 to 127. Z and N from the result; D is neither read nor written. -/
def Obligations.AddSubtractResult : Prop :=
  (∀ (a m : Byte) (c : Bool),
    decide (((a ^^^ BitVec.ofNat 8 (a.toNat + m.toNat + c.toNat)) &&&
        (m ^^^ BitVec.ofNat 8 (a.toNat + m.toNat + c.toNat)) &&& 0x80#8) ≠ 0#8) =
      decide (sext8 a + sext8 m + c.toNat < -128 ∨ 127 < sext8 a + sext8 m + c.toNat)) ∧
  (∀ (s : State) (m : AluMode), PagesInstalled s →
    exec (.adc m) s =
      let r := operand m.source s
      let sum := s.cpu.a.toNat + r.1.toNat + s.cpu.p.c.toNat
      let signed := sext8 s.cpu.a + sext8 r.1 + s.cpu.p.c.toNat
      let a' := BitVec.ofNat 8 (sum % 256)
      .next { r.2 with cpu := { r.2.cpu with
        a := a'
        p := Status.nz { s.cpu.p with c := decide (255 < sum), v := decide (signed < -128 ∨ 127 < signed) } a' } }) ∧
  (∀ (s : State) (m : AluMode), PagesInstalled s →
    exec (.sbc m) s =
      let r := operand m.source s
      let borrow : Int := 1 - s.cpu.p.c.toNat
      let diff : Int := s.cpu.a.toNat - r.1.toNat - borrow
      let signed := sext8 s.cpu.a - sext8 r.1 - borrow
      let a' := BitVec.ofInt 8 diff
      .next { r.2 with cpu := { r.2.cpu with
        a := a'
        p := Status.nz { s.cpu.p with c := decide (0 ≤ diff), v := decide (signed < -128 ∨ 127 < signed) } a' } })

/-- CMP, CPX, CPY in every mode with the outcomes of R172 (R162 to R164): C exactly when the register is at least the operand,
Z exactly when they are equal, N bit 7 of the difference; no register and no other flag changes. -/
def Obligations.CompareResult : Prop :=
  ∀ s : State, PagesInstalled s →
    let outcome := fun (o : Source) (reg : Byte) =>
      let r := operand o s
      (Host.Outcome.next { r.2 with cpu := { r.2.cpu with
        p := { s.cpu.p with c := decide (r.1.toNat ≤ reg.toNat), z := decide (reg = r.1)
                            n := decide (128 ≤ (reg - r.1).toNat) } } } : Result)
    (∀ m : AluMode, exec (.cmp m) s = outcome m.source s.cpu.a) ∧
    (∀ m : CmpMode, exec (.cpx m) s = outcome m.source s.cpu.x) ∧
    (∀ m : CmpMode, exec (.cpy m) s = outcome m.source s.cpu.y)

/-- INC and DEC in every mode (R165, R168): one read and one write at the mode's address of the byte plus or minus one modulo
256, Z and N from it, C and V kept, the mode's fixed cost. -/
def Obligations.IncDecMemory : Prop :=
  ∀ (s : State) (m : RmwMode), PagesInstalled s →
    let r := modifyOperand m.addressing s
    let done := fun (v : Byte) =>
      (Host.Outcome.next ((memWrite (effective m.addressing s) v r.2).withFlags (s.cpu.p.nz v)) : Result)
    exec (.inc m) s = done (r.1 + 1) ∧ exec (.dec m) s = done (r.1 - 1)

/-! ## Logic, shifts -/

/-- AND, ORA, EOR in every mode (R175 to R177): A combined bit by bit with the operand, Z and N from the result, C and V kept. BIT in
both modes (R178): Z from A and the operand, N and V bits 7 and 6 of the operand alone; A and C kept. -/
def Obligations.LogicAndBitResult : Prop :=
  (∀ (s : State) (m : AluMode), PagesInstalled s →
    let r := operand m.source s
    let done := fun (v : Byte) =>
      (Host.Outcome.next { r.2 with cpu := { r.2.cpu with a := v, p := s.cpu.p.nz v } } : Result)
    exec (.and m) s = done (s.cpu.a &&& r.1) ∧
    exec (.ora m) s = done (s.cpu.a ||| r.1) ∧
    exec (.eor m) s = done (s.cpu.a ^^^ r.1)) ∧
  (∀ (s : State) (m : BitMode), PagesInstalled s →
    exec (.bit m) s =
      let r := operand (.mem m.addressing) s
      .next (r.2.withFlags { s.cpu.p with
        z := decide (s.cpu.a &&& r.1 = 0#8), n := decide (128 ≤ r.1.toNat), v := decide (64 ≤ r.1.toNat % 128) }))

/-- ASL, LSR, ROL, ROR in every mode, accumulator and memory (R179 to R182): the result and the new carry as numbers, Z and N
from the result, V kept; in the accumulator form two cycles and no access, in memory one read, one write and the fixed cost. -/
def Obligations.ShiftResult : Prop :=
  ∀ (s : State) (m : ShiftMode), PagesInstalled s →
    let outcome := fun (f : Nat → Nat × Bool) =>
      (Host.Outcome.next (match m.addressing with
        | none =>
          let r := f s.cpu.a.toNat
          let b := BitVec.ofNat 8 r.1
          { s with
            cpu := { s.cpu with pc := s.cpu.pc + 1, a := b, p := Status.nz { s.cpu.p with c := r.2 } b }
            clk := s.clk + 2 }
        | some x =>
          let o := modifyOperand x s
          let r := f o.1.toNat
          let b := BitVec.ofNat 8 r.1
          (memWrite (effective x s) b o.2).withFlags (Status.nz { s.cpu.p with c := r.2 } b)) : Result)
    let c := s.cpu.p.c.toNat
    exec (.asl m) s = outcome (fun v => (v * 2 % 256, decide (128 ≤ v))) ∧
    exec (.lsr m) s = outcome (fun v => (v / 2, decide (v % 2 = 1))) ∧
    exec (.rol m) s = outcome (fun v => (v * 2 % 256 + c, decide (128 ≤ v))) ∧
    exec (.ror m) s = outcome (fun v => (v / 2 + c * 128, decide (v % 2 = 1)))

/-! ## Control transfer -/

/-- JMP (R185, R113, R73): direct, three cycles; indirect, five cycles, wherever the pointer lies; with the pointer in RAM or in
program ROM the target's high byte is from the same 256-byte page as its low byte and nothing else changes; no flag, no
stack. -/
def Obligations.JmpResult : Prop :=
  ∀ (s : State) (a : Word),
    let next := if a.toNat % 256 = 255 then a - 255#16 else a + 1#16
    exec (.jmp (.abs a)) s = .next { s with cpu := { s.cpu with pc := a }, clk := s.clk + 3 } ∧
    (∃ t : State, exec (.jmp (.ind a)) s = .next t ∧ t.clk = s.clk + 5 ∧ t.mem = s.mem ∧ t.mapperRam = s.mapperRam ∧
      t.cpu = { s.cpu with pc := (readWordWrap a (advanced s 3 5)).1 }) ∧
    (PagesInstalled s → a.toNat < 0x2000 →
      exec (.jmp (.ind a)) s = .next { s with
        cpu := { s.cpu with pc := word (ramByte s a.toNat) (ramByte s next.toNat) }, clk := s.clk + 5 }) ∧
    (PagesInstalled s → 0x8000 ≤ a.toNat →
      exec (.jmp (.ind a)) s = .next { s with
        cpu := { s.cpu with pc := word (s.fetch a) (s.fetch next) }, clk := s.clk + 5 })

/-- JSR and RTS (R186, R187): opcode 0x20, six cycles, the address of its last byte pushed high byte first, PC at the operand;
opcode 0x60, six cycles, the pulled word plus one into PC; no flag. And so a subroutine returns: in any state with SP as the JSR
left it and the two bytes it pushed still in their cells, whatever else has changed, RTS goes to the JSR's address plus three with
SP as it was before the JSR, and changes nothing but PC, SP and the clock. -/
def Obligations.Subroutines : Prop :=
  (∀ (s : State) (l h : Byte), PagesInstalled s →
    (decode 0x20#8 l h = .jsr (word l h) ∧
      exec (.jsr (word l h)) s = .next { s with
        cpu := { s.cpu with pc := word l h, sp := s.cpu.sp - 2 }
        clk := s.clk + 6
        mem := Memory.write (Memory.write s.mem (0x100 + s.cpu.sp.toNat) (hi (s.cpu.pc + 2)))
          (0x100 + (s.cpu.sp - 1).toNat) (lo (s.cpu.pc + 2)) }) ∧
    (decode 0x60#8 l h = .rts ∧
      exec .rts s = .next { s with
        cpu := { s.cpu with pc := word (stackByte s 1) (stackByte s 2) + 1, sp := s.cpu.sp + 2 }, clk := s.clk + 6 })) ∧
  (∀ (s t v : State) (a : Word), PagesInstalled s → exec (.jsr a) s = .next t →
    PagesInstalled v → v.cpu.sp = t.cpu.sp →
    Memory.read v.mem (0x100 + s.cpu.sp.toNat) = Memory.read t.mem (0x100 + s.cpu.sp.toNat) →
    Memory.read v.mem (0x100 + (s.cpu.sp - 1).toNat) = Memory.read t.mem (0x100 + (s.cpu.sp - 1).toNat) →
    exec .rts v = .next { v with cpu := { v.cpu with pc := s.cpu.pc + 3, sp := s.cpu.sp }, clk := v.clk + 6 })

/-- PHA and PHP (R156, R157): opcode, three cycles, A or the packed status with bits 5 and 4 set stored at 0x0100 + SP, SP down
by one modulo 256; no flag. PLA and PLP (R158, R159): opcode, four cycles, SP up by one modulo 256 and the byte there into A with
Z and N, or into the six flags; a PLP that turns I from one to zero, and no other, ends the run with `StopICleared`. -/
def Obligations.StackInstructions : Prop :=
  (∀ (s : State) (b1 b2 : Byte), PagesInstalled s →
    let pushed := fun (v : Byte) =>
      (Host.Outcome.next { s with
        cpu := { s.cpu with pc := s.cpu.pc + 1, sp := s.cpu.sp - 1 }, clk := s.clk + 3
        mem := Memory.write s.mem (0x100 + s.cpu.sp.toNat) v } : Result)
    (decode 0x48#8 b1 b2 = .pha ∧ exec .pha s = pushed s.cpu.a) ∧
    (decode 0x08#8 b1 b2 = .php ∧ exec .php s = pushed (packP s.cpu.p true))) ∧
  (∀ (s : State) (b1 b2 : Byte), PagesInstalled s →
    (decode 0x68#8 b1 b2 = .pla ∧ exec .pla s = .next { s with
      cpu := { s.cpu with pc := s.cpu.pc + 1, sp := s.cpu.sp + 1, a := stackByte s 1, p := s.cpu.p.nz (stackByte s 1) }
      clk := s.clk + 4 }) ∧
    (decode 0x28#8 b1 b2 = .plp ∧ exec .plp s =
      let p := unpackP (stackByte s 1)
      let cleared := s.cpu.p.i && !p.i
      .next { s with
        cpu := { s.cpu with pc := s.cpu.pc + 1, sp := s.cpu.sp + 1, p := p }, clk := s.clk + 4
        endCycle := if cleared then none else s.endCycle
        lastStop := if cleared then some .iCleared else s.lastStop }))

/-- RTI (R188): opcode 0x40, six cycles, the six flags and then PC from the three bytes above SP, nothing added to PC; one that
turns I from one to zero ends the run with `StopICleared`. -/
def Obligations.RtiResult : Prop :=
  ∀ (s : State) (b1 b2 : Byte), PagesInstalled s →
    decode 0x40#8 b1 b2 = .rti ∧
    exec .rti s =
      let p := unpackP (stackByte s 1)
      let cleared := s.cpu.p.i && !p.i
      .next { s with
        cpu := { s.cpu with pc := word (stackByte s 2) (stackByte s 3), sp := s.cpu.sp + 3, p := p }, clk := s.clk + 6
        endCycle := if cleared then none else s.endCycle
        lastStop := if cleared then some .iCleared else s.lastStop }

/-- BRK (R189, R227): opcode 0x00, seven cycles, the address after the skipped byte and the status with its break bit set
pushed, I set, D and the other flags kept, PC from the IRQ vector; the run goes on. -/
def Obligations.BrkResult : Prop :=
  ∀ (s : State) (b1 b2 : Byte), PagesInstalled s →
    decode 0x00#8 b1 b2 = .brk ∧
    exec .brk s = .next { s with
      cpu := { s.cpu with pc := vectorAt s 0xFFFE#16, sp := s.cpu.sp - 3, p := { s.cpu.p with i := true } }
      clk := s.clk + 7
      mem := Memory.write (Memory.write (Memory.write s.mem (0x100 + s.cpu.sp.toNat) (hi (s.cpu.pc + 2)))
        (0x100 + (s.cpu.sp - 1).toNat) (lo (s.cpu.pc + 2))) (0x100 + (s.cpu.sp - 2).toNat) (packP s.cpu.p true) }

/-- The eight conditional branches (R190 to R198, R126): each on its flag; not taken two cycles; taken to the following
instruction plus the signed offset, three cycles, or four when that lies in another 256-byte page; no flag, no stack. -/
def Obligations.BranchResult : Prop :=
  ∀ (s : State) (rel8 b2 : Byte),
    (decode 0x90#8 rel8 b2 = .bcc rel8 ∧ exec (.bcc rel8) s = .next (branched (!s.cpu.p.c) rel8 s)) ∧
    (decode 0xB0#8 rel8 b2 = .bcs rel8 ∧ exec (.bcs rel8) s = .next (branched s.cpu.p.c rel8 s)) ∧
    (decode 0xF0#8 rel8 b2 = .beq rel8 ∧ exec (.beq rel8) s = .next (branched s.cpu.p.z rel8 s)) ∧
    (decode 0xD0#8 rel8 b2 = .bne rel8 ∧ exec (.bne rel8) s = .next (branched (!s.cpu.p.z) rel8 s)) ∧
    (decode 0x30#8 rel8 b2 = .bmi rel8 ∧ exec (.bmi rel8) s = .next (branched s.cpu.p.n rel8 s)) ∧
    (decode 0x10#8 rel8 b2 = .bpl rel8 ∧ exec (.bpl rel8) s = .next (branched (!s.cpu.p.n) rel8 s)) ∧
    (decode 0x50#8 rel8 b2 = .bvc rel8 ∧ exec (.bvc rel8) s = .next (branched (!s.cpu.p.v) rel8 s)) ∧
    (decode 0x70#8 rel8 b2 = .bvs rel8 ∧ exec (.bvs rel8) s = .next (branched s.cpu.p.v rel8 s))

/-! ## Interrupts -/

/-- Interrupt entry, for NMI and IRQ (R236): PC and the status with its break bit clear on the stack, SP down by three, I set
and no other flag, PC from the vector, seven cycles, and nothing else; taking an NMI also sets `nmi_time` back (R311). -/
def Obligations.InterruptEntryEffect : Prop :=
  ∀ s : State, PagesInstalled s →
    let entered := fun (vector : Word) =>
      { s with
        cpu := { s.cpu with pc := vectorAt s vector, sp := s.cpu.sp - 3, p := { s.cpu.p with i := true } }
        clk := s.clk + 7
        mem := Memory.write (Memory.write (Memory.write s.mem (0x100 + s.cpu.sp.toNat) (hi s.cpu.pc))
          (0x100 + (s.cpu.sp - 1).toNat) (lo s.cpu.pc)) (0x100 + (s.cpu.sp - 2).toNat) (packP s.cpu.p false) }
    vectorNmi s = { entered 0xFFFA#16 with nmiTime := none } ∧ vectorIrq s = entered 0xFFFE#16

/-- RTI is the inverse of interrupt entry (R188, R240): executed as the first instruction of the handler it restores every
register and flag; and after a BRK it restores all but PC, which is the BRK's address plus two. -/
def Obligations.RtiUndoesEntry : Prop :=
  ∀ s : State, PagesInstalled s →
    (∀ vector : Word, vector = 0xFFFA#16 ∨ vector = 0xFFFE#16 →
      ∃ t : State, exec .rti (interruptEntry vector s) = .next t ∧ t.cpu = s.cpu) ∧
    (∀ u : State, exec .brk s = .next u →
      ∃ t : State, exec .rti u = .next t ∧ t.cpu = { s.cpu with pc := s.cpu.pc + 2 })

/-- The three instructions that can end a run with `StopICleared` (R224): if an instruction leaves that reason where it was not,
it is CLI, PLP or RTI, I was one and is now zero, and the run is over. -/
def Obligations.OnlyThreeClearI : Prop :=
  ∀ (i : Instr) (s t : State), exec i s = .next t → t.lastStop = some .iCleared → s.lastStop ≠ some .iCleared →
    (i = .cli ∨ i = .plp ∨ i = .rti) ∧ s.cpu.p.i = true ∧ t.cpu.p.i = false ∧ t.endCycle = none

/-! ## Frames over all instructions -/

/-- Which instructions change which register (R21 to R24) and which flag (R28 to R32): each changes only by the instructions its
rule lists. -/
def Obligations.RegisterAndFlagFrame : Prop :=
  ∀ (i : Instr) (s t : State), exec i s = .next t →
    (i.writesA = false → t.cpu.a = s.cpu.a) ∧ (i.writesX = false → t.cpu.x = s.cpu.x) ∧
    (i.writesY = false → t.cpu.y = s.cpu.y) ∧ (i.writesSp = false → t.cpu.sp = s.cpu.sp) ∧
    (i.writesC = false → t.cpu.p.c = s.cpu.p.c) ∧ (i.writesNZ = false → t.cpu.p.z = s.cpu.p.z ∧ t.cpu.p.n = s.cpu.p.n) ∧
    (i.writesI = false → t.cpu.p.i = s.cpu.p.i) ∧ (i.writesD = false → t.cpu.p.d = s.cpu.p.d) ∧
    (i.writesV = false → t.cpu.p.v = s.cpu.p.v)

/-- Which bytes an instruction stores to (R82, R75): every cell of CPU-side memory is unchanged but the one behind the effective
address of a storing form, computed as the instruction computes it, and the stack cells below SP that its pushes fill; every byte
of a mapper variant's own RAM (R78; log entry 28, DESIGN CHOICE) is unchanged but the one behind that address. -/
def Obligations.MemoryFrame : Prop :=
  ∀ (i : Instr) (s t : State) (k : Nat), PagesInstalled s → exec i s = .next t →
    ((∀ m, i.destination = some m → s.cellOf (effective m s) ≠ some k) →
      (∀ j, j < i.pushes → k ≠ 0x100 + (s.cpu.sp - BitVec.ofNat 8 j).toNat) →
      Memory.read t.mem k = Memory.read s.mem k) ∧
    ((∀ m, i.destination = some m → s.ramCellOf (effective m s) ≠ some k) →
      t.mapperRam.byte k = s.mapperRam.byte k)

/-- What no instruction changes (R7, R38, R48, R50): the cartridge, the arguments of the machine (held in
the state by the model's choice, log entry 6), the host's joypad bits, the frame in progress and its result; and only an illegal
opcode changes the error count. -/
def Obligations.SystemFrame : Prop :=
  ∀ (i : Instr) (s t : State), exec i s = .next t →
    t.cart = s.cart ∧ t.params = s.params ∧ t.pads.bits1 = s.pads.bits1 ∧ t.pads.bits2 = s.pads.bits2 ∧ t.inFrame = s.inFrame ∧
    t.frameResult = s.frameResult ∧ t.irqTime = s.irqTime ∧ s.clk + 2 ≤ t.clk ∧
    t.errorCount = s.errorCount + (if i.mnemonicIsIll then 1 else 0)

/-! ## Invariants -/

/-- The state right after reset meets every invariant below, with the values the spec gives it (R51, R343, R344, R345, R347; its
decisions D17, D18, D26) and the arguments of R7 at their defaults. The cartridge in the slot is the model's choice (log
entry 2), the arguments' standing in the state too (log entry 6), and so is the form of memory (log entries 5, 28). -/
def Obligations.ResetState : Prop :=
  State.reset.cpu.p = { n := false, v := false, d := false, i := true, z := false, c := false } ∧
  State.reset.cpu.a = 0 ∧ State.reset.cpu.x = 0 ∧ State.reset.cpu.y = 0 ∧ State.reset.cpu.sp = 0xFD#8 ∧
  State.reset.cpu.pc = vectorAt State.reset 0xFFFC#16 ∧
  State.reset.clk = 0 ∧ State.reset.errorCount = 0 ∧ State.reset.nmiTime = none ∧ State.reset.irqTime = none ∧
  State.reset.endCycle = none ∧ State.reset.ppu.ctrl = 0 ∧ State.reset.ppu.mask = 0 ∧ State.reset.ppu.w = false ∧
  Memory.wf State.reset.mem ∧ Assoc.sorted State.reset.mapperRam.cells ∧ PagesInstalled State.reset ∧ State.reset.ppu.phase < 3 ∧
  State.reset.pads.pos1 ≤ 8 ∧ State.reset.pads.pos2 ≤ 8 ∧
  State.reset.params.legal ∧ State.reset.params.stepBoundary = none ∧
  (∀ k, State.reset.params.ramPowerUp.getD k 0xFF#8 = 0xFF#8) ∧
  (∀ k, k < 2048 → Memory.read State.reset.mem k = 0xFF#8)

/-- Every step keeps the canonical form in which the model writes CPU-side memory down: addresses strictly rising, no entry equal to
what an unlisted address reads as; and the rising order of the bytes written to a mapper variant's own RAM. The forms are the
model's representation, not the spec's (log entries 5 and 28, DESIGN CHOICE). -/
def Obligations.MemoryStaysCanonical : Prop :=
  ∀ s t : State, step s = .next t →
    (Memory.wf s.mem → Memory.wf t.mem) ∧
    (Assoc.sorted s.mapperRam.cells → Assoc.sorted t.mapperRam.cells)

/-- Every step keeps the installation of the page table (R352, R39, R301): no entry is ever missing. That pages 0 to 8 and 16 to 31
keep their owners whatever a mapper variant does is the model's choice (log entry 11, DESIGN CHOICE), from R301 and R305. -/
def Obligations.PagesStayInstalled : Prop :=
  ∀ s t : State, PagesInstalled s → step s = .next t → PagesInstalled t

/-- No step changes a byte of program memory, the cartridge (R50, R90, R305), or the arguments the machine is built with (R7; held in
the state by the model's choice, log entry 6). -/
def Obligations.ProgramNeverChanges : Prop :=
  ∀ s t : State, step s = .next t →
    t.cart = s.cart ∧ t.params = s.params ∧ ∀ k, 0x8000 ≤ k → Memory.read t.mem k = Memory.read s.mem k

/-- Every step keeps the small counters in their ranges: the remainder `phase` in 0 to 2 (R43, R264), the joypads' shift
positions in 0 to 8 (R318). -/
def Obligations.CountersStayInRange : Prop :=
  ∀ s t : State, s.ppu.phase < 3 → s.pads.pos1 ≤ 8 → s.pads.pos2 ≤ 8 → step s = .next t →
    t.ppu.phase < 3 ∧ t.pads.pos1 ≤ 8 ∧ t.pads.pos2 ≤ 8

/-- The progress of a frame (R308, R309, R316): with no degenerate debug boundary (log entry 26, DEDUCED) every step moves the clock on by at least two
cycles, or ends the frame, returning its length and taking exactly that off the clock; a boundary with no `run` in progress at
which the frame's length is reached does end it; and a `run` the Bus Controller opens is given a stop time no later than the
frame's length. -/
def Obligations.TimeAdvances : Prop :=
  ∀ s t : State, s.ppu.phase < 3 → s.params.stepBoundary ≠ some 0 → step s = .next t →
    (s.clk + 2 ≤ t.clk ∨ ∃ len, t.inFrame = false ∧ t.frameResult = some len ∧ t.clk + len = s.clk) ∧
    ((∀ e, s.endCycle = some e → e ≤ s.clk) →
      ((passStart s).ppu.frameLen ≤ s.clk →
        ∃ len, t.inFrame = false ∧ t.frameResult = some len ∧ t.clk + len = s.clk) ∧
      (∀ u, boundary s = .run u → ∃ e, u.endCycle = some e ∧ e ≤ u.ppu.frameLen))

/-! ## The PPU -/

/-- The times of a frame (R263, R264): `T_vbl` is the least time whose dot reaches 82523, `frame_len` the least whose dot reaches
the frame's dots (D24, D33); a frame is 29780 or 29781 cycles, and the carried remainder is again below 3. Whether the
frame is shortened is a field of the model (log entries 13, 14). -/
def Obligations.FrameTimes : Prop :=
  ∀ p : Ppu, p.phase < 3 →
    (∀ c, p.vblTime ≤ c ↔ 82523 ≤ p.dotAt c) ∧
    p.vblTime = (if p.phase = 2 then 27507 else 27508) ∧
    (∀ c, p.frameLen ≤ c ↔ (if p.shortened then 89341 else 89342) ≤ p.dotAt c) ∧
    (p.frameLen = 29780 ∨ p.frameLen = 29781) ∧
    p.endFrame.phase + p.frameDots = p.dotAt p.frameLen ∧ p.endFrame.phase < 3 ∧ p.endFrame.oddFrame = !p.oddFrame

/-- Rendering in pieces is rendering at once (R266: laziness is not observable): bringing the PPU up to one time and then to a
later one gives what bringing it to the later one gives. -/
def Obligations.LazyRenderingUnobservable : Prop :=
  ∀ (p : Ppu) (T1 T2 : Nat), T1 ≤ T2 → (p.renderUntil T1).renderUntil T2 = p.renderUntil T2

/-- How `v` moves (R271), at any frame dot: only on lines 0 to 240 and only with rendering enabled. At dot 256 it steps to the next
row: fine Y, and where that wraps coarse Y, which wraps after 29 into the other nametable and after 31 into the same. At dot 257 its
horizontal bits are `t`'s, at dots 280 to 304 of line 0 its vertical bits are. Which line and dot a frame dot is in a shortened
frame is the model's choice (log entry 13, PRESUMED). -/
def Obligations.VramAddressMoves : Prop :=
  ∀ (p : Ppu) (n : Nat),
    let line := (p.position n).1
    let dot := (p.position n).2
    let v := (p.atDot n).v
    (p.shortened = false → line = n / 341 ∧ dot = n % 341) ∧
    (p.rendering = true → line ≤ 240 → dot = 256 →
      fineY v = (fineY p.v + 1) % 8 ∧
      coarseY v = (if fineY p.v < 7 then coarseY p.v else if coarseY p.v = 29 ∨ coarseY p.v = 31 then 0 else coarseY p.v + 1) ∧
      nameY v = (if fineY p.v = 7 ∧ coarseY p.v = 29 then 1 - nameY p.v else nameY p.v) ∧
      nameX v = nameX p.v ∧ coarseX v = coarseX p.v) ∧
    (p.rendering = true → line ≤ 240 → dot = 257 →
      ∀ k, v.getLsbD k = if k < 5 ∨ k = 10 then p.t.getLsbD k else p.v.getLsbD k) ∧
    (p.rendering = true → line = 0 → 280 ≤ dot → dot ≤ 304 →
      ∀ k, v.getLsbD k = if k < 5 ∨ k = 10 then p.v.getLsbD k else p.t.getLsbD k) ∧
    (p.rendering = false ∨ 240 < line ∨ (dot ≠ 256 ∧ dot ≠ 257 ∧ (line = 0 → dot < 280 ∨ 304 < dot)) → v = p.v)

/-- The background of a picture row (R268), said over the plane of the nametables: pixel `x` of the row is the point `X` to the right
of the left edge of the plane, which is two nametables wide. The nametable byte and the attribute bits of its tile, the two
bit planes of the tile's row, and the clip of the leftmost eight pixels give whether it is opaque and its palette index. -/
def Obligations.BackgroundPixel : Prop :=
  ∀ (p : Ppu) (x : Nat),
    let X := nameX p.v * 256 + coarseX p.v * 8 + p.fx.toNat + x
    let column := X / 8 % 32
    let row := coarseY p.v
    let table := 0x2000 + nameY p.v * 0x800 + X / 256 % 2 * 0x400
    let tile := (p.read (table + row * 32 + column)).toNat
    let attributes := (p.read (table + 0x3C0 + row / 4 * 8 + column / 4)).toNat
    let group := attributes / 4 ^ (row / 2 % 2 * 2 + column / 2 % 2) % 4
    let pattern := (if p.ctrl.getLsbD 4 then 0x1000 else 0) + tile * 16 + fineY p.v
    let bit := 7 - X % 8
    let colour := (p.read (pattern + 8)).toNat / 2 ^ bit % 2 * 2 + (p.read pattern).toNat / 2 ^ bit % 2
    p.background x =
      if colour ≠ 0 ∧ p.mask.getLsbD 3 = true ∧ (8 ≤ x ∨ p.mask.getLsbD 1 = true) then (true, group * 4 + colour)
      else (false, 0)

/-- The sprites of a picture row (R273, R274): an entry is drawn exactly when the row is one of its 8 or 16 rows, the first one below its
Y byte, and fewer than eight entries before it are in range. Its colour at a pixel comes from the pattern row chosen by the sprite
size, the flips and the pattern table, and is 0 outside its eight pixels, in a clipped column, or with sprites off. The pixel put
out is that of the first entry drawn that is opaque there, unless the background is opaque and the entry is behind it. -/
def Obligations.SpritePixels : Prop :=
  ∀ (p : Ppu) (y x : Nat),
    let height := if p.ctrl.getLsbD 5 then 16 else 8
    let inRange := fun (i : Nat) =>
      decide ((p.oamByte (4 * i)).toNat + 1 ≤ y ∧ y < (p.oamByte (4 * i)).toNat + 1 + height)
    let drawn := p.selectedSprites y
    let bg := p.background x
    (∀ i, i ∈ drawn ↔ i < 64 ∧ inRange i = true ∧ ((List.range i).filter inRange).length < 8) ∧
    (∀ i, inRange i = true →
      let tile := (p.oamByte (4 * i + 1)).toNat
      let flags := p.oamByte (4 * i + 2)
      let left := (p.oamByte (4 * i + 3)).toNat
      let down := y - ((p.oamByte (4 * i)).toNat + 1)
      let r := if flags.getLsbD 7 then height - 1 - down else down
      let pattern :=
        if p.ctrl.getLsbD 5 then tile % 2 * 0x1000 + (tile - tile % 2 + r / 8) * 16 + r % 8
        else (if p.ctrl.getLsbD 3 then 0x1000 else 0) + tile * 16 + r
      let bit := if flags.getLsbD 6 then x - left else 7 - (x - left)
      p.spriteColour y i x =
        if left ≤ x ∧ x < left + 8 ∧ p.mask.getLsbD 4 = true ∧ (8 ≤ x ∨ p.mask.getLsbD 2 = true) then
          (p.read (pattern + 8)).toNat / 2 ^ bit % 2 * 2 + (p.read pattern).toNat / 2 ^ bit % 2
        else 0) ∧
    ((∀ i, i ∈ drawn → p.spriteColour y i x = 0) → p.composed y drawn x = bg.2) ∧
    (∀ i, i ∈ drawn → p.spriteColour y i x ≠ 0 → (∀ j, j ∈ drawn → j < i → p.spriteColour y j x = 0) →
      let flags := p.oamByte (4 * i + 2)
      p.composed y drawn x =
        if bg.1 = true ∧ flags.getLsbD 5 = true then bg.2 else 16 + 4 * (flags.toNat % 4) + p.spriteColour y i x)

/-- A picture row is drawn at the first dot of its line, as a whole (R266, R281): the 256 composed indices go to the host's buffer at
`pointer + y*row_stride + x` and nowhere else, 0 with rendering disabled, and the palette lookup for the row gives the palette as it
stands, grey where the mask says. Sprite-zero hit (R275): it falls at the first pixel below 255 where entry 0 is in range and both it
and the background are opaque; the flag is set at frame dot `(y + 1)*341 + x + 1`, at no other, and no dot clears it. That this dot
stands in a shortened frame too is the model's reading (log entry 14, DEDUCED); that the host's buffer and a drawn row's colours are
data of the state is its choice (log entry 21, DESIGN CHOICE). -/
def Obligations.RowDrawing : Prop :=
  ∀ (p : Ppu) (y : Nat), y < 240 →
    let q := p.lineDot (y + 1) 0
    let overlaps := fun (x : Nat) => p.spriteInRange y 0 = true ∧ p.spriteColour y 0 x ≠ 0 ∧ (p.background x).1 = true
    (∀ pointer stride, p.video.buffer = some (pointer, stride) →
      (∀ x, x < 256 → Assoc.find (pointer + y * stride + x) q.video.pixels =
        some (BitVec.ofNat 8 (p.composed y (p.selectedSprites y) x))) ∧
      (∀ k, (∀ x, x < 256 → k ≠ pointer + y * stride + x) →
        Assoc.find k q.video.pixels = Assoc.find k p.video.pixels)) ∧
    (p.rendering = false → ∀ x, p.composed y (p.selectedSprites y) x = 0) ∧
    (∀ (s : State) (i : Nat), s.ppu = q → i < 32 →
      paletteLookup s y i = some (if p.mask.getLsbD 0 then p.paletteByte i &&& 0x30#8 else p.paletteByte i)) ∧
    (∀ n, q.spr0Dot = some n ↔
      ∃ x, x < 255 ∧ n = (y + 1) * 341 + x + 1 ∧ overlaps x ∧ ∀ x', x' < x → ¬ overlaps x') ∧
    (∀ n, (p.atDot n).spr0hit = (p.spr0hit || decide (p.spr0Dot = some n)))

/-- A read of a PPU register but the data port, at any of its mirrors; `q` is the machine with the PPU brought up to the access
(R85, R251). Status (R254): bits 7 and 6 are the flags, bits 4 to 0 the last byte written to any PPU register; the read clears the
vertical-blank flag and the write parity, keeps sprite-zero-hit, and changes no other register of the PPU; bit 5 is free (R276;
the model's choice, log entry 9). OAM data (R256): the byte at the OAM address, which stays. A write-only register (R251): the last
byte written to any register. Neither of these has another effect, the timers of a mapper apart (R85). -/
def Obligations.PpuRegisterReads : Prop :=
  ∀ (s : State) (a : Word), PagesInstalled s → 0x2000 ≤ a.toNat → a.toNat < 0x4000 →
    let q := catchUp s.clk s
    let r := memRead a s
    (a.toNat % 8 = 2 →
      r.1.getLsbD 7 = q.ppu.vbl ∧ r.1.getLsbD 6 = q.ppu.spr0hit ∧
      (∀ k, k < 5 → r.1.getLsbD k = q.ppu.iolatch.getLsbD k) ∧
      r.2.ppu = { q.ppu with vbl := false, w := false, vblDone := r.2.ppu.vblDone } ∧
      (s.clk ≠ q.ppu.vblTime → r.2.ppu.vblDone = q.ppu.vblDone)) ∧
    (a.toNat % 8 = 4 →
      r.1 = q.ppu.oamByte q.ppu.oamAddr.toNat ∧ r.2 = { q with mapper := r.2.mapper }) ∧
    (a.toNat % 8 = 0 ∨ a.toNat % 8 = 1 ∨ a.toNat % 8 = 3 ∨ a.toNat % 8 = 5 ∨ a.toNat % 8 = 6 →
      r.1 = q.ppu.iolatch ∧ r.2 = { q with mapper := r.2.mapper })

/-- The vertical-blank flag and the race (R263, R265), before the event of the frame. An access later than `T_vbl` finds the flag
set and, with the enable bit, the NMI raised at `T_vbl`; an access at or before it finds neither. A boundary at or after `T_vbl`
applies the event; one before it does not. A status read exactly at `T_vbl` reads the flag clear and suppresses the frame's event
(D28): it counts as dealt with, and no later access and no boundary of the frame applies it. `T_vbl` of a shortened frame is the
model's reading (log entry 14, DEDUCED). -/
def Obligations.VblankRace : Prop :=
  ∀ (s : State) (T : Nat), s.ppu.vblDone = false → s.ppu.vbl = false → s.nmiTime = none →
    let raised := if s.ppu.ctrl.getLsbD 7 then some s.ppu.vblTime else none
    (s.ppu.vblTime < T → (catchUp T s).ppu.vbl = true ∧ (catchUp T s).ppu.vblDone = true ∧
      (catchUp T s).nmiTime = raised) ∧
    (T ≤ s.ppu.vblTime → (catchUp T s).ppu.vbl = false ∧ (catchUp T s).ppu.vblDone = false ∧
      (catchUp T s).nmiTime = none) ∧
    (s.ppu.vblTime ≤ s.clk → (syncBoundary s).ppu.vbl = true ∧ (syncBoundary s).ppu.vblDone = true ∧
      (syncBoundary s).nmiTime = raised) ∧
    (s.clk < s.ppu.vblTime → (syncBoundary s).ppu.vbl = false ∧ (syncBoundary s).ppu.vblDone = false ∧
      (syncBoundary s).nmiTime = none) ∧
    (T = s.ppu.vblTime →
      let r := readStatus T (catchUp T s)
      r.1.getLsbD 7 = false ∧ r.2.ppu.vblDone = true ∧
      (∀ T' : Nat, (catchUp T' r.2).ppu.vbl = false ∧ (catchUp T' r.2).nmiTime = none) ∧
      (∀ n : Nat, (syncBoundary (r.2.addClk n)).ppu.vbl = false ∧ (syncBoundary (r.2.addClk n)).nmiTime = none))

/-- The scroll register and the address register, each written twice from the first write of a pair (R257, R258): the bytes land
in `t`, the fine scroll and `v` as the rules say; every other bit of `t` stays, but bit 14 of an address, which is cleared; `v`
moves only at the second address write; the parity is back. A store to the register, at any of its mirrors, is that write, on the
PPU brought up to the store, with the byte in the I/O latch (R251). -/
def Obligations.ScrollAndAddressPairs : Prop :=
  (∀ (p : Ppu) (d1 d2 : Byte), p.w = false →
    (let q := (p.writeScroll d1).writeScroll d2
     q = { p with t := q.t, fx := q.fx } ∧
     q.fx.toNat = d1.toNat % 8 ∧
     (∀ k, k < 5 → q.t.getLsbD k = d1.getLsbD (k + 3)) ∧
     (∀ k, k < 5 → q.t.getLsbD (k + 5) = d2.getLsbD (k + 3)) ∧
     (∀ k, k < 3 → q.t.getLsbD (k + 12) = d2.getLsbD k) ∧
     q.t.getLsbD 10 = p.t.getLsbD 10 ∧ q.t.getLsbD 11 = p.t.getLsbD 11 ∧ (p.writeScroll d1).w = true) ∧
    (let q := (p.writeAddress d1).writeAddress d2
     q = { p with t := q.t, v := q.t } ∧ q.t.toNat = d1.toNat % 64 * 256 + d2.toNat ∧
     (p.writeAddress d1).v = p.v ∧ (p.writeAddress d1).w = true)) ∧
  (∀ (s : State) (a : Word) (d : Byte), PagesInstalled s → 0x2000 ≤ a.toNat → a.toNat < 0x4000 →
    (a.toNat % 8 = 5 → (memWrite a d s).ppu = { (catchUp s.clk s).ppu with iolatch := d }.writeScroll d) ∧
    (a.toNat % 8 = 6 → (memWrite a d s).ppu = { (catchUp s.clk s).ppu with iolatch := d }.writeAddress d))

/-- A store to any other PPU register, at any of its mirrors, on the PPU brought up to the store, the byte kept in the I/O latch
(R251). Control (R252, R234 b): the latch, bits 11 and 10 of `t`, and an NMI at the time of the store if the enable bit rises with
the vertical-blank flag set, which ends the run at the next boundary. Mask (R253), status (nothing), OAM address (R255), OAM data
(R256), data port (R259). No other register raises an NMI, and nothing of the CPU changes. -/
def Obligations.PpuRegisterWrites : Prop :=
  ∀ (s : State) (a : Word) (d : Byte), PagesInstalled s → 0x2000 ≤ a.toNat → a.toNat < 0x4000 →
    let q := catchUp s.clk s
    let p := { q.ppu with iolatch := d }
    let t := memWrite a d s
    let raises := !q.ppu.ctrl.getLsbD 7 && d.getLsbD 7 && q.ppu.vbl
    t.cpu = s.cpu ∧ t.clk = s.clk ∧ t.mem = s.mem ∧
    (a.toNat % 8 = 0 →
      t.ppu = { p with ctrl := d, t := t.ppu.t } ∧
      (∀ k, t.ppu.t.getLsbD k =
        if k = 10 then d.getLsbD 0 else if k = 11 then d.getLsbD 1 else q.ppu.t.getLsbD k) ∧
      t.nmiTime = (if raises then some s.clk else q.nmiTime) ∧
      (raises = true → ∀ e, s.endCycle = some e → ∃ e', t.endCycle = some e' ∧ e' ≤ s.clk)) ∧
    (a.toNat % 8 = 1 → t.ppu = { p with mask := d }) ∧
    (a.toNat % 8 = 2 → t.ppu = p) ∧
    (a.toNat % 8 = 3 → t.ppu = { p with oamAddr := d }) ∧
    (a.toNat % 8 = 4 →
      t.ppu = { p with oam := t.ppu.oam, oamAddr := p.oamAddr + 1 } ∧
      ∀ k, t.ppu.oamByte k = if k = p.oamAddr.toNat then d else p.oamByte k) ∧
    (a.toNat % 8 = 7 →
      t.ppu = { p.write (p.v.toNat % 0x4000) d with
        v := BitVec.ofNat 15 ((p.v.toNat + if p.ctrl.getLsbD 2 then 32 else 1) % 0x8000) }) ∧
    (a.toNat % 8 ≠ 0 → t.nmiTime = q.nmiTime)

/-- A read of the data port, at any of its mirrors, on the PPU brought up to the read (R251, R259). Below the palette it returns the byte the previous read buffered and buffers the byte at `v`; the
address goes up by one or 32 modulo 2^15. At the palette the read is immediate and the buffer takes the nametable byte
underneath. -/
def Obligations.DataPortRead : Prop :=
  ∀ (s : State) (port : Word), PagesInstalled s → 0x2000 ≤ port.toNat → port.toNat < 0x4000 → port.toNat % 8 = 7 →
    let p := (catchUp s.clk s).ppu
    let r := memRead port s
    let step : Nat := if p.ctrl.getLsbD 2 then 32 else 1
    let a := p.v.toNat % 0x4000
    (a < 0x3F00 → r.1 = p.rdbuf ∧ r.2.ppu = { p with
      rdbuf := p.read a, v := BitVec.ofNat 15 ((p.v.toNat + step) % 0x8000) }) ∧
    (0x3F00 ≤ a → r.2.ppu = { p with
      rdbuf := p.read (a - 0x1000), v := BitVec.ofNat 15 ((p.v.toNat + step) % 0x8000) } ∧
      (∀ k, k < 6 → r.1.getLsbD k = (p.read a).getLsbD k) ∧
      (∀ k, 6 ≤ k → k < 8 → r.1.getLsbD k = p.iolatch.getLsbD k))

/-- The PPU's memory (R91, R280). A byte written through a palette address is read back, its low six bits, through exactly the
addresses of the same cell, entries 0x10, 0x14, 0x18 and 0x1C being 0x00, 0x04, 0x08 and 0x0C. A byte written through a nametable
address is read back through exactly the addresses `nt_map` sends to the same byte (R267), 0x3000 to 0x3EFF mirroring 0x2000 to
0x2EFF. Pattern memory (R277, R90): a byte written to writable memory is read back through exactly the addresses `chr_page` sends
to the same byte; a write to pattern ROM changes nothing; a read is the buffer's byte. No write changes anything else. The no-op
mapper shows pattern memory flat and arranges the nametables by the mirroring flag (R267, R298). -/
def Obligations.PpuAddressSpace : Prop :=
  (∀ (p : Ppu) (a b : Nat) (d : Byte), a < 0x4000 → b < 0x4000 →
    let q := p.write a d
    let cell := fun (n : Nat) => if n % 32 = 16 ∨ n % 32 = 20 ∨ n % 32 = 24 ∨ n % 32 = 28 then n % 16 else n % 32
    let tableByte := fun (n : Nat) => p.ntMap.getD (n / 0x400 % 4) 0 * 0x400 + n % 0x400
    let patternByte := fun (n : Nat) => p.chrPage.getD (n / 0x400) 0 % (p.chrBytes / 0x400) * 0x400 + n % 0x400
    (0x3F00 ≤ a →
      q = { p with palette := q.palette } ∧
      q.read b = if 0x3F00 ≤ b ∧ cell b = cell a then d &&& 0x3F#8 else p.read b) ∧
    (0x2000 ≤ a → a < 0x3F00 →
      q = { p with nt := q.nt } ∧
      q.read b = if 0x2000 ≤ b ∧ b < 0x3F00 ∧ tableByte b = tableByte a then d else p.read b) ∧
    (a < 0x2000 → p.chrWritable = true →
      q = { p with chr := q.chr } ∧
      q.read b = if b < 0x2000 ∧ patternByte b = patternByte a then d else p.read b) ∧
    (a < 0x2000 → p.chrWritable = false → q = p) ∧
    (0x3000 ≤ b → b < 0x3F00 → p.read b = p.read (b - 0x1000)) ∧
    (b < 0x2000 → ∀ c, Assoc.find (patternByte b) p.chr = some c → p.read b = c)) ∧
  (∀ (s : State) (k : Nat), s.cart.mapperId = 0 →
    let p := (applyMapping s).ppu
    (k < 8 → p.chrPage.getD k 0 = k) ∧
    (k < 4 → p.ntMap.getD k 0 =
      match s.cart.mirroring with
      | .horizontal => k / 2
      | .vertical => k % 2
      | .singleScreen bank => bank
      | .fourScreen => k))

/-- OAM DMA from any page (R317): with the PPU brought up to the store, the 256 bytes of the page are read through the page table in
ascending order and land in sprite memory from `oam_addr` on, modulo 256; `oam_addr` is kept, CPU-side memory and the registers are
kept, and the clock moves by 513 cycles. From a page of plain memory (work RAM, the cartridge's or a mapper variant's RAM (log entry
28), program ROM) byte `k` is the byte of the page, and of work RAM through any of its mirrors the cell itself (R302). -/
def Obligations.OamDmaCopiesPage : Prop :=
  ∀ (s : State) (page : Byte), PagesInstalled s →
    let t := memWrite 0x4014#16 page s
    let slot := fun (k : Nat) => (s.ppu.oamAddr.toNat + k) % 256
    let source := fun (k : Nat) => word 0 page + BitVec.ofNat 16 k
    let copy := fun (u : State) (k : Nat) =>
      let r := memRead (source k) u
      { r.2 with ppu := r.2.ppu.oamStore (slot k) r.1 }
    t = ((List.range 256).foldl copy (syncDevices s.clk s)).addClk 513 ∧
    t.ppu.oamAddr = s.ppu.oamAddr ∧ t.mem = s.mem ∧ t.mapperRam = s.mapperRam ∧ t.cpu = s.cpu ∧ t.clk = s.clk + 513 ∧
    (∀ base k, k < 256 →
      s.pageAt (source 0) = .workRam ∨ s.pageAt (source 0) = .cartRam base ∨ s.pageAt (source 0) = .mapperRam base ∨
        s.pageAt (source 0) = .prgRom base →
      t.ppu.oamByte (slot k) = s.fetch (source k)) ∧
    (∀ k, k < 256 → page.toNat < 0x20 → t.ppu.oamByte (slot k) = ramByte s (page.toNat * 256 + k))

/-! ## Input, mapper, host -/

/-- A joypad port read (R318): after the strobe is written one and then zero, the reads give the eight buttons in order and then
ones. `readPad1` iterated `n` times after the strobe, the next read's bit 0. -/
def Obligations.JoypadSerialOrder : Prop :=
  ∀ (s : State) (d1 d0 : Byte) (n : Nat), PagesInstalled s → d1.getLsbD 0 = true → d0.getLsbD 0 = false →
    let strobed := memWrite 0x4016#16 d0 (memWrite 0x4016#16 d1 s)
    let after := fun (port : Word) => Nat.repeat (fun u => (memRead port u).2) n strobed
    (memRead 0x4016#16 (after 0x4016#16)).1.getLsbD 0 = (if n < 8 then s.pads.bits1.getLsbD n else true) ∧
    (memRead 0x4017#16 (after 0x4017#16)).1.getLsbD 0 = (if n < 8 then s.pads.bits2.getLsbD n else true)

/-- `apply_mapping` is idempotent (R293), and restoring a snapshot (R52, R325) reproduces the bank assignments from the register block
and the cartridge, whatever CPU page table, character page table and nametable map were saved, brings the rest of the saved state
back and clears the error count. The arguments of the machine and the indices of the open values still to come stay as they now are,
the model's choice (log entry 22). -/
def Obligations.MappingIsDerived : Prop :=
  ∀ s now : State,
    applyMapping (applyMapping s) = applyMapping s ∧
    ∀ (junk : List Page) (chrJunk ntJunk : List Nat) (e : Nat),
      restoreSnapshot { applyMapping s with
        pageTable := junk, errorCount := e
        ppu := { (applyMapping s).ppu with chrPage := chrJunk, ntMap := ntJunk } } now =
      { applyMapping s with
        errorCount := 0, params := now.params, frames := now.frames, freeReads := now.freeReads }

/-- Reset by the host (R343, R344, R345, R347, R349; the values are the spec's decisions D17, D18, D19, D26). A full reset gives the
registers their power-up values and RAM the machine's `RAM_POWERUP`, an argument (log entry 6); a soft one keeps A, X, Y, the flags
but I, and RAM, and takes three off SP. Both set I, clear the counts, the times, the PPU's latches and its timing state, load PC from
the reset vector of the program then mapped, set the joypads to 0 (R48, D30), keep program memory, character ROM and the cartridge,
and keep battery-backed cartridge RAM unless `erase` is asked for: then it is 0x00. A soft one keeps palette, sprite memory,
nametables and character RAM. Four points are the model's choice: cartridge RAM without a battery is kept over every reset, a full
one too (log entry 7, DESIGN CHOICE); a mapper variant's own RAM is erased or kept likewise, whether the battery backs it being a
free fact of the variant (log entry 28, DESIGN CHOICE); every page is installed whatever the mapper variant (log entry 11,
DESIGN CHOICE); and the cells nothing has written keep their free bytes over a soft reset, `powerUps` and `cartPowerUps` being their indices
(log entries 10 and 27, DESIGN CHOICE). -/
def Obligations.HostReset : Prop :=
  ∀ (s : State) (full erase : Bool) (t : State), hostReset full erase s = t →
    t.cpu.pc = vectorAt t 0xFFFC#16 ∧ t.cpu.p.i = true ∧ t.clk = 0 ∧ t.endCycle = none ∧ t.errorCount = 0 ∧
    t.nmiTime = none ∧ t.irqTime = none ∧ t.mapper.clk = 0 ∧
    t.pads.bits1 = 0 ∧ t.pads.bits2 = 0 ∧ t.pads.pos1 = 0 ∧ t.pads.pos2 = 0 ∧ t.pads.strobe = false ∧
    t.ppu.ctrl = 0 ∧ t.ppu.mask = 0 ∧ t.ppu.vbl = false ∧ t.ppu.spr0hit = false ∧ t.ppu.sprovf = false ∧
    t.ppu.v = 0 ∧ t.ppu.t = 0 ∧ t.ppu.fx = 0 ∧ t.ppu.w = false ∧ t.ppu.oamAddr = 0 ∧ t.ppu.rdbuf = 0 ∧
    t.ppu.iolatch = 0 ∧ t.ppu.ppuClk = 0 ∧ t.ppu.phase = 0 ∧ t.ppu.oddFrame = false ∧ t.ppu.vblDone = false ∧
    t.ppu.renderedUntil = 0 ∧
    PagesInstalled t ∧ t.cart = s.cart ∧ t.params = s.params ∧
    (∀ k, 0x8000 ≤ k → Memory.read t.mem k = Memory.read s.mem k) ∧
    (s.cart.chrBytes ≠ 0 → t.ppu.chr = s.ppu.chr) ∧
    (∀ k, 0x6000 ≤ k → k < 0x8000 →
      Memory.read t.mem k = if erase = true ∧ s.cart.battery = true then 0x00#8 else Memory.read s.mem k) ∧
    (∀ k, t.mapperRam.byte k =
      if erase = true ∧ s.cart.battery = true ∧ Config.mapperRamPersistent s.cart.mapperId = true then 0x00#8
      else s.mapperRam.byte k) ∧
    (full = true → t.cpu.a = 0 ∧ t.cpu.x = 0 ∧ t.cpu.y = 0 ∧ t.cpu.sp = 0xFD#8 ∧
      t.cpu.p = { n := false, v := false, d := false, i := true, z := false, c := false } ∧
      ∀ k, k < 2048 → Memory.read t.mem k = s.params.ramPowerUp.getD k 0xFF#8) ∧
    (full = false → t.cpu.a = s.cpu.a ∧ t.cpu.x = s.cpu.x ∧ t.cpu.y = s.cpu.y ∧ t.cpu.sp = s.cpu.sp - 3 ∧
      t.cpu.p = { s.cpu.p with i := true } ∧ (∀ k, k < 2048 → Memory.read t.mem k = Memory.read s.mem k) ∧
      t.ppu.oam = s.ppu.oam ∧ t.ppu.nt = s.ppu.nt ∧ t.ppu.palette = s.ppu.palette ∧ t.ppu.chr = s.ppu.chr ∧
      t.ppu.powerUps = s.ppu.powerUps ∧ t.ppu.cartPowerUps = s.ppu.cartPowerUps)
end

