-- ==== Sys2Proof/Laws/Memory.lean ====
section
/-! SUPPORT. The laws of the two kinds of memory: a read after a write to the same cell gives the value written, a write
leaves every other cell alone, and every operation keeps the canonical form. -/

namespace Sys2Proof.Machine

variable {α : Type}

theorem Assoc.find_put_same (k : Nat) (v : α) (l : List (Nat × α)) :
    Assoc.find k (Assoc.put k v l) = some v := by
  induction l with
  | nil => simp [Assoc.put, Assoc.find]
  | cons c rest ih =>
    obtain ⟨k', v'⟩ := c
    simp only [Assoc.put]
    split
    · simp [Assoc.find]
    · split
      · simp [Assoc.find]
      · next h => simp [Assoc.find, Ne.symm h, ih]

theorem Assoc.find_put_ne {j k : Nat} (h : j ≠ k) (v : α) (l : List (Nat × α)) :
    Assoc.find j (Assoc.put k v l) = Assoc.find j l := by
  induction l with
  | nil => simp [Assoc.put, Assoc.find, Ne.symm h]
  | cons c rest ih =>
    obtain ⟨k', v'⟩ := c
    simp only [Assoc.put]
    split
    · simp [Assoc.find, Ne.symm h]
    · split
      · next hk => subst hk; simp [Assoc.find, Ne.symm h]
      · simp [Assoc.find, ih]

theorem Assoc.find_remove_same (k : Nat) (l : List (Nat × α)) :
    Assoc.find k (Assoc.remove k l) = none := by
  induction l with
  | nil => rfl
  | cons c rest ih =>
    obtain ⟨k', v'⟩ := c
    by_cases h : k' = k
    · simpa [Assoc.remove, h] using ih
    · simp only [Assoc.remove] at ih
      simp [Assoc.remove, h, Assoc.find, ih]

theorem Assoc.find_remove_ne {j k : Nat} (h : j ≠ k) (l : List (Nat × α)) :
    Assoc.find j (Assoc.remove k l) = Assoc.find j l := by
  induction l with
  | nil => rfl
  | cons c rest ih =>
    obtain ⟨k', v'⟩ := c
    simp only [Assoc.remove] at ih
    by_cases hk : k' = k
    · subst hk; simp [Assoc.remove, Assoc.find, ih, Ne.symm h]
    · simp [Assoc.remove, hk, Assoc.find, ih]

/-- A cell of `put` is the new one or one that was there. -/
theorem Assoc.mem_put {c : Nat × α} {k : Nat} {v : α} {l : List (Nat × α)}
    (h : c ∈ Assoc.put k v l) : c = (k, v) ∨ c ∈ l := by
  induction l with
  | nil => simpa [Assoc.put] using h
  | cons d rest ih =>
    obtain ⟨k', v'⟩ := d
    simp only [Assoc.put] at h
    split at h
    · simpa using h
    · split at h
      · simp only [List.mem_cons] at h ⊢
        rcases h with h | h
        · exact .inl h
        · exact .inr (.inr h)
      · simp only [List.mem_cons] at h ⊢
        rcases h with h | h
        · exact .inr (.inl h)
        · rcases ih h with h | h
          · exact .inl h
          · exact .inr (.inr h)

theorem Assoc.sorted_put {l : List (Nat × α)} (k : Nat) (v : α) (h : Assoc.sorted l) :
    Assoc.sorted (Assoc.put k v l) := by
  induction l with
  | nil => simp [Assoc.put, Assoc.sorted]
  | cons d rest ih =>
    obtain ⟨k', v'⟩ := d
    have hr : Assoc.sorted rest := (List.pairwise_cons.1 h).2
    have hd : ∀ b ∈ rest, k' < b.1 := (List.pairwise_cons.1 h).1
    simp only [Assoc.put]
    split
    · next hk =>
      refine List.pairwise_cons.2 ⟨?_, h⟩
      intro b hb
      rcases List.mem_cons.1 hb with rfl | hb
      · exact hk
      · exact Nat.lt_trans hk (hd b hb)
    · split
      · next hk => subst hk; exact List.pairwise_cons.2 ⟨hd, hr⟩
      · refine List.pairwise_cons.2 ⟨?_, ih hr⟩
        intro b hb
        rcases Assoc.mem_put hb with rfl | hb
        · simp only; omega
        · exact hd b hb

theorem Assoc.sorted_remove {l : List (Nat × α)} (k : Nat) (h : Assoc.sorted l) :
    Assoc.sorted (Assoc.remove k l) := List.Pairwise.filter _ h

/-! ## The CPU-side memory -/

theorem Memory.read_write_same (m : Memory) (k : Nat) (v : Byte) :
    Memory.read (Memory.write m k v) k = v := by
  unfold Memory.read Memory.write
  split
  · next h => simp [Assoc.find_remove_same, h]
  · simp [Assoc.find_put_same]

theorem Memory.read_write_ne {j k : Nat} (h : j ≠ k) (m : Memory) (v : Byte) :
    Memory.read (Memory.write m k v) j = Memory.read m j := by
  unfold Memory.read Memory.write
  split
  · simp [Assoc.find_remove_ne h]
  · simp [Assoc.find_put_ne h]

theorem Memory.read_write (m : Memory) (j k : Nat) (v : Byte) :
    Memory.read (Memory.write m k v) j = if j = k then v else Memory.read m j := by
  split
  · next h => subst h; exact Memory.read_write_same m j v
  · next h => exact Memory.read_write_ne h m v

theorem Memory.wf_write {m : Memory} (h : Memory.wf m) (k : Nat) (v : Byte) :
    Memory.wf (Memory.write m k v) := by
  unfold Memory.write
  split
  · exact ⟨Assoc.sorted_remove k h.1, fun c hc => h.2 c (List.mem_filter.1 hc).1⟩
  · next hv =>
    refine ⟨Assoc.sorted_put k v h.1, fun c hc => ?_⟩
    rcases Assoc.mem_put hc with rfl | hc
    · exact hv
    · exact h.2 c hc

theorem Memory.wf_forget {m : Memory} (h : Memory.wf m) (drop : Nat → Bool) :
    Memory.wf (Memory.forget m drop) :=
  ⟨List.Pairwise.filter _ h.1, fun c hc => h.2 c (List.mem_filter.1 hc).1⟩

theorem Memory.wf_load {m : Memory} (h : Memory.wf m) (k : Nat) (bs : List Byte) : Memory.wf (Memory.load k bs m) := by
  induction bs generalizing m k with
  | nil => exact h
  | cons b bs ih => exact ih (Memory.wf_write h k b) (k + 1)

/-- After a load of bytes a cell holds its byte of them, or what it held. -/
theorem Memory.read_load (m : Memory) (k : Nat) (bs : List Byte) (j : Nat) :
    Memory.read (Memory.load k bs m) j = if k ≤ j then bs.getD (j - k) (Memory.read m j) else Memory.read m j := by
  induction bs generalizing m k with
  | nil => simp [Memory.load]
  | cons b bs ih =>
    rw [Memory.load, ih, Memory.read_write]
    by_cases hj : j = k
    · subst hj
      rw [if_neg (by omega), if_pos rfl, if_pos (Nat.le_refl _), Nat.sub_self]
      rfl
    · rw [if_neg hj]
      by_cases hk : k ≤ j
      · obtain ⟨n, rfl⟩ : ∃ n, j = k + 1 + n := ⟨j - (k + 1), by omega⟩
        rw [if_pos (by omega), if_pos hk, show k + 1 + n - (k + 1) = n by omega, show k + 1 + n - k = n + 1 by omega]
        rfl
      · rw [if_neg (by omega), if_neg hk]

theorem Assoc.find_filter (keep : Nat → Bool) (k : Nat) (l : List (Nat × α)) :
    Assoc.find k (l.filter (fun c => keep c.1)) = if keep k then Assoc.find k l else none := by
  induction l with
  | nil => simp [Assoc.find]
  | cons c rest ih =>
    obtain ⟨k', v⟩ := c
    by_cases hk : k' = k
    · subst hk
      cases h : keep k'
      · simp [h] at ih ⊢; exact ih
      · simp [h, Assoc.find]
    · cases h : keep k' <;> simp [h, Assoc.find, hk, ih]

theorem Memory.read_forget (m : Memory) (drop : Nat → Bool) (k : Nat) :
    Memory.read (Memory.forget m drop) k = if drop k then Memory.blank k else Memory.read m k := by
  unfold Memory.read Memory.forget
  rw [Assoc.find_filter (fun k => !drop k)]
  cases drop k <;> simp

/-! ## A mapper variant's own RAM -/

/-- A read after a write. -/
theorem MapperRam.byte_store (m : MapperRam) (j k : Nat) (v : Byte) :
    (m.store k v).byte j = if j = k then v else m.byte j := by
  unfold MapperRam.byte MapperRam.store
  split
  · next h => simp only [h, Assoc.find_put_same, Option.getD_some]
  · next h => simp only [Assoc.find_put_ne h]

/-- A store keeps the order of the cells. -/
theorem MapperRam.sorted_store {m : MapperRam} (h : Assoc.sorted m.cells) (k : Nat) (v : Byte) :
    Assoc.sorted (m.store k v).cells := Assoc.sorted_put k v h

/-- So does a load. -/
theorem MapperRam.sorted_load {m : MapperRam} (h : Assoc.sorted m.cells) (bytes : List Byte) :
    Assoc.sorted (m.load bytes).cells := by
  unfold MapperRam.load
  generalize bytes.zipIdx = l
  induction l generalizing m with
  | nil => exact h
  | cons b bs ih => exact ih (MapperRam.sorted_store h _ _)

end Sys2Proof.Machine
end

