-- ==== Sys2Proof/Laws/Ppu.lean ====
section
/-! SUPPORT. What the PPU's dots can and cannot change, and the arithmetic of its clock. -/

namespace Sys2Proof.Machine

/-- A read of sprite memory after a write (R42). -/
theorem Ppu.oamByte_oamStore (p : Ppu) (j k : Nat) (d : Byte) :
    (p.oamStore k d).oamByte j = if j = k then d else p.oamByte j := by
  unfold Ppu.oamByte Ppu.cell Ppu.oamStore
  split
  · next h => simp only [h, Assoc.find_put_same, Option.getD_some]
  · next h => simp only [Assoc.find_put_ne h]; rfl

/-- After a load nothing of the nametable memory past the 2KB on chip survives (R42; log entry 27). -/
theorem Ppu.afterLoad_nt (p : Ppu) (index : Nat) (chr : List Byte) {k : Nat} (hk : onChipNametableBytes ≤ k) :
    (p.afterLoad index chr).cell .nametable (p.afterLoad index chr).nt k = Config.powerUpByte index .nametable k := by
  have none : ∀ l : Cells, Assoc.find k (l.filter (fun c => c.1 < onChipNametableBytes)) = none := by
    intro l
    induction l with
    | nil => rfl
    | cons c rest ih =>
      obtain ⟨j, v⟩ := c
      by_cases hj : j < onChipNametableBytes
      · simp [hj, Assoc.find, show j ≠ k by omega, ih]
      · simp [hj, ih]
  unfold Ppu.cell Ppu.indexOf Ppu.afterLoad
  simp only [none, Option.getD_none, if_neg (Nat.not_lt.2 hk)]

/-- What no dot of the PPU changes: everything but the picture, the sprite-zero-hit flag, `v`, and the two timing
notes. -/
structure DotFrame (p q : Ppu) : Prop where
  ctrl : q.ctrl = p.ctrl
  mask : q.mask = p.mask
  vbl : q.vbl = p.vbl
  sprovf : q.sprovf = p.sprovf
  t : q.t = p.t
  fx : q.fx = p.fx
  w : q.w = p.w
  oamAddr : q.oamAddr = p.oamAddr
  rdbuf : q.rdbuf = p.rdbuf
  iolatch : q.iolatch = p.iolatch
  palette : q.palette = p.palette
  oam : q.oam = p.oam
  nt : q.nt = p.nt
  chr : q.chr = p.chr
  chrBytes : q.chrBytes = p.chrBytes
  chrWritable : q.chrWritable = p.chrWritable
  chrPage : q.chrPage = p.chrPage
  ntMap : q.ntMap = p.ntMap
  phase : q.phase = p.phase
  oddFrame : q.oddFrame = p.oddFrame
  vblDone : q.vblDone = p.vblDone
  powerUps : q.powerUps = p.powerUps
  cartPowerUps : q.cartPowerUps = p.cartPowerUps
  buffer : q.video.buffer = p.video.buffer

theorem DotFrame.refl (p : Ppu) : DotFrame p p := by constructor <;> rfl

theorem DotFrame.trans {p q r : Ppu} (h : DotFrame p q) (k : DotFrame q r) : DotFrame p r := by
  constructor
  · exact k.ctrl.trans h.ctrl
  · exact k.mask.trans h.mask
  · exact k.vbl.trans h.vbl
  · exact k.sprovf.trans h.sprovf
  · exact k.t.trans h.t
  · exact k.fx.trans h.fx
  · exact k.w.trans h.w
  · exact k.oamAddr.trans h.oamAddr
  · exact k.rdbuf.trans h.rdbuf
  · exact k.iolatch.trans h.iolatch
  · exact k.palette.trans h.palette
  · exact k.oam.trans h.oam
  · exact k.nt.trans h.nt
  · exact k.chr.trans h.chr
  · exact k.chrBytes.trans h.chrBytes
  · exact k.chrWritable.trans h.chrWritable
  · exact k.chrPage.trans h.chrPage
  · exact k.ntMap.trans h.ntMap
  · exact k.phase.trans h.phase
  · exact k.oddFrame.trans h.oddFrame
  · exact k.vblDone.trans h.vblDone
  · exact k.powerUps.trans h.powerUps
  · exact k.cartPowerUps.trans h.cartPowerUps
  · exact k.buffer.trans h.buffer

theorem Video.writeRow_buffer (o : Video) (y : Nat) (row : List Nat) : (o.writeRow y row).buffer = o.buffer := by
  unfold Video.writeRow; split <;> simp_all

theorem Ppu.drawRow_frame (p : Ppu) (y : Nat) : DotFrame p (p.drawRow y) := by
  constructor <;> first | rfl | exact Video.writeRow_buffer _ _ _

theorem Ppu.preRenderDot_frame (p : Ppu) (d : Nat) : DotFrame p (p.preRenderDot d) := by
  unfold Ppu.preRenderDot
  repeat' split
  all_goals constructor <;> rfl

theorem Ppu.visibleDot_frame (p : Ppu) (y d : Nat) : DotFrame p (p.visibleDot y d) := by
  unfold Ppu.visibleDot
  split
  · exact p.drawRow_frame y
  · repeat' split
    all_goals constructor <;> rfl

theorem Ppu.hitDot_frame (p : Ppu) (n : Nat) : DotFrame p (p.hitDot n) := by
  unfold Ppu.hitDot
  split <;> (constructor <;> rfl)

theorem Ppu.lineDot_frame (p : Ppu) (line dot : Nat) : DotFrame p (p.lineDot line dot) := by
  unfold Ppu.lineDot
  split
  · exact p.preRenderDot_frame dot
  · split
    · exact p.visibleDot_frame _ dot
    · exact .refl p

theorem Ppu.atDot_frame (p : Ppu) (n : Nat) : DotFrame p (p.atDot n) :=
  (p.hitDot_frame n).trans (Ppu.lineDot_frame _ _ _)

theorem Ppu.runDots_frame (k n : Nat) (p : Ppu) : DotFrame p (Ppu.runDots k n p) := by
  induction k generalizing n p with
  | zero => exact .refl p
  | succ k ih => exact (p.atDot_frame n).trans (ih (n + 1) (p.atDot n))

theorem Ppu.renderUntil_frame (p : Ppu) (T : Nat) : DotFrame p (p.renderUntil T) := by
  unfold Ppu.renderUntil
  split
  · have h := Ppu.runDots_frame (p.dotsBefore T - p.dotsBefore p.renderedUntil) (p.dotsBefore p.renderedUntil) p
    exact { h with }
  · exact .refl p

theorem Ppu.finishFrame_frame (p : Ppu) : DotFrame p p.finishFrame := Ppu.runDots_frame _ _ p

theorem DotFrame.vblTime {p q : Ppu} (h : DotFrame p q) : q.vblTime = p.vblTime := by
  simp [Ppu.vblTime, h.phase]

theorem DotFrame.dotsBefore {p q : Ppu} (h : DotFrame p q) (T : Nat) : q.dotsBefore T = p.dotsBefore T := by
  simp [Ppu.dotsBefore, Ppu.dotAt, h.phase]

theorem DotFrame.rendering {p q : Ppu} (h : DotFrame p q) : q.rendering = p.rendering := by
  simp [Ppu.rendering, h.mask]

/-- Running `j + k` dots is running `j`, then `k` (R266: batching is not observable). -/
theorem Ppu.runDots_add (j k n : Nat) (p : Ppu) :
    Ppu.runDots (j + k) n p = Ppu.runDots k (n + j) (Ppu.runDots j n p) := by
  induction j generalizing n p with
  | zero => simp [Ppu.runDots]
  | succ j ih =>
    rw [Nat.succ_add]
    simp only [Ppu.runDots]
    rw [ih]
    congr 1
    omega

theorem Ppu.dotsBefore_mono (p : Ppu) {a b : Nat} (h : a ≤ b) : p.dotsBefore a ≤ p.dotsBefore b := by
  simp only [Ppu.dotsBefore, Ppu.dotAt, Config.ppuRatio]
  split <;> split <;> omega

/-- The clock notes of a rendering, to which dots are blind. -/
def Ppu.withNotes (p : Ppu) (c r : Nat) : Ppu := { p with ppuClk := c, renderedUntil := r }

theorem Ppu.atDot_notes (p : Ppu) (n c r : Nat) : (p.withNotes c r).atDot n = (p.atDot n).withNotes c r := by
  have hit : (p.withNotes c r).hitDot n = (p.hitDot n).withNotes c r := by
    unfold Ppu.hitDot Ppu.withNotes; split <;> rfl
  have pre : ∀ (q : Ppu) (d : Nat), (q.withNotes c r).preRenderDot d = (q.preRenderDot d).withNotes c r := by
    intro q d
    unfold Ppu.preRenderDot
    split
    · rfl
    · rw [apply_ite (fun p : Ppu => p.withNotes c r)]
      refine ite_congr rfl (fun _ => rfl) (fun _ => ?_)
      repeat' (rw [apply_ite (fun p : Ppu => p.withNotes c r)]; refine ite_congr rfl (fun _ => rfl) (fun _ => ?_))
      rfl
  have vis : ∀ (q : Ppu) (y d : Nat), (q.withNotes c r).visibleDot y d = (q.visibleDot y d).withNotes c r := by
    intro q y d
    unfold Ppu.visibleDot
    repeat' (rw [apply_ite (fun p : Ppu => p.withNotes c r)]; refine ite_congr rfl (fun _ => rfl) (fun _ => ?_))
    rfl
  unfold Ppu.atDot Ppu.lineDot
  rw [hit]
  repeat' (rw [apply_ite (fun p : Ppu => p.withNotes c r)])
  rw [pre, vis]
  rfl

theorem Ppu.runDots_notes (k n c r : Nat) (p : Ppu) :
    Ppu.runDots k n (p.withNotes c r) = (Ppu.runDots k n p).withNotes c r := by
  induction k generalizing n p with
  | zero => rfl
  | succ k ih => simp only [Ppu.runDots]; rw [Ppu.atDot_notes, ih]

/-- With rendering disabled no dot moves `v` (R271). -/
theorem Ppu.atDot_v (p : Ppu) (n : Nat) (h : p.rendering = false) : (p.atDot n).v = p.v := by
  have h1 : (p.hitDot n).v = p.v := by unfold Ppu.hitDot; split <;> rfl
  have h2 : (p.hitDot n).rendering = false := by rw [(p.hitDot_frame n).rendering, h]
  rw [← h1]
  unfold Ppu.atDot Ppu.lineDot
  generalize p.hitDot n = q at h2
  split
  · unfold Ppu.preRenderDot; simp only [h2]; split <;> rfl
  · split
    · unfold Ppu.visibleDot; simp only [h2]; split <;> rfl
    · rfl

theorem Ppu.runDots_v (k n : Nat) (p : Ppu) (h : p.rendering = false) : (Ppu.runDots k n p).v = p.v := by
  induction k generalizing n p with
  | zero => rfl
  | succ k ih =>
    simp only [Ppu.runDots]
    rw [ih _ _ (by rw [(p.atDot_frame n).rendering, h]), p.atDot_v n h]

theorem Ppu.renderUntil_v (p : Ppu) (T : Nat) (h : p.rendering = false) : (p.renderUntil T).v = p.v := by
  unfold Ppu.renderUntil
  split
  · exact Ppu.runDots_v _ _ p h
  · rfl

/-- Whether the frame drops its dot is settled once line 0 has passed its dot 339 (R264). -/
theorem Ppu.atDot_shortened (p : Ppu) (n : Nat) (h : 340 ≤ n) : (p.atDot n).shortened = p.shortened := by
  have h1 : (p.hitDot n).shortened = p.shortened := by unfold Ppu.hitDot; split <;> rfl
  have hp : (p.position n).1 ≠ 0 ∨ (p.position n).2 ≠ 339 := by
    simp only [Ppu.position, Config.dotsPerLine]
    split <;> omega
  rw [← h1]
  unfold Ppu.atDot Ppu.lineDot
  generalize p.hitDot n = q
  split
  · next h0 =>
    have h339 : (p.position n).2 ≠ 339 := by rcases hp with hp | hp; exact absurd h0 hp; exact hp
    unfold Ppu.preRenderDot
    rw [if_neg h339]
    repeat' split
    all_goals rfl
  · split
    · unfold Ppu.visibleDot
      repeat' split
      all_goals rfl
    · rfl

theorem Ppu.runDots_shortened (k n : Nat) (p : Ppu) (h : 340 ≤ n) : (Ppu.runDots k n p).shortened = p.shortened := by
  induction k generalizing n p with
  | zero => rfl
  | succ k ih => simp only [Ppu.runDots]; rw [ih _ _ (by omega), p.atDot_shortened n h]

theorem Ppu.renderUntil_reaches (p : Ppu) (T : Nat) : T ≤ (p.renderUntil T).renderedUntil := by
  unfold Ppu.renderUntil
  split
  · exact Nat.le_refl _
  · next h => exact Nat.not_lt.1 h

/-- The rest of a frame that has been drawn up to its end leaves its length as it is (R282). -/
theorem Ppu.finishFrame_frameLen (p : Ppu) (h : p.phase < 3) (hr : p.frameLen ≤ p.renderedUntil) :
    p.finishFrame.frameLen = p.frameLen := by
  have hs : p.finishFrame.shortened = p.shortened := by
    refine Ppu.runDots_shortened _ _ p ?_
    have : 29000 ≤ p.renderedUntil := by
      simp only [Ppu.frameLen, Ppu.frameDots, Config.frameDots, Config.shortFrameDots] at hr
      split at hr <;> omega
    simp only [Ppu.dotsBefore, Ppu.dotAt, Config.ppuRatio]
    split <;> omega
  simp only [Ppu.frameLen, Ppu.frameDots, hs, p.finishFrame_frame.phase]

end Sys2Proof.Machine
end

