-- ==== Sys2Proof/Laws/Ports.lean ====
section
/-! SUPPORT. What the device handlers can and cannot change: one frame for everything a read can do, one for everything a
write can do, and the lemmas that each handler stays within it. -/

namespace Sys2Proof.Machine

/-- A stop time was kept or lowered (R37, R239). -/
def EndLowered (e e' : Option Nat) : Prop :=
  match e, e' with
  | none, none => True
  | some a, some b => b ≤ a
  | _, _ => False

theorem EndLowered.refl (e : Option Nat) : EndLowered e e := by cases e <;> simp [EndLowered]

theorem EndLowered.trans {a b c : Option Nat} (h : EndLowered a b) (k : EndLowered b c) : EndLowered a c := by
  cases a <;> cases b <;> cases c <;> simp_all [EndLowered] <;> omega

/-- Everything a read handler leaves alone (R62, R63, R80). -/
structure ReadFrame (s t : State) : Prop where
  cpu : t.cpu = s.cpu
  clk : t.clk = s.clk
  lastStop : t.lastStop = s.lastStop
  errorCount : t.errorCount = s.errorCount
  pageTable : t.pageTable = s.pageTable
  mem : t.mem = s.mem
  cart : t.cart = s.cart
  params : t.params = s.params
  mapper : s.cart.mapperId = 0 → t.mapper = s.mapper
  mapperRam : t.mapperRam = s.mapperRam
  irqTime : t.irqTime = s.irqTime
  apu : t.apu = s.apu
  inFrame : t.inFrame = s.inFrame
  frameResult : t.frameResult = s.frameResult
  frames : t.frames = s.frames
  endCycle : EndLowered s.endCycle t.endCycle
  phase : t.ppu.phase = s.ppu.phase
  bits1 : t.pads.bits1 = s.pads.bits1
  bits2 : t.pads.bits2 = s.pads.bits2
  strobe : t.pads.strobe = s.pads.strobe
  pos1 : s.pads.pos1 ≤ 8 → t.pads.pos1 ≤ 8
  pos2 : s.pads.pos2 ≤ 8 → t.pads.pos2 ≤ 8

theorem ReadFrame.refl (s : State) : ReadFrame s s := by
  constructor <;> first | rfl | exact EndLowered.refl _ | exact id | exact fun _ => rfl

theorem ReadFrame.trans {s t u : State} (h : ReadFrame s t) (k : ReadFrame t u) : ReadFrame s u := by
  constructor
  · exact k.cpu.trans h.cpu
  · exact k.clk.trans h.clk
  · exact k.lastStop.trans h.lastStop
  · exact k.errorCount.trans h.errorCount
  · exact k.pageTable.trans h.pageTable
  · exact k.mem.trans h.mem
  · exact k.cart.trans h.cart
  · exact k.params.trans h.params
  · exact fun e => (k.mapper (by rw [h.cart]; exact e)).trans (h.mapper e)
  · exact k.mapperRam.trans h.mapperRam
  · exact k.irqTime.trans h.irqTime
  · exact k.apu.trans h.apu
  · exact k.inFrame.trans h.inFrame
  · exact k.frameResult.trans h.frameResult
  · exact k.frames.trans h.frames
  · exact h.endCycle.trans k.endCycle
  · exact k.phase.trans h.phase
  · exact k.bits1.trans h.bits1
  · exact k.bits2.trans h.bits2
  · exact k.strobe.trans h.strobe
  · exact k.pos1 ∘ h.pos1
  · exact k.pos2 ∘ h.pos2

theorem irqChanged_endCycle (t : Option Nat) (s : State) : EndLowered s.endCycle (irqChanged t s).endCycle := by
  unfold irqChanged
  split
  · next h =>
    rw [h]
    exact Nat.min_le_left _ _
  · exact .refl _

theorem irqChanged_eq (t : Option Nat) (s : State) :
    irqChanged t s = { s with endCycle := (irqChanged t s).endCycle } := by
  unfold irqChanged; split <;> rfl

theorem irqChanged_frame (t : Option Nat) (s : State) : ReadFrame s (irqChanged t s) := by
  have h := irqChanged_endCycle t s
  rw [irqChanged_eq t s] at h ⊢
  constructor <;> first | rfl | exact h | exact id | exact fun _ => rfl

/-- A change to the PPU that keeps its phase is within the frame of a read. -/
theorem withPpu_frame (s : State) (p : Ppu) (h : p.phase = s.ppu.phase) : ReadFrame s { s with ppu := p } := by
  constructor <;> first | rfl | exact h | exact EndLowered.refl _ | exact id | exact fun _ => rfl

theorem raiseNmi_frame (t : Nat) (s : State) : ReadFrame s (raiseNmi t s) := by
  have h : ReadFrame s { s with nmiTime := some (t + Config.nmiDelay) } := by
    constructor <;> first | rfl | exact EndLowered.refl _ | exact id | exact fun _ => rfl
  exact h.trans (irqChanged_frame _ _)

theorem vblEvent_frame (s : State) : ReadFrame s (vblEvent s) := by
  have h : ReadFrame s { s with ppu := { s.ppu with vbl := true, vblDone := true } } := withPpu_frame s _ rfl
  unfold vblEvent
  simp only
  split
  · exact h.trans (raiseNmi_frame _ _)
  · exact h

theorem catchUp_frame (T : Nat) (s : State) : ReadFrame s (catchUp T s) := by
  have h : ReadFrame s { s with ppu := s.ppu.renderUntil T } := withPpu_frame s _ (s.ppu.renderUntil_frame T).phase
  unfold catchUp
  simp only
  split
  · exact h.trans (vblEvent_frame _)
  · exact h

theorem mapperRunUntil_eq (T : Nat) (s : State) : mapperRunUntil T s = { s with mapper := (mapperRunUntil T s).mapper } := by
  unfold mapperRunUntil; split <;> rfl

/-- The mapper's timers touch the mapper alone, and not that of the no-op variant (R295, R298). -/
theorem mapperRunUntil_frame (T : Nat) (s : State) : ReadFrame s (mapperRunUntil T s) := by
  have h : s.cart.mapperId = 0 → (mapperRunUntil T s).mapper = s.mapper := by
    intro e; unfold mapperRunUntil; rw [if_pos e]
  rw [mapperRunUntil_eq]
  constructor <;> first | rfl | exact EndLowered.refl _ | exact id | exact h

theorem syncDevices_frame (T : Nat) (s : State) : ReadFrame s (syncDevices T s) :=
  (catchUp_frame T s).trans (mapperRunUntil_frame _ _)

/-- Synchronising the mapper leaves the PPU as the catching up has it. -/
@[simp] theorem syncDevices_ppu (T : Nat) (s : State) : (syncDevices T s).ppu = (catchUp T s).ppu := by
  unfold syncDevices; rw [mapperRunUntil_eq]

theorem takeFree_frame (s : State) : ReadFrame s (takeFree s).2 := by
  constructor <;> first | rfl | exact EndLowered.refl _ | exact id | exact fun _ => rfl

theorem readStatus_frame (T : Nat) (s : State) : ReadFrame s (readStatus T s).2 :=
  (takeFree_frame s).trans (withPpu_frame _ _ rfl)

theorem ppuRegRead_frame (r : Nat) (s : State) : ReadFrame s (ppuRegRead r s).2 := by
  have h := syncDevices_frame s.clk s
  unfold ppuRegRead
  simp only
  split
  · exact h.trans (readStatus_frame _ _)
  · exact h
  · refine h.trans (withPpu_frame _ _ ?_)
    unfold Ppu.readData Ppu.stepAddress
    simp only
    split <;> rfl
  · exact h

theorem padNext_le (strobe : Bool) (pos : Nat) (h : pos ≤ 8) : padNext strobe pos ≤ 8 := by
  unfold padNext; repeat' split
  all_goals omega

theorem readPad1_frame (s : State) : ReadFrame s (readPad1 s).2 := by
  constructor <;> first | rfl | exact EndLowered.refl _ | exact id | exact fun _ => rfl | skip
  intro h
  exact padNext_le _ _ (by split <;> omega)

theorem readPad2_frame (s : State) : ReadFrame s (readPad2 s).2 := by
  constructor <;> first | rfl | exact EndLowered.refl _ | exact id | exact fun _ => rfl | skip
  intro h
  exact padNext_le _ _ (by split <;> omega)

theorem ioRead_frame (a : Word) (s : State) : ReadFrame s (ioRead a s).2 := by
  unfold ioRead
  split
  · exact readPad1_frame s
  · split
    · exact readPad2_frame s
    · exact takeFree_frame s

/-- Everything a `MemRead` leaves alone. -/
theorem memRead_frame (a : Word) (s : State) : ReadFrame s (memRead a s).2 := by
  unfold memRead
  split
  · exact .refl s
  · exact .refl s
  · exact .refl s
  · exact .refl s
  · exact ppuRegRead_frame _ s
  · exact ioRead_frame a s
  · exact takeFree_frame s
  · exact takeFree_frame s

/-! ## Writes -/

/-- Everything a write handler leaves alone (R63, R305). The page table stays or is issued again by the mapper
(R68). -/
structure WriteFrame (s t : State) : Prop where
  cpu : t.cpu = s.cpu
  clk : s.clk ≤ t.clk
  lastStop : t.lastStop = s.lastStop
  errorCount : t.errorCount = s.errorCount
  pageTable : t.pageTable = s.pageTable ∨ ∃ m, t.pageTable = pageTableOf m
  rom : ∀ k, prgKey ≤ k → Memory.read t.mem k = Memory.read s.mem k
  wf : Memory.wf s.mem → Memory.wf t.mem
  sorted : Assoc.sorted s.mapperRam.cells → Assoc.sorted t.mapperRam.cells
  cart : t.cart = s.cart
  params : t.params = s.params
  irqTime : t.irqTime = s.irqTime
  inFrame : t.inFrame = s.inFrame
  frameResult : t.frameResult = s.frameResult
  frames : t.frames = s.frames
  endCycle : EndLowered s.endCycle t.endCycle
  phase : t.ppu.phase = s.ppu.phase
  bits1 : t.pads.bits1 = s.pads.bits1
  bits2 : t.pads.bits2 = s.pads.bits2
  pos1 : s.pads.pos1 ≤ 8 → t.pads.pos1 ≤ 8
  pos2 : s.pads.pos2 ≤ 8 → t.pads.pos2 ≤ 8

theorem ReadFrame.toWrite {s t : State} (h : ReadFrame s t) : WriteFrame s t where
  cpu := h.cpu
  clk := Nat.le_of_eq h.clk.symm
  lastStop := h.lastStop
  errorCount := h.errorCount
  pageTable := .inl h.pageTable
  rom := fun k _ => by rw [h.mem]
  wf := fun w => by rw [h.mem]; exact w
  sorted := fun w => by rw [h.mapperRam]; exact w
  cart := h.cart
  params := h.params
  irqTime := h.irqTime
  inFrame := h.inFrame
  frameResult := h.frameResult
  frames := h.frames
  endCycle := h.endCycle
  phase := h.phase
  bits1 := h.bits1
  bits2 := h.bits2
  pos1 := h.pos1
  pos2 := h.pos2

theorem WriteFrame.refl (s : State) : WriteFrame s s := (ReadFrame.refl s).toWrite

theorem WriteFrame.trans {s t u : State} (h : WriteFrame s t) (k : WriteFrame t u) : WriteFrame s u where
  cpu := k.cpu.trans h.cpu
  clk := Nat.le_trans h.clk k.clk
  lastStop := k.lastStop.trans h.lastStop
  errorCount := k.errorCount.trans h.errorCount
  pageTable := by
    rcases k.pageTable with e | e
    · rw [e]; exact h.pageTable
    · exact .inr e
  rom := fun j hj => (k.rom j hj).trans (h.rom j hj)
  wf := k.wf ∘ h.wf
  sorted := k.sorted ∘ h.sorted
  cart := k.cart.trans h.cart
  params := k.params.trans h.params
  irqTime := k.irqTime.trans h.irqTime
  inFrame := k.inFrame.trans h.inFrame
  frameResult := k.frameResult.trans h.frameResult
  frames := k.frames.trans h.frames
  endCycle := h.endCycle.trans k.endCycle
  phase := k.phase.trans h.phase
  bits1 := k.bits1.trans h.bits1
  bits2 := k.bits2.trans h.bits2
  pos1 := k.pos1 ∘ h.pos1
  pos2 := k.pos2 ∘ h.pos2

theorem writeControl_frame (T : Nat) (d : Byte) (s : State) : ReadFrame s (writeControl T d s) := by
  have h : ReadFrame s { s with ppu := { s.ppu with ctrl := d, t := tAfterControl s.ppu.t d } } :=
    withPpu_frame s _ rfl
  unfold writeControl
  simp only
  split
  · exact h.trans (raiseNmi_frame _ _)
  · exact h

theorem notifyIrq_frame (s : State) : ReadFrame s (notifyIrq s) := irqChanged_frame _ s

/-- A write to a PPU register stays within the frame of a read: it touches the PPU and the interrupt times only. -/
theorem ppuRegWrite_frame (r : Nat) (d : Byte) (s : State) : ReadFrame s (ppuRegWrite r d s) := by
  have h := (syncDevices_frame s.clk s).trans
    (withPpu_frame (syncDevices s.clk s) { (syncDevices s.clk s).ppu with iolatch := d } rfl)
  unfold ppuRegWrite
  simp only
  split
  · exact h.trans ((writeControl_frame _ _ _).trans (notifyIrq_frame _))
  · refine h.trans (.trans ?_ (notifyIrq_frame _))
    exact withPpu_frame _ _ rfl
  · exact h.trans (withPpu_frame _ _ rfl)
  · exact h.trans (withPpu_frame _ _ rfl)
  · refine h.trans (withPpu_frame _ _ ?_)
    unfold Ppu.writeScroll; split <;> rfl
  · refine h.trans (withPpu_frame _ _ ?_)
    unfold Ppu.writeAddress; split <;> rfl
  · refine h.trans (withPpu_frame _ _ ?_)
    simp only [Ppu.writeData, Ppu.stepAddress, Ppu.write]
    repeat' split
    all_goals rfl
  · exact h

theorem applyMapping_frame (s : State) : WriteFrame s (applyMapping s) := by
  have h := WriteFrame.refl s
  exact { h with pageTable := .inr ⟨_, rfl⟩ }

theorem mapperTakes_frame (a : Word) (d : Byte) (s : State) : WriteFrame s (mapperTakes a d s) := by
  have h := WriteFrame.refl s
  exact { h with }

theorem mapperWrite_frame (a : Word) (d : Byte) (s : State) : WriteFrame s (mapperWrite a d s) := by
  unfold mapperWrite
  split
  · exact .refl s
  · exact (syncDevices_frame _ s).toWrite.trans ((mapperTakes_frame a d _).trans
      ((applyMapping_frame _).trans (notifyIrq_frame _).toWrite))

theorem apuTakes_frame (a : Word) (d : Byte) (s : State) : WriteFrame s (apuTakes a d s) := by
  have h := WriteFrame.refl s
  exact { h with }

theorem apuRunUntil_frame (T : Nat) (s : State) : WriteFrame s (apuRunUntil T s) := by
  have h := WriteFrame.refl s
  exact { h with }

theorem apuWrite_frame (a : Word) (d : Byte) (s : State) : WriteFrame s (apuWrite a d s) := by
  unfold apuWrite
  split
  · exact .refl s
  · exact (syncDevices_frame _ s).toWrite.trans ((apuRunUntil_frame _ _).trans
      ((apuTakes_frame a d _).trans (notifyIrq_frame _).toWrite))

theorem writeStrobe_frame (d : Byte) (s : State) : WriteFrame s (writeStrobe d s) := by
  have h := WriteFrame.refl s
  unfold writeStrobe
  simp only
  split
  · exact { h with pos1 := fun _ => Nat.zero_le 8, pos2 := fun _ => Nat.zero_le 8 }
  · exact { h with }

theorem oamCopy_frame (base : Word) (i : Nat) (s : State) : ReadFrame s (oamCopy base i s) :=
  (memRead_frame _ s).trans (withPpu_frame _ _ rfl)

theorem oamDmaCopies_frame (base : Word) (k : Nat) (s : State) : ReadFrame s (oamDmaCopies base k s) := by
  induction k generalizing s with
  | zero => exact .refl s
  | succ k ih => exact (oamCopy_frame base (255 - k) s).trans (ih _)

theorem addClk_frame (s : State) (n : Nat) : WriteFrame s (s.addClk n) := by
  have h := WriteFrame.refl s
  exact { h with clk := Nat.le_add_right _ _ }

theorem oamDma_frame (v : Byte) (s : State) : WriteFrame s (oamDma v s) :=
  ((syncDevices_frame s.clk s).trans (oamDmaCopies_frame _ _ _)).toWrite.trans (addClk_frame _ _)

theorem ioWrite_frame (a : Word) (d : Byte) (s : State) : WriteFrame s (ioWrite a d s) := by
  unfold ioWrite
  split
  · exact oamDma_frame d s
  · split
    · exact writeStrobe_frame d s
    · split
      · exact apuWrite_frame a d s
      · exact .refl s

theorem store_frame (s : State) (k : Nat) (v : Byte) (hk : k < prgKey) : WriteFrame s (s.store k v) := by
  have h := WriteFrame.refl s
  exact { h with
    rom := fun j hj => Memory.read_write_ne (by omega) _ _
    wf := fun w => Memory.wf_write w k v }

theorem storeRam_frame (s : State) (k : Nat) (v : Byte) : WriteFrame s (s.storeRam k v) := by
  have h := WriteFrame.refl s
  exact { h with sorted := fun w => MapperRam.sorted_store w k v }

/-- A plain memory cell that a store can reach is below program memory. -/
theorem State.cellOf_lt (s : State) (a : Word) (h : ∀ base, s.pageAt a ≠ .prgRom base) :
    (s.cellOf a).getD 0 < prgKey := by
  unfold State.cellOf
  split <;> simp_all [prgKey, cartRamKey] <;> omega

/-- Everything a `MemWrite` leaves alone. -/
theorem memWrite_frame (a : Word) (v : Byte) (s : State) : WriteFrame s (memWrite a v s) := by
  unfold memWrite
  split
  · next h => exact store_frame s _ v (s.cellOf_lt a (by simp [h]))
  · next h => exact store_frame s _ v (s.cellOf_lt a (by simp [h]))
  · exact storeRam_frame s _ v
  · exact (ppuRegWrite_frame _ _ s).toWrite
  · exact ioWrite_frame a v s
  · exact mapperWrite_frame a v s
  · exact mapperWrite_frame a v s
  · exact .refl s

/-! ## Time and memory, exactly -/

/-- The mapper's write changes neither the clock nor CPU-side memory. -/
theorem mapperWrite_clk_mem (a : Word) (d : Byte) (s : State) :
    (mapperWrite a d s).clk = s.clk ∧ (mapperWrite a d s).mem = s.mem := by
  unfold mapperWrite
  split
  · exact ⟨rfl, rfl⟩
  · have f := syncDevices_frame s.clk s
    have g := notifyIrq_frame (applyMapping (mapperTakes a d (syncDevices s.clk s)))
    rw [g.clk, g.mem]
    exact ⟨f.clk, f.mem⟩

theorem apuWrite_clk_mem (a : Word) (d : Byte) (s : State) :
    (apuWrite a d s).clk = s.clk ∧ (apuWrite a d s).mem = s.mem := by
  unfold apuWrite
  split
  · exact ⟨rfl, rfl⟩
  · have f := syncDevices_frame s.clk s
    have g := notifyIrq_frame (apuTakes a d (apuRunUntil s.clk (syncDevices s.clk s)))
    rw [g.clk, g.mem]
    exact ⟨f.clk, f.mem⟩

theorem oamDma_clk_mem (d : Byte) (s : State) : (oamDma d s).clk = s.clk + 513 ∧ (oamDma d s).mem = s.mem := by
  have f := (syncDevices_frame s.clk s).trans (oamDmaCopies_frame (word 0 d) 256 _)
  unfold oamDma
  generalize oamDmaCopies (word 0 d) 256 (syncDevices s.clk s) = u at f ⊢
  have hc : (u.addClk Config.oamDmaCycles).clk = u.clk + 513 := rfl
  exact ⟨by rw [hc, f.clk], f.mem⟩

theorem ioWrite_clk_mem (a : Word) (d : Byte) (s : State) :
    (ioWrite a d s).clk = s.clk + (if a = 0x4014#16 then 513 else 0) ∧ (ioWrite a d s).mem = s.mem := by
  unfold ioWrite
  by_cases h : a = 0x4014#16
  · rw [if_pos h, if_pos h]; exact oamDma_clk_mem d s
  · rw [if_neg h, if_neg h]
    split
    · unfold writeStrobe; simp only; split <;> exact ⟨rfl, rfl⟩
    · split
      · exact apuWrite_clk_mem a d s
      · exact ⟨rfl, rfl⟩

/-- Only OAM DMA takes time (R81, R317). -/
theorem memWrite_clk (a : Word) (v : Byte) (s : State) :
    (memWrite a v s).clk = s.clk + (if s.pageAt a = .io ∧ a = 0x4014#16 then 513 else 0) := by
  unfold memWrite
  cases h : s.pageAt a with
  | io => simpa [h] using (ioWrite_clk_mem a v s).1
  | ppuRegs => simpa [h] using (ppuRegWrite_frame (a.toNat % 8) v s).clk
  | prgRom b => simpa [h] using (mapperWrite_clk_mem a v s).1
  | mapperRegs => simpa [h] using (mapperWrite_clk_mem a v s).1
  | _ => simp [State.store, State.storeRam]

/-- A write stores to the one cell behind its address, where that is RAM, and to no other (R63). -/
theorem memWrite_mem (a : Word) (v : Byte) (s : State) :
    (memWrite a v s).mem =
      match s.pageAt a with
      | .workRam | .cartRam _ => Memory.write s.mem ((s.cellOf a).getD 0) v
      | _ => s.mem := by
  unfold memWrite
  cases h : s.pageAt a with
  | io => exact (ioWrite_clk_mem a v s).2
  | ppuRegs => exact (ppuRegWrite_frame (a.toNat % 8) v s).mem
  | prgRom b => exact (mapperWrite_clk_mem a v s).2
  | mapperRegs => exact (mapperWrite_clk_mem a v s).2
  | _ => rfl

/-- A mapper variant's own RAM is stored to by a write to one of its pages and by no other (R63, R78). -/
theorem memWrite_mapperRam (a : Word) (v : Byte) (s : State) :
    (memWrite a v s).mapperRam =
      match s.ramCellOf a with
      | some k => s.mapperRam.store k v
      | none => s.mapperRam := by
  have mapper : (mapperWrite a v s).mapperRam = s.mapperRam := by
    unfold mapperWrite
    split
    · rfl
    · rw [(notifyIrq_frame _).mapperRam]; exact (syncDevices_frame s.clk s).mapperRam
  have dma : (oamDma v s).mapperRam = s.mapperRam := by
    have f := (syncDevices_frame s.clk s).trans (oamDmaCopies_frame (word 0 v) 256 _)
    unfold oamDma
    generalize oamDmaCopies (word 0 v) 256 (syncDevices s.clk s) = u at f ⊢
    exact f.mapperRam
  have io : (ioWrite a v s).mapperRam = s.mapperRam := by
    unfold ioWrite
    split
    · exact dma
    · split
      · unfold writeStrobe; simp only; split <;> rfl
      · split
        · unfold apuWrite
          split
          · rfl
          · rw [(notifyIrq_frame _).mapperRam]; exact (syncDevices_frame s.clk s).mapperRam
        · rfl
  unfold memWrite State.ramCellOf
  cases h : s.pageAt a with
  | io => exact io
  | ppuRegs => exact (ppuRegWrite_frame (a.toNat % 8) v s).mapperRam
  | prgRom b => exact mapper
  | mapperRegs => exact mapper
  | mapperRam b => simp only [Option.getD_some]; rfl
  | _ => rfl

/-- Every byte of it but the one behind the address reads as before. -/
theorem memWrite_byte_ne (a : Word) (v : Byte) (s : State) (k : Nat) (h : s.ramCellOf a ≠ some k) :
    (memWrite a v s).mapperRam.byte k = s.mapperRam.byte k := by
  rw [memWrite_mapperRam]
  cases hc : s.ramCellOf a with
  | none => rfl
  | some j =>
    rw [hc] at h
    simp only [MapperRam.byte_store]
    exact if_neg (fun e => h (by rw [e]))

/-- Every cell but the one behind the address reads as before. -/
theorem memWrite_read_ne (a : Word) (v : Byte) (s : State) (k : Nat) (h : s.cellOf a ≠ some k) :
    Memory.read (memWrite a v s).mem k = Memory.read s.mem k := by
  rw [memWrite_mem]
  cases hp : s.pageAt a with
  | workRam =>
    have e : s.cellOf a = some (a.toNat % 2048) := by simp [State.cellOf, hp]
    rw [e] at h ⊢
    exact Memory.read_write_ne (fun c => h (by rw [c]; rfl)) _ _
  | cartRam b =>
    have e : s.cellOf a = some (cartRamKey + (b + a.toNat % 2048) % 0x2000) := by simp [State.cellOf, hp]
    rw [e] at h ⊢
    exact Memory.read_write_ne (fun c => h (by rw [c]; rfl)) _ _
  | _ => rfl

end Sys2Proof.Machine
end

