-- ==== Sys2Proof/Laws/Cpu.lean ====
section
/-! SUPPORT. The CPU register file and the platform do not see each other: no handler reads a CPU register, so every
access commutes with a change of the register file (R62, R63). -/

namespace Sys2Proof.Machine

/-- The state with another register file. -/
def State.withCpu (s : State) (c : Cpu) : State := { s with cpu := c }

theorem irqChanged_withCpu (t : Option Nat) (s : State) (c : Cpu) :
    irqChanged t (s.withCpu c) = (irqChanged t s).withCpu c := by
  cases h : s.endCycle <;> cases t <;> simp [irqChanged, State.withCpu, h]

theorem raiseNmi_withCpu (t : Nat) (s : State) (c : Cpu) : raiseNmi t (s.withCpu c) = (raiseNmi t s).withCpu c := by
  unfold raiseNmi; exact irqChanged_withCpu _ { s with nmiTime := some (t + Config.nmiDelay) } c

theorem vblEvent_withCpu (s : State) (c : Cpu) : vblEvent (s.withCpu c) = (vblEvent s).withCpu c := by
  simp only [vblEvent, show (s.withCpu c).ppu = s.ppu from rfl]
  by_cases h : s.ppu.ctrl.getLsbD 7
  · rw [if_pos h, if_pos h]
    exact raiseNmi_withCpu _ { s with ppu := { s.ppu with vbl := true, vblDone := true } } c
  · rw [if_neg h, if_neg h]; rfl

theorem catchUp_withCpu (T : Nat) (s : State) (c : Cpu) : catchUp T (s.withCpu c) = (catchUp T s).withCpu c := by
  simp only [catchUp, show (s.withCpu c).ppu = s.ppu from rfl]
  by_cases h : (!(s.ppu.renderUntil T).vblDone && (s.ppu.renderUntil T).vblTime < T) = true
  · rw [if_pos h, if_pos h]
    exact vblEvent_withCpu { s with ppu := s.ppu.renderUntil T } c
  · rw [if_neg h, if_neg h]; rfl

theorem mapperRunUntil_withCpu (T : Nat) (s : State) (c : Cpu) :
    mapperRunUntil T (s.withCpu c) = (mapperRunUntil T s).withCpu c := by
  unfold mapperRunUntil
  rw [show (s.withCpu c).cart = s.cart from rfl]
  split <;> rfl

theorem syncDevices_withCpu (T : Nat) (s : State) (c : Cpu) :
    syncDevices T (s.withCpu c) = (syncDevices T s).withCpu c := by
  unfold syncDevices; rw [catchUp_withCpu, mapperRunUntil_withCpu]

theorem notifyIrq_withCpu (s : State) (c : Cpu) : notifyIrq (s.withCpu c) = (notifyIrq s).withCpu c :=
  irqChanged_withCpu (recomputedIrq s.clk s) s c

theorem ppuRegRead_withCpu (r : Nat) (s : State) (c : Cpu) :
    ppuRegRead r (s.withCpu c) = ((ppuRegRead r s).1, (ppuRegRead r s).2.withCpu c) := by
  unfold ppuRegRead
  rw [show (s.withCpu c).clk = s.clk from rfl, syncDevices_withCpu]
  simp only
  split <;> rfl

theorem ioRead_withCpu (a : Word) (s : State) (c : Cpu) :
    ioRead a (s.withCpu c) = ((ioRead a s).1, (ioRead a s).2.withCpu c) := by
  unfold ioRead; repeat' split
  all_goals rfl

/-- `MemRead` does not look at the register file. -/
theorem memRead_withCpu (a : Word) (s : State) (c : Cpu) :
    memRead a (s.withCpu c) = ((memRead a s).1, (memRead a s).2.withCpu c) := by
  unfold memRead
  rw [show (s.withCpu c).pageAt a = s.pageAt a from rfl]
  split
  · rfl
  · rfl
  · rfl
  · rfl
  · exact ppuRegRead_withCpu _ s c
  · exact ioRead_withCpu a s c
  · rfl
  · rfl

theorem writeControl_withCpu (T : Nat) (d : Byte) (s : State) (c : Cpu) :
    writeControl T d (s.withCpu c) = (writeControl T d s).withCpu c := by
  simp only [writeControl, show (s.withCpu c).ppu = s.ppu from rfl]
  by_cases h : (!s.ppu.ctrl.getLsbD 7 && d.getLsbD 7 && s.ppu.vbl) = true
  · rw [if_pos h, if_pos h]
    exact raiseNmi_withCpu _ { s with ppu := { s.ppu with ctrl := d, t := tAfterControl s.ppu.t d } } c
  · rw [if_neg h, if_neg h]; rfl

theorem ppuRegWrite_withCpu (r : Nat) (d : Byte) (s : State) (c : Cpu) :
    ppuRegWrite r d (s.withCpu c) = (ppuRegWrite r d s).withCpu c := by
  unfold ppuRegWrite
  rw [show (s.withCpu c).clk = s.clk from rfl, syncDevices_withCpu]
  generalize syncDevices s.clk s = u
  simp only
  split
  · rw [← notifyIrq_withCpu, ← writeControl_withCpu]; rfl
  · rw [← notifyIrq_withCpu]; rfl
  all_goals rfl

theorem mapperWrite_withCpu (a : Word) (d : Byte) (s : State) (c : Cpu) :
    mapperWrite a d (s.withCpu c) = (mapperWrite a d s).withCpu c := by
  unfold mapperWrite
  rw [show (s.withCpu c).cart = s.cart from rfl]
  split
  · rfl
  · rw [show (s.withCpu c).clk = s.clk from rfl, syncDevices_withCpu]
    exact notifyIrq_withCpu (applyMapping (mapperTakes a d (syncDevices s.clk s))) c

theorem apuWrite_withCpu (a : Word) (d : Byte) (s : State) (c : Cpu) :
    apuWrite a d (s.withCpu c) = (apuWrite a d s).withCpu c := by
  unfold apuWrite
  rw [show (s.withCpu c).apu = s.apu from rfl]
  split
  · rfl
  · rw [show (s.withCpu c).clk = s.clk from rfl, syncDevices_withCpu]
    exact notifyIrq_withCpu (apuTakes a d (apuRunUntil s.clk (syncDevices s.clk s))) c

theorem oamCopy_withCpu (base : Word) (i : Nat) (s : State) (c : Cpu) :
    oamCopy base i (s.withCpu c) = (oamCopy base i s).withCpu c := by
  unfold oamCopy
  rw [memRead_withCpu]
  rfl

theorem oamDmaCopies_withCpu (base : Word) (k : Nat) (s : State) (c : Cpu) :
    oamDmaCopies base k (s.withCpu c) = (oamDmaCopies base k s).withCpu c := by
  induction k generalizing s with
  | zero => rfl
  | succ k ih => simp only [oamDmaCopies]; rw [oamCopy_withCpu, ih]

theorem oamDma_withCpu (v : Byte) (s : State) (c : Cpu) : oamDma v (s.withCpu c) = (oamDma v s).withCpu c := by
  unfold oamDma
  generalize 256 = n
  rw [show (s.withCpu c).clk = s.clk from rfl, syncDevices_withCpu, oamDmaCopies_withCpu]
  rfl

theorem writeStrobe_withCpu (d : Byte) (s : State) (c : Cpu) :
    writeStrobe d (s.withCpu c) = (writeStrobe d s).withCpu c := by
  unfold writeStrobe
  rw [show (s.withCpu c).pads = s.pads from rfl]
  simp only
  split <;> rfl

theorem ioWrite_withCpu (a : Word) (d : Byte) (s : State) (c : Cpu) :
    ioWrite a d (s.withCpu c) = (ioWrite a d s).withCpu c := by
  unfold ioWrite
  split
  · exact oamDma_withCpu d s c
  · split
    · exact writeStrobe_withCpu d s c
    · split
      · exact apuWrite_withCpu a d s c
      · rfl

/-- `MemWrite` does not look at the register file. -/
theorem memWrite_withCpu (a : Word) (v : Byte) (s : State) (c : Cpu) :
    memWrite a v (s.withCpu c) = (memWrite a v s).withCpu c := by
  unfold memWrite
  rw [show (s.withCpu c).pageAt a = s.pageAt a from rfl]
  split
  · rfl
  · rfl
  · rfl
  · exact ppuRegWrite_withCpu _ v s c
  · exact ioWrite_withCpu a v s c
  · exact mapperWrite_withCpu a v s c
  · exact mapperWrite_withCpu a v s c
  · rfl

/-! ## The register file after an access -/

@[simp] theorem memRead_cpu (a : Word) (s : State) : (memRead a s).2.cpu = s.cpu := (memRead_frame a s).cpu

@[simp] theorem memWrite_cpu (a : Word) (v : Byte) (s : State) : (memWrite a v s).cpu = s.cpu :=
  (memWrite_frame a v s).cpu

@[simp] theorem memRead_clk (a : Word) (s : State) : (memRead a s).2.clk = s.clk := (memRead_frame a s).clk

@[simp] theorem readPair_cpu (l h : Word) (s : State) : (readPair l h s).2.cpu = s.cpu := by simp [readPair]

@[simp] theorem readPair_clk (l h : Word) (s : State) : (readPair l h s).2.clk = s.clk := by simp [readPair]

@[simp] theorem readWord_cpu (a : Word) (s : State) : (readWord a s).2.cpu = s.cpu := by simp [readWord]

@[simp] theorem readWord_clk (a : Word) (s : State) : (readWord a s).2.clk = s.clk := by simp [readWord]

@[simp] theorem readWordWrap_cpu (a : Word) (s : State) : (readWordWrap a s).2.cpu = s.cpu := by
  simp [readWordWrap]

@[simp] theorem readWordWrap_clk (a : Word) (s : State) : (readWordWrap a s).2.clk = s.clk := by
  simp [readWordWrap]

/-! ## CPU-side memory after a read -/

@[simp] theorem memRead_mem (a : Word) (s : State) : (memRead a s).2.mem = s.mem := (memRead_frame a s).mem

@[simp] theorem readPair_mem (l h : Word) (s : State) : (readPair l h s).2.mem = s.mem := by simp [readPair]

@[simp] theorem readWord_mem (a : Word) (s : State) : (readWord a s).2.mem = s.mem := by simp [readWord]

@[simp] theorem readWordWrap_mem (a : Word) (s : State) : (readWordWrap a s).2.mem = s.mem := by simp [readWordWrap]

/-! ## A mapper variant's own RAM after a read -/

@[simp] theorem memRead_mapperRam (a : Word) (s : State) : (memRead a s).2.mapperRam = s.mapperRam :=
  (memRead_frame a s).mapperRam

@[simp] theorem readPair_mapperRam (l h : Word) (s : State) : (readPair l h s).2.mapperRam = s.mapperRam := by
  simp [readPair]

@[simp] theorem readWord_mapperRam (a : Word) (s : State) : (readWord a s).2.mapperRam = s.mapperRam := by simp [readWord]

@[simp] theorem readWordWrap_mapperRam (a : Word) (s : State) : (readWordWrap a s).2.mapperRam = s.mapperRam := by
  simp [readWordWrap]

end Sys2Proof.Machine
end

