-- ==== Sys2Proof/Laws/Encoding.lean ====
section
/-! SUPPORT. The byte-order helpers undo each other, the decoder's last arm is the illegal set, and the operand bytes of each
mode are what the decoder reads back. -/

namespace Sys2Proof

theorem word_lo_hi (a : Word) : word (lo a) (hi a) = a := by
  apply BitVec.eq_of_getLsbD_eq
  intro i hi'
  unfold word lo hi
  rw [BitVec.getLsbD_append]
  by_cases h : i < 8
  · simp [h]
  · have h2 : i - 8 < 8 := by omega
    simp only [h]
    simp [h2, show 8 + (i - 8) = i by omega]

theorem lo_word (l h : Byte) : lo (word l h) = l := by
  apply BitVec.eq_of_getLsbD_eq
  intro i hi'
  unfold lo word
  rw [BitVec.getLsbD_setWidth, BitVec.getLsbD_append]
  simp [hi']

theorem hi_word (l h : Byte) : hi (word l h) = h := by
  apply BitVec.eq_of_getLsbD_eq
  intro i hi'
  unfold hi word
  rw [BitVec.getLsbD_setWidth, BitVec.getLsbD_ushiftRight, BitVec.getLsbD_append]
  simp [hi']

/-- Every value of the illegal set decodes to itself, whatever follows (R121). -/
theorem decodeOp_illegal (op d : Byte) (a : Word) (hm : op.toNat ∈ illegalOpcodes) : decodeOp op d a = .ill op := by
  unfold decodeOp
  split
  all_goals first | rfl | (rename_i h; rw [h] at hm; exact absurd hm (by decide))

/-- The decoder answers an illegal instruction for the values of the illegal set and for no other (R121, R122). -/
theorem decodeOp_isIll (d : Byte) (a : Word) : ∀ op : Byte,
    (match decodeOp op d a with | .ill _ => true | _ => false) = decide (op.toNat ∈ illegalOpcodes) :=
  of_decide_eq_true (Eq.refl true)

theorem mem_illegal_of_wellFormed (op : Byte) (h : (Instr.ill op).wellFormed = true) : op.toNat ∈ illegalOpcodes := by
  simpa [Instr.wellFormed, isIllegalOpcode, List.contains_iff_mem] using h

/-- `decodeBytes` where the first byte and the next two decode to `i`, and `i`'s bytes are all there. -/
theorem decodeBytes_of_decode (i : Instr) (b0 : Byte) (rest r : List Byte)
    (hr : decode b0 (rest.getD 0 0) (rest.getD 1 0) = i) (hl : i.length ≤ rest.length + 1)
    (hd : rest.drop (i.length - 1) = r) : decodeBytes (b0 :: rest) = .ok (i, r) := by
  unfold decodeBytes
  simp only [hr]
  rw [if_pos hl, hd]

end Sys2Proof
end

