-- ==== Sys2Proof/Laws/State.lean ====
section
/-! SUPPORT. The small lemmas of the state's named updates: one per field per update, each true by definition, so that
no later proof unfolds a record update. -/

namespace Sys2Proof.Machine


/-! ### `setA` -/

@[simp] theorem State.setA_a (s : State) (v : Byte) : (s.setA v).cpu.a = v := rfl
@[simp] theorem State.setA_x (s : State) (v : Byte) : (s.setA v).cpu.x = s.cpu.x := rfl
@[simp] theorem State.setA_y (s : State) (v : Byte) : (s.setA v).cpu.y = s.cpu.y := rfl
@[simp] theorem State.setA_sp (s : State) (v : Byte) : (s.setA v).cpu.sp = s.cpu.sp := rfl
@[simp] theorem State.setA_pc (s : State) (v : Byte) : (s.setA v).cpu.pc = s.cpu.pc := rfl
@[simp] theorem State.setA_p (s : State) (v : Byte) : (s.setA v).cpu.p = s.cpu.p := rfl
@[simp] theorem State.setA_clk (s : State) (v : Byte) : (s.setA v).clk = s.clk := rfl
@[simp] theorem State.setA_endCycle (s : State) (v : Byte) : (s.setA v).endCycle = s.endCycle := rfl
@[simp] theorem State.setA_lastStop (s : State) (v : Byte) : (s.setA v).lastStop = s.lastStop := rfl
@[simp] theorem State.setA_errorCount (s : State) (v : Byte) : (s.setA v).errorCount = s.errorCount := rfl
@[simp] theorem State.setA_pageTable (s : State) (v : Byte) : (s.setA v).pageTable = s.pageTable := rfl
@[simp] theorem State.setA_mem (s : State) (v : Byte) : (s.setA v).mem = s.mem := rfl
@[simp] theorem State.setA_cart (s : State) (v : Byte) : (s.setA v).cart = s.cart := rfl
@[simp] theorem State.setA_params (s : State) (v : Byte) : (s.setA v).params = s.params := rfl
@[simp] theorem State.setA_ppu (s : State) (v : Byte) : (s.setA v).ppu = s.ppu := rfl
@[simp] theorem State.setA_mapper (s : State) (v : Byte) : (s.setA v).mapper = s.mapper := rfl
@[simp] theorem State.setA_mapperRam (s : State) (v : Byte) : (s.setA v).mapperRam = s.mapperRam := rfl
@[simp] theorem State.setA_nmiTime (s : State) (v : Byte) : (s.setA v).nmiTime = s.nmiTime := rfl
@[simp] theorem State.setA_irqTime (s : State) (v : Byte) : (s.setA v).irqTime = s.irqTime := rfl
@[simp] theorem State.setA_apu (s : State) (v : Byte) : (s.setA v).apu = s.apu := rfl
@[simp] theorem State.setA_pads (s : State) (v : Byte) : (s.setA v).pads = s.pads := rfl
@[simp] theorem State.setA_inFrame (s : State) (v : Byte) : (s.setA v).inFrame = s.inFrame := rfl
@[simp] theorem State.setA_frameResult (s : State) (v : Byte) : (s.setA v).frameResult = s.frameResult := rfl
@[simp] theorem State.setA_frames (s : State) (v : Byte) : (s.setA v).frames = s.frames := rfl
@[simp] theorem State.setA_freeReads (s : State) (v : Byte) : (s.setA v).freeReads = s.freeReads := rfl
@[simp] theorem State.setA_pageAt (s : State) (v : Byte) (a : Word) : (s.setA v).pageAt a = s.pageAt a := rfl
@[simp] theorem State.setA_cellOf (s : State) (v : Byte) (a : Word) : (s.setA v).cellOf a = s.cellOf a := rfl
@[simp] theorem State.setA_ramCellOf (s : State) (v : Byte) (a : Word) : (s.setA v).ramCellOf a = s.ramCellOf a := rfl
@[simp] theorem State.setA_fetch (s : State) (v : Byte) (a : Word) : (s.setA v).fetch a = s.fetch a := rfl

/-! ### `setX` -/

@[simp] theorem State.setX_a (s : State) (v : Byte) : (s.setX v).cpu.a = s.cpu.a := rfl
@[simp] theorem State.setX_x (s : State) (v : Byte) : (s.setX v).cpu.x = v := rfl
@[simp] theorem State.setX_y (s : State) (v : Byte) : (s.setX v).cpu.y = s.cpu.y := rfl
@[simp] theorem State.setX_sp (s : State) (v : Byte) : (s.setX v).cpu.sp = s.cpu.sp := rfl
@[simp] theorem State.setX_pc (s : State) (v : Byte) : (s.setX v).cpu.pc = s.cpu.pc := rfl
@[simp] theorem State.setX_p (s : State) (v : Byte) : (s.setX v).cpu.p = s.cpu.p := rfl
@[simp] theorem State.setX_clk (s : State) (v : Byte) : (s.setX v).clk = s.clk := rfl
@[simp] theorem State.setX_endCycle (s : State) (v : Byte) : (s.setX v).endCycle = s.endCycle := rfl
@[simp] theorem State.setX_lastStop (s : State) (v : Byte) : (s.setX v).lastStop = s.lastStop := rfl
@[simp] theorem State.setX_errorCount (s : State) (v : Byte) : (s.setX v).errorCount = s.errorCount := rfl
@[simp] theorem State.setX_pageTable (s : State) (v : Byte) : (s.setX v).pageTable = s.pageTable := rfl
@[simp] theorem State.setX_mem (s : State) (v : Byte) : (s.setX v).mem = s.mem := rfl
@[simp] theorem State.setX_cart (s : State) (v : Byte) : (s.setX v).cart = s.cart := rfl
@[simp] theorem State.setX_params (s : State) (v : Byte) : (s.setX v).params = s.params := rfl
@[simp] theorem State.setX_ppu (s : State) (v : Byte) : (s.setX v).ppu = s.ppu := rfl
@[simp] theorem State.setX_mapper (s : State) (v : Byte) : (s.setX v).mapper = s.mapper := rfl
@[simp] theorem State.setX_mapperRam (s : State) (v : Byte) : (s.setX v).mapperRam = s.mapperRam := rfl
@[simp] theorem State.setX_nmiTime (s : State) (v : Byte) : (s.setX v).nmiTime = s.nmiTime := rfl
@[simp] theorem State.setX_irqTime (s : State) (v : Byte) : (s.setX v).irqTime = s.irqTime := rfl
@[simp] theorem State.setX_apu (s : State) (v : Byte) : (s.setX v).apu = s.apu := rfl
@[simp] theorem State.setX_pads (s : State) (v : Byte) : (s.setX v).pads = s.pads := rfl
@[simp] theorem State.setX_inFrame (s : State) (v : Byte) : (s.setX v).inFrame = s.inFrame := rfl
@[simp] theorem State.setX_frameResult (s : State) (v : Byte) : (s.setX v).frameResult = s.frameResult := rfl
@[simp] theorem State.setX_frames (s : State) (v : Byte) : (s.setX v).frames = s.frames := rfl
@[simp] theorem State.setX_freeReads (s : State) (v : Byte) : (s.setX v).freeReads = s.freeReads := rfl
@[simp] theorem State.setX_pageAt (s : State) (v : Byte) (a : Word) : (s.setX v).pageAt a = s.pageAt a := rfl
@[simp] theorem State.setX_cellOf (s : State) (v : Byte) (a : Word) : (s.setX v).cellOf a = s.cellOf a := rfl
@[simp] theorem State.setX_ramCellOf (s : State) (v : Byte) (a : Word) : (s.setX v).ramCellOf a = s.ramCellOf a := rfl
@[simp] theorem State.setX_fetch (s : State) (v : Byte) (a : Word) : (s.setX v).fetch a = s.fetch a := rfl

/-! ### `setY` -/

@[simp] theorem State.setY_a (s : State) (v : Byte) : (s.setY v).cpu.a = s.cpu.a := rfl
@[simp] theorem State.setY_x (s : State) (v : Byte) : (s.setY v).cpu.x = s.cpu.x := rfl
@[simp] theorem State.setY_y (s : State) (v : Byte) : (s.setY v).cpu.y = v := rfl
@[simp] theorem State.setY_sp (s : State) (v : Byte) : (s.setY v).cpu.sp = s.cpu.sp := rfl
@[simp] theorem State.setY_pc (s : State) (v : Byte) : (s.setY v).cpu.pc = s.cpu.pc := rfl
@[simp] theorem State.setY_p (s : State) (v : Byte) : (s.setY v).cpu.p = s.cpu.p := rfl
@[simp] theorem State.setY_clk (s : State) (v : Byte) : (s.setY v).clk = s.clk := rfl
@[simp] theorem State.setY_endCycle (s : State) (v : Byte) : (s.setY v).endCycle = s.endCycle := rfl
@[simp] theorem State.setY_lastStop (s : State) (v : Byte) : (s.setY v).lastStop = s.lastStop := rfl
@[simp] theorem State.setY_errorCount (s : State) (v : Byte) : (s.setY v).errorCount = s.errorCount := rfl
@[simp] theorem State.setY_pageTable (s : State) (v : Byte) : (s.setY v).pageTable = s.pageTable := rfl
@[simp] theorem State.setY_mem (s : State) (v : Byte) : (s.setY v).mem = s.mem := rfl
@[simp] theorem State.setY_cart (s : State) (v : Byte) : (s.setY v).cart = s.cart := rfl
@[simp] theorem State.setY_params (s : State) (v : Byte) : (s.setY v).params = s.params := rfl
@[simp] theorem State.setY_ppu (s : State) (v : Byte) : (s.setY v).ppu = s.ppu := rfl
@[simp] theorem State.setY_mapper (s : State) (v : Byte) : (s.setY v).mapper = s.mapper := rfl
@[simp] theorem State.setY_mapperRam (s : State) (v : Byte) : (s.setY v).mapperRam = s.mapperRam := rfl
@[simp] theorem State.setY_nmiTime (s : State) (v : Byte) : (s.setY v).nmiTime = s.nmiTime := rfl
@[simp] theorem State.setY_irqTime (s : State) (v : Byte) : (s.setY v).irqTime = s.irqTime := rfl
@[simp] theorem State.setY_apu (s : State) (v : Byte) : (s.setY v).apu = s.apu := rfl
@[simp] theorem State.setY_pads (s : State) (v : Byte) : (s.setY v).pads = s.pads := rfl
@[simp] theorem State.setY_inFrame (s : State) (v : Byte) : (s.setY v).inFrame = s.inFrame := rfl
@[simp] theorem State.setY_frameResult (s : State) (v : Byte) : (s.setY v).frameResult = s.frameResult := rfl
@[simp] theorem State.setY_frames (s : State) (v : Byte) : (s.setY v).frames = s.frames := rfl
@[simp] theorem State.setY_freeReads (s : State) (v : Byte) : (s.setY v).freeReads = s.freeReads := rfl
@[simp] theorem State.setY_pageAt (s : State) (v : Byte) (a : Word) : (s.setY v).pageAt a = s.pageAt a := rfl
@[simp] theorem State.setY_cellOf (s : State) (v : Byte) (a : Word) : (s.setY v).cellOf a = s.cellOf a := rfl
@[simp] theorem State.setY_ramCellOf (s : State) (v : Byte) (a : Word) : (s.setY v).ramCellOf a = s.ramCellOf a := rfl
@[simp] theorem State.setY_fetch (s : State) (v : Byte) (a : Word) : (s.setY v).fetch a = s.fetch a := rfl

/-! ### `setSp` -/

@[simp] theorem State.setSp_a (s : State) (v : Byte) : (s.setSp v).cpu.a = s.cpu.a := rfl
@[simp] theorem State.setSp_x (s : State) (v : Byte) : (s.setSp v).cpu.x = s.cpu.x := rfl
@[simp] theorem State.setSp_y (s : State) (v : Byte) : (s.setSp v).cpu.y = s.cpu.y := rfl
@[simp] theorem State.setSp_sp (s : State) (v : Byte) : (s.setSp v).cpu.sp = v := rfl
@[simp] theorem State.setSp_pc (s : State) (v : Byte) : (s.setSp v).cpu.pc = s.cpu.pc := rfl
@[simp] theorem State.setSp_p (s : State) (v : Byte) : (s.setSp v).cpu.p = s.cpu.p := rfl
@[simp] theorem State.setSp_clk (s : State) (v : Byte) : (s.setSp v).clk = s.clk := rfl
@[simp] theorem State.setSp_endCycle (s : State) (v : Byte) : (s.setSp v).endCycle = s.endCycle := rfl
@[simp] theorem State.setSp_lastStop (s : State) (v : Byte) : (s.setSp v).lastStop = s.lastStop := rfl
@[simp] theorem State.setSp_errorCount (s : State) (v : Byte) : (s.setSp v).errorCount = s.errorCount := rfl
@[simp] theorem State.setSp_pageTable (s : State) (v : Byte) : (s.setSp v).pageTable = s.pageTable := rfl
@[simp] theorem State.setSp_mem (s : State) (v : Byte) : (s.setSp v).mem = s.mem := rfl
@[simp] theorem State.setSp_cart (s : State) (v : Byte) : (s.setSp v).cart = s.cart := rfl
@[simp] theorem State.setSp_params (s : State) (v : Byte) : (s.setSp v).params = s.params := rfl
@[simp] theorem State.setSp_ppu (s : State) (v : Byte) : (s.setSp v).ppu = s.ppu := rfl
@[simp] theorem State.setSp_mapper (s : State) (v : Byte) : (s.setSp v).mapper = s.mapper := rfl
@[simp] theorem State.setSp_mapperRam (s : State) (v : Byte) : (s.setSp v).mapperRam = s.mapperRam := rfl
@[simp] theorem State.setSp_nmiTime (s : State) (v : Byte) : (s.setSp v).nmiTime = s.nmiTime := rfl
@[simp] theorem State.setSp_irqTime (s : State) (v : Byte) : (s.setSp v).irqTime = s.irqTime := rfl
@[simp] theorem State.setSp_apu (s : State) (v : Byte) : (s.setSp v).apu = s.apu := rfl
@[simp] theorem State.setSp_pads (s : State) (v : Byte) : (s.setSp v).pads = s.pads := rfl
@[simp] theorem State.setSp_inFrame (s : State) (v : Byte) : (s.setSp v).inFrame = s.inFrame := rfl
@[simp] theorem State.setSp_frameResult (s : State) (v : Byte) : (s.setSp v).frameResult = s.frameResult := rfl
@[simp] theorem State.setSp_frames (s : State) (v : Byte) : (s.setSp v).frames = s.frames := rfl
@[simp] theorem State.setSp_freeReads (s : State) (v : Byte) : (s.setSp v).freeReads = s.freeReads := rfl
@[simp] theorem State.setSp_pageAt (s : State) (v : Byte) (a : Word) : (s.setSp v).pageAt a = s.pageAt a := rfl
@[simp] theorem State.setSp_cellOf (s : State) (v : Byte) (a : Word) : (s.setSp v).cellOf a = s.cellOf a := rfl
@[simp] theorem State.setSp_ramCellOf (s : State) (v : Byte) (a : Word) : (s.setSp v).ramCellOf a = s.ramCellOf a := rfl
@[simp] theorem State.setSp_fetch (s : State) (v : Byte) (a : Word) : (s.setSp v).fetch a = s.fetch a := rfl

/-! ### `setPc` -/

@[simp] theorem State.setPc_a (s : State) (v : Word) : (s.setPc v).cpu.a = s.cpu.a := rfl
@[simp] theorem State.setPc_x (s : State) (v : Word) : (s.setPc v).cpu.x = s.cpu.x := rfl
@[simp] theorem State.setPc_y (s : State) (v : Word) : (s.setPc v).cpu.y = s.cpu.y := rfl
@[simp] theorem State.setPc_sp (s : State) (v : Word) : (s.setPc v).cpu.sp = s.cpu.sp := rfl
@[simp] theorem State.setPc_pc (s : State) (v : Word) : (s.setPc v).cpu.pc = v := rfl
@[simp] theorem State.setPc_p (s : State) (v : Word) : (s.setPc v).cpu.p = s.cpu.p := rfl
@[simp] theorem State.setPc_clk (s : State) (v : Word) : (s.setPc v).clk = s.clk := rfl
@[simp] theorem State.setPc_endCycle (s : State) (v : Word) : (s.setPc v).endCycle = s.endCycle := rfl
@[simp] theorem State.setPc_lastStop (s : State) (v : Word) : (s.setPc v).lastStop = s.lastStop := rfl
@[simp] theorem State.setPc_errorCount (s : State) (v : Word) : (s.setPc v).errorCount = s.errorCount := rfl
@[simp] theorem State.setPc_pageTable (s : State) (v : Word) : (s.setPc v).pageTable = s.pageTable := rfl
@[simp] theorem State.setPc_mem (s : State) (v : Word) : (s.setPc v).mem = s.mem := rfl
@[simp] theorem State.setPc_cart (s : State) (v : Word) : (s.setPc v).cart = s.cart := rfl
@[simp] theorem State.setPc_params (s : State) (v : Word) : (s.setPc v).params = s.params := rfl
@[simp] theorem State.setPc_ppu (s : State) (v : Word) : (s.setPc v).ppu = s.ppu := rfl
@[simp] theorem State.setPc_mapper (s : State) (v : Word) : (s.setPc v).mapper = s.mapper := rfl
@[simp] theorem State.setPc_mapperRam (s : State) (v : Word) : (s.setPc v).mapperRam = s.mapperRam := rfl
@[simp] theorem State.setPc_nmiTime (s : State) (v : Word) : (s.setPc v).nmiTime = s.nmiTime := rfl
@[simp] theorem State.setPc_irqTime (s : State) (v : Word) : (s.setPc v).irqTime = s.irqTime := rfl
@[simp] theorem State.setPc_apu (s : State) (v : Word) : (s.setPc v).apu = s.apu := rfl
@[simp] theorem State.setPc_pads (s : State) (v : Word) : (s.setPc v).pads = s.pads := rfl
@[simp] theorem State.setPc_inFrame (s : State) (v : Word) : (s.setPc v).inFrame = s.inFrame := rfl
@[simp] theorem State.setPc_frameResult (s : State) (v : Word) : (s.setPc v).frameResult = s.frameResult := rfl
@[simp] theorem State.setPc_frames (s : State) (v : Word) : (s.setPc v).frames = s.frames := rfl
@[simp] theorem State.setPc_freeReads (s : State) (v : Word) : (s.setPc v).freeReads = s.freeReads := rfl
@[simp] theorem State.setPc_pageAt (s : State) (v : Word) (a : Word) : (s.setPc v).pageAt a = s.pageAt a := rfl
@[simp] theorem State.setPc_cellOf (s : State) (v : Word) (a : Word) : (s.setPc v).cellOf a = s.cellOf a := rfl
@[simp] theorem State.setPc_ramCellOf (s : State) (v : Word) (a : Word) : (s.setPc v).ramCellOf a = s.ramCellOf a := rfl
@[simp] theorem State.setPc_fetch (s : State) (v : Word) (a : Word) : (s.setPc v).fetch a = s.fetch a := rfl

/-! ### `setP` -/

@[simp] theorem State.setP_a (s : State) (v : Status) : (s.setP v).cpu.a = s.cpu.a := rfl
@[simp] theorem State.setP_x (s : State) (v : Status) : (s.setP v).cpu.x = s.cpu.x := rfl
@[simp] theorem State.setP_y (s : State) (v : Status) : (s.setP v).cpu.y = s.cpu.y := rfl
@[simp] theorem State.setP_sp (s : State) (v : Status) : (s.setP v).cpu.sp = s.cpu.sp := rfl
@[simp] theorem State.setP_pc (s : State) (v : Status) : (s.setP v).cpu.pc = s.cpu.pc := rfl
@[simp] theorem State.setP_p (s : State) (v : Status) : (s.setP v).cpu.p = v := rfl
@[simp] theorem State.setP_clk (s : State) (v : Status) : (s.setP v).clk = s.clk := rfl
@[simp] theorem State.setP_endCycle (s : State) (v : Status) : (s.setP v).endCycle = s.endCycle := rfl
@[simp] theorem State.setP_lastStop (s : State) (v : Status) : (s.setP v).lastStop = s.lastStop := rfl
@[simp] theorem State.setP_errorCount (s : State) (v : Status) : (s.setP v).errorCount = s.errorCount := rfl
@[simp] theorem State.setP_pageTable (s : State) (v : Status) : (s.setP v).pageTable = s.pageTable := rfl
@[simp] theorem State.setP_mem (s : State) (v : Status) : (s.setP v).mem = s.mem := rfl
@[simp] theorem State.setP_cart (s : State) (v : Status) : (s.setP v).cart = s.cart := rfl
@[simp] theorem State.setP_params (s : State) (v : Status) : (s.setP v).params = s.params := rfl
@[simp] theorem State.setP_ppu (s : State) (v : Status) : (s.setP v).ppu = s.ppu := rfl
@[simp] theorem State.setP_mapper (s : State) (v : Status) : (s.setP v).mapper = s.mapper := rfl
@[simp] theorem State.setP_mapperRam (s : State) (v : Status) : (s.setP v).mapperRam = s.mapperRam := rfl
@[simp] theorem State.setP_nmiTime (s : State) (v : Status) : (s.setP v).nmiTime = s.nmiTime := rfl
@[simp] theorem State.setP_irqTime (s : State) (v : Status) : (s.setP v).irqTime = s.irqTime := rfl
@[simp] theorem State.setP_apu (s : State) (v : Status) : (s.setP v).apu = s.apu := rfl
@[simp] theorem State.setP_pads (s : State) (v : Status) : (s.setP v).pads = s.pads := rfl
@[simp] theorem State.setP_inFrame (s : State) (v : Status) : (s.setP v).inFrame = s.inFrame := rfl
@[simp] theorem State.setP_frameResult (s : State) (v : Status) : (s.setP v).frameResult = s.frameResult := rfl
@[simp] theorem State.setP_frames (s : State) (v : Status) : (s.setP v).frames = s.frames := rfl
@[simp] theorem State.setP_freeReads (s : State) (v : Status) : (s.setP v).freeReads = s.freeReads := rfl
@[simp] theorem State.setP_pageAt (s : State) (v : Status) (a : Word) : (s.setP v).pageAt a = s.pageAt a := rfl
@[simp] theorem State.setP_cellOf (s : State) (v : Status) (a : Word) : (s.setP v).cellOf a = s.cellOf a := rfl
@[simp] theorem State.setP_ramCellOf (s : State) (v : Status) (a : Word) : (s.setP v).ramCellOf a = s.ramCellOf a := rfl
@[simp] theorem State.setP_fetch (s : State) (v : Status) (a : Word) : (s.setP v).fetch a = s.fetch a := rfl

/-! ### `addClk` -/

@[simp] theorem State.addClk_cpu (s : State) (n : Nat) : (s.addClk n).cpu = s.cpu := rfl
@[simp] theorem State.addClk_clk (s : State) (n : Nat) : (s.addClk n).clk = s.clk + n := rfl
@[simp] theorem State.addClk_endCycle (s : State) (n : Nat) : (s.addClk n).endCycle = s.endCycle := rfl
@[simp] theorem State.addClk_lastStop (s : State) (n : Nat) : (s.addClk n).lastStop = s.lastStop := rfl
@[simp] theorem State.addClk_errorCount (s : State) (n : Nat) : (s.addClk n).errorCount = s.errorCount := rfl
@[simp] theorem State.addClk_pageTable (s : State) (n : Nat) : (s.addClk n).pageTable = s.pageTable := rfl
@[simp] theorem State.addClk_mem (s : State) (n : Nat) : (s.addClk n).mem = s.mem := rfl
@[simp] theorem State.addClk_cart (s : State) (n : Nat) : (s.addClk n).cart = s.cart := rfl
@[simp] theorem State.addClk_params (s : State) (n : Nat) : (s.addClk n).params = s.params := rfl
@[simp] theorem State.addClk_ppu (s : State) (n : Nat) : (s.addClk n).ppu = s.ppu := rfl
@[simp] theorem State.addClk_mapper (s : State) (n : Nat) : (s.addClk n).mapper = s.mapper := rfl
@[simp] theorem State.addClk_mapperRam (s : State) (n : Nat) : (s.addClk n).mapperRam = s.mapperRam := rfl
@[simp] theorem State.addClk_nmiTime (s : State) (n : Nat) : (s.addClk n).nmiTime = s.nmiTime := rfl
@[simp] theorem State.addClk_irqTime (s : State) (n : Nat) : (s.addClk n).irqTime = s.irqTime := rfl
@[simp] theorem State.addClk_apu (s : State) (n : Nat) : (s.addClk n).apu = s.apu := rfl
@[simp] theorem State.addClk_pads (s : State) (n : Nat) : (s.addClk n).pads = s.pads := rfl
@[simp] theorem State.addClk_inFrame (s : State) (n : Nat) : (s.addClk n).inFrame = s.inFrame := rfl
@[simp] theorem State.addClk_frameResult (s : State) (n : Nat) : (s.addClk n).frameResult = s.frameResult := rfl
@[simp] theorem State.addClk_frames (s : State) (n : Nat) : (s.addClk n).frames = s.frames := rfl
@[simp] theorem State.addClk_freeReads (s : State) (n : Nat) : (s.addClk n).freeReads = s.freeReads := rfl
@[simp] theorem State.addClk_pageAt (s : State) (n : Nat) (a : Word) : (s.addClk n).pageAt a = s.pageAt a := rfl
@[simp] theorem State.addClk_cellOf (s : State) (n : Nat) (a : Word) : (s.addClk n).cellOf a = s.cellOf a := rfl
@[simp] theorem State.addClk_ramCellOf (s : State) (n : Nat) (a : Word) : (s.addClk n).ramCellOf a = s.ramCellOf a := rfl
@[simp] theorem State.addClk_fetch (s : State) (n : Nat) (a : Word) : (s.addClk n).fetch a = s.fetch a := rfl

/-! ### `store` -/

@[simp] theorem State.store_cpu (s : State) (k : Nat) (v : Byte) : (s.store k v).cpu = s.cpu := rfl
@[simp] theorem State.store_clk (s : State) (k : Nat) (v : Byte) : (s.store k v).clk = s.clk := rfl
@[simp] theorem State.store_endCycle (s : State) (k : Nat) (v : Byte) : (s.store k v).endCycle = s.endCycle := rfl
@[simp] theorem State.store_lastStop (s : State) (k : Nat) (v : Byte) : (s.store k v).lastStop = s.lastStop := rfl
@[simp] theorem State.store_errorCount (s : State) (k : Nat) (v : Byte) : (s.store k v).errorCount = s.errorCount := rfl
@[simp] theorem State.store_pageTable (s : State) (k : Nat) (v : Byte) : (s.store k v).pageTable = s.pageTable := rfl
@[simp] theorem State.store_mem (s : State) (k : Nat) (v : Byte) : (s.store k v).mem = Memory.write s.mem k v := rfl
@[simp] theorem State.store_cart (s : State) (k : Nat) (v : Byte) : (s.store k v).cart = s.cart := rfl
@[simp] theorem State.store_params (s : State) (k : Nat) (v : Byte) : (s.store k v).params = s.params := rfl
@[simp] theorem State.store_ppu (s : State) (k : Nat) (v : Byte) : (s.store k v).ppu = s.ppu := rfl
@[simp] theorem State.store_mapper (s : State) (k : Nat) (v : Byte) : (s.store k v).mapper = s.mapper := rfl
@[simp] theorem State.store_mapperRam (s : State) (k : Nat) (v : Byte) : (s.store k v).mapperRam = s.mapperRam := rfl
@[simp] theorem State.store_nmiTime (s : State) (k : Nat) (v : Byte) : (s.store k v).nmiTime = s.nmiTime := rfl
@[simp] theorem State.store_irqTime (s : State) (k : Nat) (v : Byte) : (s.store k v).irqTime = s.irqTime := rfl
@[simp] theorem State.store_apu (s : State) (k : Nat) (v : Byte) : (s.store k v).apu = s.apu := rfl
@[simp] theorem State.store_pads (s : State) (k : Nat) (v : Byte) : (s.store k v).pads = s.pads := rfl
@[simp] theorem State.store_inFrame (s : State) (k : Nat) (v : Byte) : (s.store k v).inFrame = s.inFrame := rfl
@[simp] theorem State.store_frameResult (s : State) (k : Nat) (v : Byte) : (s.store k v).frameResult = s.frameResult := rfl
@[simp] theorem State.store_frames (s : State) (k : Nat) (v : Byte) : (s.store k v).frames = s.frames := rfl
@[simp] theorem State.store_freeReads (s : State) (k : Nat) (v : Byte) : (s.store k v).freeReads = s.freeReads := rfl
@[simp] theorem State.store_pageAt (s : State) (k : Nat) (v : Byte) (a : Word) : (s.store k v).pageAt a = s.pageAt a := rfl
@[simp] theorem State.store_cellOf (s : State) (k : Nat) (v : Byte) (a : Word) : (s.store k v).cellOf a = s.cellOf a := rfl
@[simp] theorem State.store_ramCellOf (s : State) (k : Nat) (v : Byte) (a : Word) : (s.store k v).ramCellOf a = s.ramCellOf a := rfl

/-! ### `storeRam` -/

@[simp] theorem State.storeRam_cpu (s : State) (k : Nat) (v : Byte) : (s.storeRam k v).cpu = s.cpu := rfl
@[simp] theorem State.storeRam_clk (s : State) (k : Nat) (v : Byte) : (s.storeRam k v).clk = s.clk := rfl
@[simp] theorem State.storeRam_endCycle (s : State) (k : Nat) (v : Byte) : (s.storeRam k v).endCycle = s.endCycle := rfl
@[simp] theorem State.storeRam_lastStop (s : State) (k : Nat) (v : Byte) : (s.storeRam k v).lastStop = s.lastStop := rfl
@[simp] theorem State.storeRam_errorCount (s : State) (k : Nat) (v : Byte) : (s.storeRam k v).errorCount = s.errorCount := rfl
@[simp] theorem State.storeRam_pageTable (s : State) (k : Nat) (v : Byte) : (s.storeRam k v).pageTable = s.pageTable := rfl
@[simp] theorem State.storeRam_mem (s : State) (k : Nat) (v : Byte) : (s.storeRam k v).mem = s.mem := rfl
@[simp] theorem State.storeRam_cart (s : State) (k : Nat) (v : Byte) : (s.storeRam k v).cart = s.cart := rfl
@[simp] theorem State.storeRam_params (s : State) (k : Nat) (v : Byte) : (s.storeRam k v).params = s.params := rfl
@[simp] theorem State.storeRam_ppu (s : State) (k : Nat) (v : Byte) : (s.storeRam k v).ppu = s.ppu := rfl
@[simp] theorem State.storeRam_mapper (s : State) (k : Nat) (v : Byte) : (s.storeRam k v).mapper = s.mapper := rfl
@[simp] theorem State.storeRam_mapperRam (s : State) (k : Nat) (v : Byte) : (s.storeRam k v).mapperRam = s.mapperRam.store k v := rfl
@[simp] theorem State.storeRam_nmiTime (s : State) (k : Nat) (v : Byte) : (s.storeRam k v).nmiTime = s.nmiTime := rfl
@[simp] theorem State.storeRam_irqTime (s : State) (k : Nat) (v : Byte) : (s.storeRam k v).irqTime = s.irqTime := rfl
@[simp] theorem State.storeRam_apu (s : State) (k : Nat) (v : Byte) : (s.storeRam k v).apu = s.apu := rfl
@[simp] theorem State.storeRam_pads (s : State) (k : Nat) (v : Byte) : (s.storeRam k v).pads = s.pads := rfl
@[simp] theorem State.storeRam_inFrame (s : State) (k : Nat) (v : Byte) : (s.storeRam k v).inFrame = s.inFrame := rfl
@[simp] theorem State.storeRam_frameResult (s : State) (k : Nat) (v : Byte) : (s.storeRam k v).frameResult = s.frameResult := rfl
@[simp] theorem State.storeRam_frames (s : State) (k : Nat) (v : Byte) : (s.storeRam k v).frames = s.frames := rfl
@[simp] theorem State.storeRam_freeReads (s : State) (k : Nat) (v : Byte) : (s.storeRam k v).freeReads = s.freeReads := rfl
@[simp] theorem State.storeRam_pageAt (s : State) (k : Nat) (v : Byte) (a : Word) : (s.storeRam k v).pageAt a = s.pageAt a := rfl
@[simp] theorem State.storeRam_cellOf (s : State) (k : Nat) (v : Byte) (a : Word) : (s.storeRam k v).cellOf a = s.cellOf a := rfl
@[simp] theorem State.storeRam_ramCellOf (s : State) (k : Nat) (v : Byte) (a : Word) : (s.storeRam k v).ramCellOf a = s.ramCellOf a := rfl

/-! ### `stop` -/

@[simp] theorem State.stop_cpu (s : State) (r : StopReason) : (s.stop r).cpu = s.cpu := rfl
@[simp] theorem State.stop_clk (s : State) (r : StopReason) : (s.stop r).clk = s.clk := rfl
@[simp] theorem State.stop_endCycle (s : State) (r : StopReason) : (s.stop r).endCycle = none := rfl
@[simp] theorem State.stop_lastStop (s : State) (r : StopReason) : (s.stop r).lastStop = some r := rfl
@[simp] theorem State.stop_errorCount (s : State) (r : StopReason) : (s.stop r).errorCount = s.errorCount := rfl
@[simp] theorem State.stop_pageTable (s : State) (r : StopReason) : (s.stop r).pageTable = s.pageTable := rfl
@[simp] theorem State.stop_mem (s : State) (r : StopReason) : (s.stop r).mem = s.mem := rfl
@[simp] theorem State.stop_cart (s : State) (r : StopReason) : (s.stop r).cart = s.cart := rfl
@[simp] theorem State.stop_params (s : State) (r : StopReason) : (s.stop r).params = s.params := rfl
@[simp] theorem State.stop_ppu (s : State) (r : StopReason) : (s.stop r).ppu = s.ppu := rfl
@[simp] theorem State.stop_mapper (s : State) (r : StopReason) : (s.stop r).mapper = s.mapper := rfl
@[simp] theorem State.stop_mapperRam (s : State) (r : StopReason) : (s.stop r).mapperRam = s.mapperRam := rfl
@[simp] theorem State.stop_nmiTime (s : State) (r : StopReason) : (s.stop r).nmiTime = s.nmiTime := rfl
@[simp] theorem State.stop_irqTime (s : State) (r : StopReason) : (s.stop r).irqTime = s.irqTime := rfl
@[simp] theorem State.stop_apu (s : State) (r : StopReason) : (s.stop r).apu = s.apu := rfl
@[simp] theorem State.stop_pads (s : State) (r : StopReason) : (s.stop r).pads = s.pads := rfl
@[simp] theorem State.stop_inFrame (s : State) (r : StopReason) : (s.stop r).inFrame = s.inFrame := rfl
@[simp] theorem State.stop_frameResult (s : State) (r : StopReason) : (s.stop r).frameResult = s.frameResult := rfl
@[simp] theorem State.stop_frames (s : State) (r : StopReason) : (s.stop r).frames = s.frames := rfl
@[simp] theorem State.stop_freeReads (s : State) (r : StopReason) : (s.stop r).freeReads = s.freeReads := rfl
@[simp] theorem State.stop_pageAt (s : State) (r : StopReason) (a : Word) : (s.stop r).pageAt a = s.pageAt a := rfl
@[simp] theorem State.stop_cellOf (s : State) (r : StopReason) (a : Word) : (s.stop r).cellOf a = s.cellOf a := rfl
@[simp] theorem State.stop_ramCellOf (s : State) (r : StopReason) (a : Word) : (s.stop r).ramCellOf a = s.ramCellOf a := rfl
@[simp] theorem State.stop_fetch (s : State) (r : StopReason) (a : Word) : (s.stop r).fetch a = s.fetch a := rfl

end Sys2Proof.Machine
end

