-- ==== Sys2Proof/Laws/Operands.lean ====
section
/-! SUPPORT. What the page table of R301 makes of an access, and with it what operand resolution comes to: the effective
address and the crossing of the spec's formulas, and nothing else changed. -/

namespace Sys2Proof.Machine

/-! ## Pages -/

theorem pageTableOf_installed (m : Mapping) (s : State) (h : s.pageTable = pageTableOf m) : PagesInstalled s := by
  have get : ∀ p, p < 32 → s.pageTable.getD p .unmapped =
      (if p < 4 then Page.workRam
       else if p < 8 then Page.ppuRegs
       else if p = 8 then Page.io
       else if p < 16 then m.lowPages.getD (p - 9) .unmapped
       else Page.prgRom (m.prgBase.getD (p - 16) 0)) := by
    intro p hp
    simp only [h, pageTableOf]
    rw [List.getD_eq_getElem?_getD, List.getElem?_map, List.getElem?_range hp]
    rfl
  constructor
  · simp [h, pageTableOf]
  · intro p hp; rw [get p (by omega), if_pos hp]
  · intro p h4 hp; rw [get p (by omega), if_neg (by omega), if_pos hp]
  · rw [get 8 (by omega)]; rfl
  · intro p h16 hp
    rw [get p hp, if_neg (by omega), if_neg (by omega), if_neg (by omega), if_neg (by omega)]
    rfl

theorem reset_installed : PagesInstalled State.reset := pageTableOf_installed (noopMapping blankCartridge) _ rfl

/-- Only the page table counts. -/
theorem PagesInstalled.congr {s t : State} (h : PagesInstalled s) (e : t.pageTable = s.pageTable) :
    PagesInstalled t := by
  constructor
  · rw [e]; exact h.length
  · intro p hp; rw [e]; exact h.ram p hp
  · intro p h4 hp; rw [e]; exact h.ppu p h4 hp
  · rw [e]; exact h.io
  · intro p h16 hp; rw [e]; exact h.rom p h16 hp

theorem PagesInstalled.write {s t : State} (h : PagesInstalled s) (f : WriteFrame s t) : PagesInstalled t := by
  rcases f.pageTable with e | ⟨m, e⟩
  · exact h.congr e
  · exact pageTableOf_installed m t e

theorem PagesInstalled.pageAt_ram {s : State} (h : PagesInstalled s) {a : Word} (ha : a.toNat < 0x2000) :
    s.pageAt a = .workRam := h.ram _ (by omega)

theorem PagesInstalled.pageAt_ppu {s : State} (h : PagesInstalled s) {a : Word} (h2 : 0x2000 ≤ a.toNat)
    (ha : a.toNat < 0x4000) : s.pageAt a = .ppuRegs := h.ppu _ (by omega) (by omega)

theorem PagesInstalled.pageAt_io {s : State} (h : PagesInstalled s) {a : Word} (h4 : 0x4000 ≤ a.toNat)
    (ha : a.toNat < 0x4800) : s.pageAt a = .io := by
  have e : a.toNat / 2048 = 8 := by omega
  unfold State.pageAt
  rw [e]
  exact h.io

theorem PagesInstalled.pageAt_rom {s : State} (h : PagesInstalled s) {a : Word} (h8 : 0x8000 ≤ a.toNat) :
    ∃ base, s.pageAt a = .prgRom base := by
  have r := h.rom (a.toNat / 2048) (by omega) (by have := a.isLt; omega)
  unfold State.pageAt
  generalize s.pageTable.getD (a.toNat / 2048) Page.unmapped = p at r ⊢
  cases p <;> simp_all [Page.isPrgRom]

/-! ## A mapper variant's own RAM -/

/-- In a page a mapper variant claims for RAM an access meets the byte behind the address and nothing else (R65, R78). -/
theorem access_mapperRam {s : State} {a : Word} {base : Nat} (e : s.pageAt a = .mapperRam base) :
    memRead a s = (s.mapperRam.byte (base + a.toNat % 2048), s) ∧
    s.fetch a = s.mapperRam.byte (base + a.toNat % 2048) ∧
    ∀ v, memWrite a v s = s.storeRam (base + a.toNat % 2048) v := by
  simp [memRead, memWrite, State.fetch, State.cellOf, State.ramCellOf, e]

/-- Where no memory stands behind an address a fetch gives the fill (R65). -/
theorem fetch_fill {s : State} {a : Word} (h : s.cellOf a = none) (h' : s.ramCellOf a = none) :
    s.fetch a = s.params.unmappedFill := by
  simp [State.fetch, h, h']

/-- No address of the work RAM, of its mirrors or of program ROM is one of a mapper variant's own RAM (R301). -/
theorem ramCellOf_none {s : State} (h : PagesInstalled s) {a : Word} (ha : a.toNat < 0x2000 ∨ 0x8000 ≤ a.toNat) :
    s.ramCellOf a = none := by
  rcases ha with ha | ha
  · simp [State.ramCellOf, h.pageAt_ram ha]
  · obtain ⟨base, e⟩ := h.pageAt_rom ha
    simp [State.ramCellOf, e]

/-! ## Work RAM and program ROM -/

theorem memRead_ram {s : State} (h : PagesInstalled s) {a : Word} (ha : a.toNat < 0x2000) :
    memRead a s = (ramByte s a.toNat, s) := by
  have e := h.pageAt_ram ha
  simp [memRead, State.cellOf, e, ramByte]

theorem memWrite_ram {s : State} (h : PagesInstalled s) {a : Word} (ha : a.toNat < 0x2000) (v : Byte) :
    memWrite a v s = s.store (a.toNat % 2048) v := by
  have e := h.pageAt_ram ha
  simp [memWrite, State.cellOf, e]

theorem fetch_ram {s : State} (h : PagesInstalled s) {a : Word} (ha : a.toNat < 0x2000) :
    s.fetch a = ramByte s a.toNat := by
  have e := h.pageAt_ram ha
  simp [State.fetch, State.cellOf, e, ramByte]

theorem memRead_rom {s : State} (h : PagesInstalled s) {a : Word} (ha : 0x8000 ≤ a.toNat) :
    memRead a s = (s.fetch a, s) := by
  obtain ⟨base, e⟩ := h.pageAt_rom ha
  simp [memRead, State.fetch, State.cellOf, e]

/-! ## Zero page -/

theorem zeroExt_toNat (d : Byte) : (zeroExt d).toNat = d.toNat := by
  have := d.isLt
  simp [zeroExt]
  omega

theorem zeroExt_lt (d : Byte) : (zeroExt d).toNat < 0x2000 := by
  have := d.isLt
  rw [zeroExt_toNat]; omega

/-- Within the zero page the next address in the page is the next byte address, modulo 256 (R73, R74). -/
theorem nextInPage_zeroExt (d : Byte) : nextInPage (zeroExt d) = zeroExt (d + 1) := by
  revert d; decide

theorem readWordWrap_zp {s : State} (h : PagesInstalled s) (d : Byte) :
    readWordWrap (zeroExt d) s = (pointerAt s d, s) := by
  simp only [readWordWrap, readPair, nextInPage_zeroExt, memRead_ram h (zeroExt_lt _), zeroExt_toNat]
  rfl

/-- Two words are in different 256-byte pages exactly when their high bytes differ (R117). -/
theorem pageDiffers_eq (a b : Word) : pageDiffers a b = ((a &&& 0xFF00#16) != (b &&& 0xFF00#16)) := by
  unfold pageDiffers
  rw [Bool.eq_iff_iff]
  simp only [bne_iff_ne, ne_eq]
  refine not_congr ⟨fun e => ?_, fun e => ?_⟩
  · apply BitVec.eq_of_getLsbD_eq
    intro i hi
    by_cases h8 : 8 ≤ i
    · have := congrArg (fun v : Byte => v.getLsbD (i - 8)) e
      have h7 : i - 8 < 8 := by omega
      simp [Sys2Proof.hi, h7, show 8 + (i - 8) = i by omega] at this
      simp [this]
    · have hc : (0xFF00#16).getLsbD i = false := by
        have : i < 8 := by omega
        revert i; decide
      simp [hc]
  · apply BitVec.eq_of_getLsbD_eq
    intro i hi
    have := congrArg (fun v : Word => v.getLsbD (8 + i)) e
    have hc : ∀ i, i < 8 → (0xFF00#16).getLsbD (8 + i) = true := by decide
    have hc := hc i hi
    simpa [Sys2Proof.hi, hi, hc] using this

/-! ## Operand resolution -/

/-- With the pages installed, resolving a memory operand gives the spec's `ea` and `crossed` and changes nothing: the
pointers lie in work RAM (R107 to R117, R66). -/
theorem resolve_eq {s : State} (h : PagesInstalled s) (m : Addressing) :
    resolve m s = { ea := effective m s, crossed := crosses m s, state := s } := by
  cases m <;>
    simp [resolve, direct, indexed, effective, crosses, readWordWrap_zp h, pageDiffers_eq]

/-- In any state, resolving changes nothing a read does not change. -/
theorem resolve_frame (m : Addressing) (s : State) : ReadFrame s (resolve m s).state := by
  have hw : ∀ a, ReadFrame s (readWordWrap a s).2 := fun a =>
    (memRead_frame a s).trans (memRead_frame (nextInPage a) _)
  cases m
  case izx d => exact hw _
  case izy d => exact hw _
  all_goals exact .refl s

@[simp] theorem resolve_cpu (m : Addressing) (s : State) : (resolve m s).state.cpu = s.cpu := (resolve_frame m s).cpu

@[simp] theorem resolve_mem (m : Addressing) (s : State) : (resolve m s).state.mem = s.mem := (resolve_frame m s).mem

@[simp] theorem charged_mem (t : Target) : t.charged.mem = t.state.mem := by
  unfold Target.charged; split <;> rfl

@[simp] theorem resolve_mapperRam (m : Addressing) (s : State) : (resolve m s).state.mapperRam = s.mapperRam :=
  (resolve_frame m s).mapperRam

@[simp] theorem charged_mapperRam (t : Target) : t.charged.mapperRam = t.state.mapperRam := by
  unfold Target.charged; split <;> rfl

@[simp] theorem charged_cpu (t : Target) : t.charged.cpu = t.state.cpu := by
  unfold Target.charged; split <;> rfl

theorem effective_withCpu (m : Addressing) (s : State) (c : Cpu) (hx : c.x = s.cpu.x) (hy : c.y = s.cpu.y) :
    effective m (s.withCpu c) = effective m s := by
  cases m <;> simp [effective, State.withCpu, pointerAt, ramByte, hx, hy]

/-! ## The issued instruction -/

theorem issue_eq (i : Instr) (s : State) : issue i s = advanced s i.length (baseCycles i.opcode) := rfl

theorem advanced_pages {s : State} (h : PagesInstalled s) (b c : Nat) : PagesInstalled (advanced s b c) := h.congr rfl

@[simp] theorem effective_advanced (m : Addressing) (s : State) (b c : Nat) :
    effective m (advanced s b c) = effective m s := by cases m <;> rfl

@[simp] theorem crosses_advanced (m : Addressing) (s : State) (b c : Nat) :
    crosses m (advanced s b c) = crosses m s := by cases m <;> rfl

theorem advanced_addClk (s : State) (b c n : Nat) : (advanced s b c).addClk n = advanced s b (c + n) := by
  simp [advanced, State.addClk, Nat.add_assoc]

/-- The read-class operand after an issue whose length and cost are those of its mode. -/
theorem readSource_issue {s : State} (h : PagesInstalled s) (i : Instr) (o : Source)
    (hlen : i.length = o.bytes) (hcyc : baseCycles i.opcode = o.readCycles) :
    readSource o (issue i s) = operand o s := by
  rw [issue_eq, hlen, hcyc]
  cases o with
  | imm d => rfl
  | mem m =>
    simp only [Source.bytes, Source.readCycles, readSource, operand, resolve_eq (advanced_pages h _ _), Target.charged, effective_advanced,
      crosses_advanced]
    cases crosses m s
    · rfl
    · rw [if_pos rfl, advanced_addClk]; rfl

@[simp] theorem operand_cpu (o : Source) (s : State) :
    (operand o s).2.cpu = { s.cpu with pc := s.cpu.pc + BitVec.ofNat 16 o.bytes } := by
  cases o <;> simp [operand, advanced, Source.bytes]

theorem storeAt_issue {s : State} (h : PagesInstalled s) (i : Instr) (m : Addressing) (v : Byte)
    (hlen : i.length = m.bytes) (hcyc : baseCycles i.opcode = m.storeCycles) :
    storeAt m v (issue i s) = stored m v s := by
  rw [issue_eq, hlen, hcyc]
  simp only [storeAt, stored, resolve_eq (advanced_pages h _ _), effective_advanced]

theorem withNZ_eq (p : Status) (v : Byte) : p.withNZ v = p.nz v := by
  have hz : (v == 0#8) = decide (v = 0#8) := by cases h : v == 0#8 <;> simp_all
  have hn : v.getLsbD 7 = decide (128 ≤ v.toNat) := by
    revert v; decide
  simp only [Status.withNZ, Status.nz, hz, hn]

/-- A read-modify-write after an issue whose length and cost are those of its mode: one read, one write, the flags. -/
theorem modifyMemory_issue {s : State} (h : PagesInstalled s) (i : Instr) (m : Addressing) (f : Modifier)
    (hlen : i.length = m.bytes) (hcyc : baseCycles i.opcode = m.modifyCycles) :
    modifyMemory m f (issue i s) =
      (let r := modifyOperand m s
       let w := f r.1 s.cpu.p.c
       (memWrite (effective m s) w.1 r.2).withFlags ({ s.cpu.p with c := w.2 }.nz w.1)) := by
  rw [issue_eq, hlen, hcyc]
  simp only [modifyMemory, modifyOperand, resolve_eq (advanced_pages h _ _), effective_advanced]
  generalize hr : memRead (effective m s) (advanced s m.bytes m.modifyCycles) = r
  have hc : r.2.cpu = (advanced s m.bytes m.modifyCycles).cpu := by rw [← hr]; simp
  have hp : r.2.cpu.p = s.cpu.p := by rw [hc]; rfl
  simp only [hp]
  have hw := memWrite_withCpu (effective m s) (f r.1 s.cpu.p.c).1 r.2
    { r.2.cpu with p := { s.cpu.p with c := (f r.1 s.cpu.p.c).2 } }
  simp only [setC, State.setP, hp]
  simp only [State.withCpu] at hw
  rw [hw]
  simp [setNZ, State.setP, withNZ_eq, State.withFlags]

end Sys2Proof.Machine
end

