-- ==== Sys2Proof/Laws/Exec.lean ====
section
/-! SUPPORT. Everything an instruction and an instruction boundary can do, said once: `exec_induction` reduces a property kept
by every instruction to the few primitive changes, and `boundary_cases` lists what a boundary can come to. -/

namespace Sys2Proof.Machine

/-! ## The register file after the shared operations -/

@[simp] theorem push_cpu (v : Byte) (s : State) : (push v s).cpu = { s.cpu with sp := s.cpu.sp - 1 } := by
  simp [push, State.setSp]

@[simp] theorem pushWord_cpu (w : Word) (s : State) :
    (pushWord w s).cpu = { s.cpu with sp := s.cpu.sp - 1 - 1 } := by simp [pushWord]

@[simp] theorem pull_cpu (s : State) : (pull s).2.cpu = { s.cpu with sp := s.cpu.sp + 1 } := by
  simp [pull, State.setSp]

@[simp] theorem pullWord_cpu (s : State) : (pullWord s).2.cpu = { s.cpu with sp := s.cpu.sp + 1 + 1 } := by
  simp [pullWord]

@[simp] theorem readSource_cpu (o : Source) (s : State) : (readSource o s).2.cpu = s.cpu := by
  cases o <;> simp [readSource]

@[simp] theorem issue_cpu (i : Instr) (s : State) :
    (issue i s).cpu = { s.cpu with pc := s.cpu.pc + BitVec.ofNat 16 i.length } := rfl

@[simp] theorem stop_cpu (s : State) (r : StopReason) : (s.stop r).cpu = s.cpu := rfl

@[simp] theorem stopIfICleared_cpu (b : Bool) (s : State) : (stopIfICleared b s).cpu = s.cpu := by
  unfold stopIfICleared; split <;> rfl

@[simp] theorem setNZ_cpu (v : Byte) (s : State) : (setNZ v s).cpu = { s.cpu with p := s.cpu.p.withNZ v } := rfl

@[simp] theorem setC_cpu (b : Bool) (s : State) : (setC b s).cpu = { s.cpu with p := { s.cpu.p with c := b } } := rfl

@[simp] theorem storeAt_cpu (m : Addressing) (v : Byte) (s : State) : (storeAt m v s).cpu = s.cpu := by
  simp [storeAt]

@[simp] theorem modifyMemory_cpu (m : Addressing) (f : Modifier) (s : State) :
    (modifyMemory m f s).cpu =
      (let r := f (memRead (resolve m s).ea (resolve m s).state).1 s.cpu.p.c
       { s.cpu with p := ({ s.cpu.p with c := r.2 } : Status).withNZ r.1 }) := by
  simp [modifyMemory]

/-! ## CPU-side memory after the shared operations -/

@[simp] theorem pull_mem (s : State) : (pull s).2.mem = s.mem := by simp [pull, State.setSp]

@[simp] theorem pullWord_mem (s : State) : (pullWord s).2.mem = s.mem := by simp [pullWord]

@[simp] theorem readSource_mem (o : Source) (s : State) : (readSource o s).2.mem = s.mem := by
  cases o <;> simp [readSource]

@[simp] theorem issue_mem (i : Instr) (s : State) : (issue i s).mem = s.mem := rfl

@[simp] theorem setNZ_mem (v : Byte) (s : State) : (setNZ v s).mem = s.mem := rfl

@[simp] theorem setC_mem (b : Bool) (s : State) : (setC b s).mem = s.mem := rfl

@[simp] theorem stop_mem (s : State) (r : StopReason) : (s.stop r).mem = s.mem := rfl

@[simp] theorem stopIfICleared_mem (b : Bool) (s : State) : (stopIfICleared b s).mem = s.mem := by
  unfold stopIfICleared; split <;> rfl

@[simp] theorem branchIf_mem (b : Bool) (rel8 : Byte) (s : State) : (branchIf b rel8 s).mem = s.mem := by
  unfold branchIf; split <;> rfl

@[simp] theorem branchIf_p (b : Bool) (rel8 : Byte) (s : State) : (branchIf b rel8 s).cpu.p = s.cpu.p := by
  unfold branchIf; split <;> rfl

@[simp] theorem returnFromInterrupt_mem (s : State) : (returnFromInterrupt s).mem = s.mem := by
  simp [returnFromInterrupt]

/-! ## A mapper variant's own RAM after the shared operations -/

@[simp] theorem pull_mapperRam (s : State) : (pull s).2.mapperRam = s.mapperRam := by simp [pull, State.setSp]

@[simp] theorem pullWord_mapperRam (s : State) : (pullWord s).2.mapperRam = s.mapperRam := by simp [pullWord]

@[simp] theorem readSource_mapperRam (o : Source) (s : State) : (readSource o s).2.mapperRam = s.mapperRam := by
  cases o <;> simp [readSource]

@[simp] theorem issue_mapperRam (i : Instr) (s : State) : (issue i s).mapperRam = s.mapperRam := rfl

@[simp] theorem setNZ_mapperRam (v : Byte) (s : State) : (setNZ v s).mapperRam = s.mapperRam := rfl

@[simp] theorem setC_mapperRam (b : Bool) (s : State) : (setC b s).mapperRam = s.mapperRam := rfl

@[simp] theorem stop_mapperRam (s : State) (r : StopReason) : (s.stop r).mapperRam = s.mapperRam := rfl

@[simp] theorem stopIfICleared_mapperRam (b : Bool) (s : State) : (stopIfICleared b s).mapperRam = s.mapperRam := by
  unfold stopIfICleared; split <;> rfl

@[simp] theorem branchIf_mapperRam (b : Bool) (rel8 : Byte) (s : State) : (branchIf b rel8 s).mapperRam = s.mapperRam := by
  unfold branchIf; split <;> rfl

@[simp] theorem returnFromInterrupt_mapperRam (s : State) : (returnFromInterrupt s).mapperRam = s.mapperRam := by
  simp [returnFromInterrupt]

/-! ## A property every primitive change keeps is kept by every instruction -/

/-- The primitive changes every instruction is made of: the register file, the clock, an access. -/
structure KeptByAccess (P : State → Prop) : Prop where
  cpu : ∀ s c, P s → P (s.withCpu c)
  clk : ∀ s n, P s → P (s.addClk n)
  read : ∀ a s, P s → P (memRead a s).2
  write : ∀ a v s, P s → P (memWrite a v s)

/-- With the two more that CLI, PLP, RTI and the illegal opcodes are made of. -/
structure Kept (P : State → Prop) : Prop extends KeptByAccess P where
  stop : ∀ s r, P s → P (s.stop r)
  error : ∀ s, P s → P { s with errorCount := s.errorCount + 1 }

namespace KeptByAccess

variable {P : State → Prop} (k : KeptByAccess P)
include k

theorem setP {s : State} (p : Status) (h : P s) : P (s.setP p) := k.cpu s _ h

theorem setPc {s : State} (w : Word) (h : P s) : P (s.setPc w) := k.cpu s _ h

theorem setSp {s : State} (v : Byte) (h : P s) : P (s.setSp v) := k.cpu s _ h

theorem setA {s : State} (v : Byte) (h : P s) : P (s.setA v) := k.cpu s _ h

theorem setX {s : State} (v : Byte) (h : P s) : P (s.setX v) := k.cpu s _ h

theorem setY {s : State} (v : Byte) (h : P s) : P (s.setY v) := k.cpu s _ h

theorem setNZ {s : State} (v : Byte) (h : P s) : P (setNZ v s) := k.cpu s _ h

theorem setC {s : State} (b : Bool) (h : P s) : P (setC b s) := k.cpu s _ h

theorem issue {s : State} (i : Instr) (h : P s) : P (issue i s) := k.clk _ _ (k.setPc _ h)

theorem push {s : State} (v : Byte) (h : P s) : P (push v s) := k.setSp _ (k.write _ _ _ h)

theorem pushWord {s : State} (w : Word) (h : P s) : P (pushWord w s) := k.push _ (k.push _ h)

theorem pull {s : State} (h : P s) : P (pull s).2 := k.read _ _ (k.setSp _ h)

theorem pullWord {s : State} (h : P s) : P (pullWord s).2 := k.pull (k.pull h)

theorem readPair {s : State} (l a : Word) (h : P s) : P (readPair l a s).2 := k.read _ _ (k.read _ _ h)

theorem readWord {s : State} (a : Word) (h : P s) : P (readWord a s).2 := k.readPair _ _ h

theorem readWordWrap {s : State} (a : Word) (h : P s) : P (readWordWrap a s).2 := k.readPair _ _ h

theorem resolve {s : State} (m : Addressing) (h : P s) : P (resolve m s).state := by
  cases m
  case izx d => exact k.readWordWrap _ h
  case izy d => exact k.readWordWrap _ h
  all_goals exact h

theorem readSource {s : State} (o : Source) (h : P s) : P (readSource o s).2 := by
  cases o with
  | imm d => exact h
  | mem m =>
    refine k.read _ _ ?_
    unfold Target.charged
    split
    · exact k.clk _ _ (k.resolve m h)
    · exact k.resolve m h

theorem withSource {s : State} (o : Source) {f : Byte → State → State} (hf : ∀ v t, P t → P (f v t)) (h : P s) :
    P (withSource o f s) := hf _ _ (k.readSource o h)

theorem storeAt {s : State} (m : Addressing) (v : Byte) (h : P s) : P (storeAt m v s) :=
  k.write _ _ _ (k.resolve m h)

theorem modifyMemory {s : State} (m : Addressing) (f : Modifier) (h : P s) : P (modifyMemory m f s) :=
  k.setNZ _ (k.write _ _ _ (k.setC _ (k.read _ _ (k.resolve m h))))

theorem modifyShift {s : State} (m : ShiftMode) (f : Modifier) (h : P s) : P (modifyShift m f s) := by
  unfold Machine.modifyShift
  split
  · exact k.setNZ _ (k.setA _ (k.setC _ h))
  · exact k.modifyMemory _ f h

theorem branchIf {s : State} (b : Bool) (rel8 : Byte) (h : P s) : P (branchIf b rel8 s) := by
  unfold Machine.branchIf
  split
  · exact k.setPc _ (k.clk _ _ h)
  · exact h

theorem takeInterrupt {s : State} (ret : Word) (b : Bool) (vector : Word) (h : P s) :
    P (takeInterrupt ret b vector s) :=
  k.setPc _ (k.readWord _ (k.setP _ (k.push _ (k.pushWord _ h))))

theorem interruptEntry {s : State} (vector : Word) (h : P s) : P (interruptEntry vector s) :=
  k.clk _ _ (k.takeInterrupt _ _ _ h)

theorem addToA {s : State} (m : Byte) (h : P s) : P (addToA m s) := k.setNZ _ (k.setP _ (k.setA _ h))

theorem compareWith {s : State} (r m : Byte) (h : P s) : P (compareWith r m s) := k.setNZ _ (k.setC _ h)

/-- Every instruction that cannot end a `run` keeps what holds once it is issued. -/
theorem exec {s : State} (i : Instr) (hr : i.canEndRun = false) (h : P (Machine.issue i s)) : ∃ t, exec i s = .next t ∧ P t := by
  cases i
  case lda m => exact ⟨_, rfl, k.withSource _ (fun _ _ h => k.setNZ _ (k.setA _ h)) h⟩
  case ldx m => exact ⟨_, rfl, k.withSource _ (fun _ _ h => k.setNZ _ (k.setX _ h)) h⟩
  case ldy m => exact ⟨_, rfl, k.withSource _ (fun _ _ h => k.setNZ _ (k.setY _ h)) h⟩
  case sta m => exact ⟨_, rfl, k.storeAt _ _ h⟩
  case stx m => exact ⟨_, rfl, k.storeAt _ _ h⟩
  case sty m => exact ⟨_, rfl, k.storeAt _ _ h⟩
  case tax => exact ⟨_, rfl, k.setNZ _ (k.setX _ h)⟩
  case tay => exact ⟨_, rfl, k.setNZ _ (k.setY _ h)⟩
  case txa => exact ⟨_, rfl, k.setNZ _ (k.setA _ h)⟩
  case tya => exact ⟨_, rfl, k.setNZ _ (k.setA _ h)⟩
  case tsx => exact ⟨_, rfl, k.setNZ _ (k.setX _ h)⟩
  case txs => exact ⟨_, rfl, k.setSp _ h⟩
  case pha => exact ⟨_, rfl, k.push _ h⟩
  case php => exact ⟨_, rfl, k.push _ h⟩
  case pla => exact ⟨_, rfl, k.setNZ _ (k.setA _ (k.pull h))⟩
  case plp => cases hr
  case adc m => exact ⟨_, rfl, k.withSource _ (fun _ _ h => k.addToA _ h) h⟩
  case sbc m => exact ⟨_, rfl, k.withSource _ (fun _ _ h => k.addToA _ h) h⟩
  case cmp m => exact ⟨_, rfl, k.withSource _ (fun _ _ h => k.compareWith _ _ h) h⟩
  case cpx m => exact ⟨_, rfl, k.withSource _ (fun _ _ h => k.compareWith _ _ h) h⟩
  case cpy m => exact ⟨_, rfl, k.withSource _ (fun _ _ h => k.compareWith _ _ h) h⟩
  case inc m => exact ⟨_, rfl, k.modifyMemory _ _ h⟩
  case inx => exact ⟨_, rfl, k.setNZ _ (k.setX _ h)⟩
  case iny => exact ⟨_, rfl, k.setNZ _ (k.setY _ h)⟩
  case dec m => exact ⟨_, rfl, k.modifyMemory _ _ h⟩
  case dex => exact ⟨_, rfl, k.setNZ _ (k.setX _ h)⟩
  case dey => exact ⟨_, rfl, k.setNZ _ (k.setY _ h)⟩
  case and m => exact ⟨_, rfl, k.withSource _ (fun _ _ h => k.setNZ _ (k.setA _ h)) h⟩
  case ora m => exact ⟨_, rfl, k.withSource _ (fun _ _ h => k.setNZ _ (k.setA _ h)) h⟩
  case eor m => exact ⟨_, rfl, k.withSource _ (fun _ _ h => k.setNZ _ (k.setA _ h)) h⟩
  case bit m => exact ⟨_, rfl, k.withSource _ (fun _ _ h => k.setP _ h) h⟩
  case asl m => exact ⟨_, rfl, k.modifyShift _ _ h⟩
  case lsr m => exact ⟨_, rfl, k.modifyShift _ _ h⟩
  case rol m => exact ⟨_, rfl, k.modifyShift _ _ h⟩
  case ror m => exact ⟨_, rfl, k.modifyShift _ _ h⟩
  case jmp m =>
    cases m with
    | abs a => exact ⟨_, rfl, k.setPc _ h⟩
    | ind a => exact ⟨_, rfl, k.setPc _ (k.readWordWrap _ h)⟩
  case jsr a => exact ⟨_, rfl, k.setPc _ (k.pushWord _ h)⟩
  case rts => exact ⟨_, rfl, k.setPc _ (k.pullWord h)⟩
  case rti => cases hr
  case brk => exact ⟨_, rfl, k.takeInterrupt _ _ _ h⟩
  case bcc r => exact ⟨_, rfl, k.branchIf _ _ h⟩
  case bcs r => exact ⟨_, rfl, k.branchIf _ _ h⟩
  case beq r => exact ⟨_, rfl, k.branchIf _ _ h⟩
  case bne r => exact ⟨_, rfl, k.branchIf _ _ h⟩
  case bmi r => exact ⟨_, rfl, k.branchIf _ _ h⟩
  case bpl r => exact ⟨_, rfl, k.branchIf _ _ h⟩
  case bvc r => exact ⟨_, rfl, k.branchIf _ _ h⟩
  case bvs r => exact ⟨_, rfl, k.branchIf _ _ h⟩
  case clc => exact ⟨_, rfl, k.setP _ h⟩
  case sec => exact ⟨_, rfl, k.setP _ h⟩
  case cli => cases hr
  case sei => exact ⟨_, rfl, k.setP _ h⟩
  case clv => exact ⟨_, rfl, k.setP _ h⟩
  case cld => exact ⟨_, rfl, k.setP _ h⟩
  case sed => exact ⟨_, rfl, k.setP _ h⟩
  case nop => exact ⟨_, rfl, h⟩
  case ill op => cases hr

end KeptByAccess

namespace Kept

variable {P : State → Prop} (k : Kept P)
include k

theorem stopIfICleared {s : State} (b : Bool) (h : P s) : P (stopIfICleared b s) := by
  unfold Machine.stopIfICleared
  split
  · exact k.stop _ _ h
  · exact h

theorem returnFromInterrupt {s : State} (h : P s) : P (returnFromInterrupt s) :=
  k.stopIfICleared _ (k.setPc _ (k.pullWord (k.setP _ (k.pull h))))

/-- Every instruction keeps it. -/
theorem exec {s : State} (i : Instr) (h : P s) : ∃ t, exec i s = .next t ∧ P t := by
  cases hr : i.canEndRun with
  | false => exact k.toKeptByAccess.exec i hr (k.issue i h)
  | true =>
    cases i
    case plp => exact ⟨_, rfl, k.stopIfICleared _ (k.setP _ (k.pull (k.issue _ h)))⟩
    case rti => exact ⟨_, rfl, k.returnFromInterrupt (k.issue _ h)⟩
    case cli => exact ⟨_, rfl, k.stopIfICleared _ (k.setP _ (k.issue _ h))⟩
    case ill op => exact ⟨_, rfl, k.clk _ _ (k.setPc _ (k.error _ (k.stop _ _ h)))⟩
    all_goals cases hr

end Kept

/-- A property kept by every primitive change is kept by every instruction that answers a next state. -/
theorem exec_induction {P : State → Prop} (k : Kept P) {i : Instr} {s t : State} (e : exec i s = .next t) (h : P s) :
    P t := by
  obtain ⟨u, hu, p⟩ := k.exec i h
  rw [hu] at e
  cases e
  exact p

/-! ## Boundaries -/

/-- What a boundary can come to, in the order of R237: a `run` in progress goes on; the frame ends; an NMI is taken; an IRQ
is taken with I clear; a `run` is opened, with an instruction due or with its stop time already reached. -/
theorem boundary_cases (s : State) :
    (∃ e, s.endCycle = some e ∧ s.clk < e ∧ boundary s = .run s) ∨
    ((∀ e, s.endCycle = some e → e ≤ s.clk) ∧
      (((passStart s).ppu.frameLen ≤ (passStart s).clk ∧ boundary s = .handled (endFrame (passStart s))) ∨
       ((passStart s).clk < (passStart s).ppu.frameLen ∧
        ((due (passStart s).nmiTime (passStart s).clk = true ∧ boundary s = .handled (vectorNmi (passStart s))) ∨
         (due (passStart s).nmiTime (passStart s).clk = false ∧
          (((refreshIrq (passStart s)).cpu.p.i = false ∧
              due (refreshIrq (passStart s)).irqTime (refreshIrq (passStart s)).clk = true ∧
              boundary s = .handled (vectorIrq (refreshIrq (passStart s)))) ∨
           ((!(refreshIrq (passStart s)).cpu.p.i &&
              due (refreshIrq (passStart s)).irqTime (refreshIrq (passStart s)).clk) = false ∧
            boundary s = checkStopTime (openRun (refreshIrq (passStart s)))))))))) := by
  have pass : ((passStart s).ppu.frameLen ≤ (passStart s).clk ∧ controllerPass s = .handled (endFrame (passStart s))) ∨
      ((passStart s).clk < (passStart s).ppu.frameLen ∧
        ((due (passStart s).nmiTime (passStart s).clk = true ∧ controllerPass s = .handled (vectorNmi (passStart s))) ∨
         (due (passStart s).nmiTime (passStart s).clk = false ∧
          (((refreshIrq (passStart s)).cpu.p.i = false ∧
              due (refreshIrq (passStart s)).irqTime (refreshIrq (passStart s)).clk = true ∧
              controllerPass s = .handled (vectorIrq (refreshIrq (passStart s)))) ∨
           ((!(refreshIrq (passStart s)).cpu.p.i &&
              due (refreshIrq (passStart s)).irqTime (refreshIrq (passStart s)).clk) = false ∧
            controllerPass s = checkStopTime (openRun (refreshIrq (passStart s)))))))) := by
    unfold controllerPass
    simp only
    generalize passStart s = q
    by_cases hf : q.ppu.frameLen ≤ q.clk
    · exact .inl ⟨hf, by rw [if_pos hf]⟩
    · refine .inr ⟨by omega, ?_⟩
      rw [if_neg hf]
      cases hn : due q.nmiTime q.clk
      · refine .inr ⟨rfl, ?_⟩
        cases hi : !(refreshIrq q).cpu.p.i && due (refreshIrq q).irqTime (refreshIrq q).clk
        · exact .inr ⟨rfl, by simp⟩
        · simp only [Bool.and_eq_true, Bool.not_eq_true'] at hi
          exact .inl ⟨hi.1, hi.2, by simp⟩
      · exact .inl ⟨rfl, by simp⟩
  cases he : s.endCycle with
  | none =>
    rw [show boundary s = controllerPass s by simp [boundary, he]]
    exact .inr ⟨by simp, pass⟩
  | some e =>
    by_cases hle : e ≤ s.clk
    · rw [show boundary s = controllerPass s by simp [boundary, he, hle]]
      exact .inr ⟨by simpa using hle, pass⟩
    · exact .inl ⟨e, rfl, by omega, by simp [boundary, he, hle]⟩

/-- Coming up to a boundary changes nothing a read does not change. -/
theorem syncBoundary_frame (s : State) : ReadFrame s (syncBoundary s) := by
  have h := catchUp_frame s.clk s
  unfold syncBoundary
  simp only
  split
  · exact h.trans (vblEvent_frame _)
  · exact h

/-- A pass starts with the registers, CPU-side memory, the clock and the counts as the boundary found them. -/
theorem passStart_same (s : State) :
    (passStart s).cpu = s.cpu ∧ (passStart s).mem = s.mem ∧ (passStart s).clk = s.clk ∧
    (passStart s).pageTable = s.pageTable ∧ (passStart s).errorCount = s.errorCount ∧ (passStart s).cart = s.cart ∧
    (passStart s).params = s.params ∧ (passStart s).irqTime = s.irqTime ∧ (passStart s).apu = s.apu ∧
    (passStart s).ppu.phase = s.ppu.phase := by
  unfold passStart
  simp only
  generalize h1 : (if s.endCycle = none then s else s.stop .cycles) = u
  have hu : u.cpu = s.cpu ∧ u.mem = s.mem ∧ u.clk = s.clk ∧ u.pageTable = s.pageTable ∧ u.errorCount = s.errorCount ∧
      u.cart = s.cart ∧ u.params = s.params ∧ u.irqTime = s.irqTime ∧ u.apu = s.apu ∧ u.ppu.phase = s.ppu.phase := by
    subst h1; split <;> simp [State.stop]
  generalize h2 : (if u.inFrame then u else beginFrame u) = w
  have hw : w.cpu = u.cpu ∧ w.mem = u.mem ∧ w.clk = u.clk ∧ w.pageTable = u.pageTable ∧ w.errorCount = u.errorCount ∧
      w.cart = u.cart ∧ w.params = u.params ∧ w.irqTime = u.irqTime ∧ w.apu = u.apu ∧ w.ppu.phase = u.ppu.phase := by
    subst h2; split <;> simp [beginFrame]
  have f := syncBoundary_frame w
  simp only [f.cpu, f.mem, f.clk, f.pageTable, f.errorCount, f.cart, f.params, f.irqTime, f.apu, f.phase, hw, hu, and_self]

theorem passStart_mapperRam (s : State) : (passStart s).mapperRam = s.mapperRam := by
  unfold passStart
  simp only
  rw [(syncBoundary_frame _).mapperRam]
  split <;> simp only [beginFrame] <;> split <;> rfl

theorem refreshIrq_frame (s : State) : WriteFrame s { refreshIrq s with irqTime := s.irqTime } := by
  have h := (mapperRunUntil_frame s.clk s).toWrite.trans (apuRunUntil_frame s.clk _)
  exact { h with irqTime := rfl }

end Sys2Proof.Machine
end

