-- ==== Sys2Proof/Laws/Host.lean ====
section
/-! SUPPORT. What the host's calls do to CPU-side memory, and that each keeps its canonical form. -/

namespace Sys2Proof.Machine

/-- Work RAM after a reset (R345): `RAM_POWERUP` after a full one, as it was after a soft one. -/
theorem memAfterReset_ram (full erase battery : Bool) (p : Params) (m : Memory) {k : Nat} (hk : k < 0x800) :
    Memory.read (memAfterReset full erase battery p m) k =
      if full then p.ramPowerUp.getD k Config.ramPowerUpDefault else Memory.read m k := by
  unfold memAfterReset
  simp only
  cases full
  · simp [Memory.read_forget, cartRamKey, show ¬ 0x6000 ≤ k by omega]
  · rw [if_pos rfl, if_pos rfl, Memory.read_load, if_pos (Nat.zero_le k), Memory.read_forget]
    simp only [List.getD_eq_getElem?_getD, Nat.sub_zero, List.getElem?_take_of_lt hk]
    simp [hk, Memory.blank]

/-- Every other cell after a reset (R349): `erase` clears battery-backed cartridge RAM, and nothing else changes. -/
theorem memAfterReset_rest (full erase battery : Bool) (p : Params) (m : Memory) {k : Nat} (hk : 0x800 ≤ k) :
    Memory.read (memAfterReset full erase battery p m) k =
      if erase && battery && cartRamKey ≤ k && k < prgKey then Memory.blank k else Memory.read m k := by
  unfold memAfterReset
  simp only
  cases full
  · simp only [Bool.false_eq_true, if_false, Memory.read_forget]
  · rw [if_pos rfl, Memory.read_load, if_pos (Nat.zero_le k), Memory.read_forget, Memory.read_forget,
      List.getD_eq_getElem?_getD, List.getElem?_eq_none (Nat.le_trans (List.length_take_le _ _) (by simpa using hk))]
    simp [show ¬ k < 0x800 by omega]

theorem memAfterReset_wf {m : Memory} (h : Memory.wf m) (full erase battery : Bool) (p : Params) :
    Memory.wf (memAfterReset full erase battery p m) := by
  unfold memAfterReset
  simp only
  split
  · exact Memory.wf_load (Memory.wf_forget (Memory.wf_forget h _) _) _ _
  · exact Memory.wf_forget h _

/-- A reset keeps the canonical form of memory. -/
theorem hostReset_wf {s : State} (h : Memory.wf s.mem) (full erase : Bool) : Memory.wf (hostReset full erase s).mem := by
  unfold hostReset
  simp only [State.setPc, readWord_mem, mapperReset, applyMapping]
  exact memAfterReset_wf h full erase s.cart.battery s.params

/-- It keeps the order of the bytes written to a mapper variant's own RAM. -/
theorem hostReset_sorted {s : State} (h : Assoc.sorted s.mapperRam.cells) (full erase : Bool) :
    Assoc.sorted (hostReset full erase s).mapperRam.cells := by
  unfold hostReset
  simp only [State.setPc, readWord_mapperRam, mapperReset, applyMapping, MapperRam.afterReset]
  split
  · exact List.Pairwise.nil
  · exact h

/-- Loading a cartridge keeps it. -/
theorem insertCartridge_wf {s : State} (h : Memory.wf s.mem) (c : Cartridge) (prg chr : List Byte) :
    Memory.wf (insertCartridge c prg chr s).mem :=
  Memory.wf_load (Memory.wf_load (Memory.wf_forget h _) _ _) _ _

/-- Restoring a battery file keeps it. -/
theorem restoreBattery_wf {s : State} (h : Memory.wf s.mem) (file : List Byte) : Memory.wf (restoreBattery file s).mem :=
  Memory.wf_load h _ _

/-- And the order of the bytes of a mapper variant's own RAM. -/
theorem restoreBattery_sorted {s : State} (h : Assoc.sorted s.mapperRam.cells) (file : List Byte) :
    Assoc.sorted (restoreBattery file s).mapperRam.cells := MapperRam.sorted_load h _

/-- Nothing survives a load in the memories that are the cartridge's: the mapper variant's own RAM and the nametable memory past
the PPU's 2KB hold free bytes of the load's own index (R42, R78; log entries 27 and 28). -/
theorem insertCartridge_unspecified (c : Cartridge) (prg chr : List Byte) (s : State) (k : Nat) :
    (insertCartridge c prg chr s).mapperRam.byte k = Config.mapperRamByte (s.freeReads + 1) k ∧
    (onChipNametableBytes ≤ k →
      (insertCartridge c prg chr s).ppu.cell .nametable (insertCartridge c prg chr s).ppu.nt k =
        Config.powerUpByte (s.freeReads + 1) .nametable k) :=
  ⟨rfl, fun hk => Ppu.afterLoad_nt _ _ _ hk⟩

/-- A restored battery file is what cartridge RAM holds, as far as it goes (R349). -/
theorem restoreBattery_read (file : List Byte) (s : State) {k : Nat} (h : k < Config.cartRamBytes) :
    Memory.read (restoreBattery file s).mem (cartRamKey + k) = file.getD k (Memory.read s.mem (cartRamKey + k)) := by
  unfold restoreBattery
  rw [Memory.read_load, if_pos (Nat.le_add_right _ _), Nat.add_sub_cancel_left]
  simp only [List.getD_eq_getElem?_getD, List.getElem?_take_of_lt h]

/-- The program bytes of a loaded cartridge are its image (R327). -/
theorem insertCartridge_program (c : Cartridge) (prg chr : List Byte) (s : State) {k : Nat} (h : k < prg.length) :
    Memory.read (insertCartridge c prg chr s).mem (prgKey + k) = prg[k] := by
  unfold insertCartridge
  rw [Memory.read_load, if_pos (Nat.le_add_right _ _), Nat.add_sub_cancel_left, List.getD_eq_getElem?_getD,
    List.getElem?_eq_getElem h]
  rfl

end Sys2Proof.Machine
end

