-- ==== Sys2Proof/Laws/PerInstr.lean ====
section
/-! SUPPORT. Per instruction: its length is the one its operand form gives (R101, R102) and its base cost in `CYCLES` is the one
the rule of its mnemonic and mode gives (R118, R125). -/

namespace Sys2Proof.Laws.LengthAndCost

open Sys2Proof Sys2Proof.Machine

/-- What is said of one instruction. -/
def Statement (i : Instr) : Prop :=
  i.wellFormed = true → i.length = i.bytes ∧ baseCycles i.opcode = i.cycles

theorem lda (m : AluMode) : Statement (.lda m) := by
  intro _; cases m <;> exact ⟨rfl, by simp only [Instr.opcode]; rfl⟩

theorem ldx (m : LdxMode) : Statement (.ldx m) := by
  intro _; cases m <;> exact ⟨rfl, by simp only [Instr.opcode]; rfl⟩

theorem ldy (m : LdyMode) : Statement (.ldy m) := by
  intro _; cases m <;> exact ⟨rfl, by simp only [Instr.opcode]; rfl⟩

theorem sta (m : StaMode) : Statement (.sta m) := by
  intro _; cases m <;> exact ⟨rfl, by simp only [Instr.opcode]; rfl⟩

theorem stx (m : StxMode) : Statement (.stx m) := by
  intro _; cases m <;> exact ⟨rfl, by simp only [Instr.opcode]; rfl⟩

theorem sty (m : StyMode) : Statement (.sty m) := by
  intro _; cases m <;> exact ⟨rfl, by simp only [Instr.opcode]; rfl⟩

theorem tax : Statement .tax := fun _ => ⟨rfl, rfl⟩

theorem tay : Statement .tay := fun _ => ⟨rfl, rfl⟩

theorem txa : Statement .txa := fun _ => ⟨rfl, rfl⟩

theorem tya : Statement .tya := fun _ => ⟨rfl, rfl⟩

theorem tsx : Statement .tsx := fun _ => ⟨rfl, rfl⟩

theorem txs : Statement .txs := fun _ => ⟨rfl, rfl⟩

theorem pha : Statement .pha := fun _ => ⟨rfl, rfl⟩

theorem php : Statement .php := fun _ => ⟨rfl, rfl⟩

theorem pla : Statement .pla := fun _ => ⟨rfl, rfl⟩

theorem plp : Statement .plp := fun _ => ⟨rfl, rfl⟩

theorem adc (m : AluMode) : Statement (.adc m) := by
  intro _; cases m <;> exact ⟨rfl, by simp only [Instr.opcode]; rfl⟩

theorem sbc (m : AluMode) : Statement (.sbc m) := by
  intro _; cases m <;> exact ⟨rfl, by simp only [Instr.opcode]; rfl⟩

theorem cmp (m : AluMode) : Statement (.cmp m) := by
  intro _; cases m <;> exact ⟨rfl, by simp only [Instr.opcode]; rfl⟩

theorem cpx (m : CmpMode) : Statement (.cpx m) := by
  intro _; cases m <;> exact ⟨rfl, by simp only [Instr.opcode]; rfl⟩

theorem cpy (m : CmpMode) : Statement (.cpy m) := by
  intro _; cases m <;> exact ⟨rfl, by simp only [Instr.opcode]; rfl⟩

theorem inc (m : RmwMode) : Statement (.inc m) := by
  intro _; cases m <;> exact ⟨rfl, by simp only [Instr.opcode]; rfl⟩

theorem inx : Statement .inx := fun _ => ⟨rfl, rfl⟩

theorem iny : Statement .iny := fun _ => ⟨rfl, rfl⟩

theorem dec (m : RmwMode) : Statement (.dec m) := by
  intro _; cases m <;> exact ⟨rfl, by simp only [Instr.opcode]; rfl⟩

theorem dex : Statement .dex := fun _ => ⟨rfl, rfl⟩

theorem dey : Statement .dey := fun _ => ⟨rfl, rfl⟩

theorem and (m : AluMode) : Statement (.and m) := by
  intro _; cases m <;> exact ⟨rfl, by simp only [Instr.opcode]; rfl⟩

theorem ora (m : AluMode) : Statement (.ora m) := by
  intro _; cases m <;> exact ⟨rfl, by simp only [Instr.opcode]; rfl⟩

theorem eor (m : AluMode) : Statement (.eor m) := by
  intro _; cases m <;> exact ⟨rfl, by simp only [Instr.opcode]; rfl⟩

theorem bit (m : BitMode) : Statement (.bit m) := by
  intro _; cases m <;> exact ⟨rfl, by simp only [Instr.opcode]; rfl⟩

theorem asl (m : ShiftMode) : Statement (.asl m) := by
  intro _; cases m <;> exact ⟨rfl, by simp only [Instr.opcode]; rfl⟩

theorem lsr (m : ShiftMode) : Statement (.lsr m) := by
  intro _; cases m <;> exact ⟨rfl, by simp only [Instr.opcode]; rfl⟩

theorem rol (m : ShiftMode) : Statement (.rol m) := by
  intro _; cases m <;> exact ⟨rfl, by simp only [Instr.opcode]; rfl⟩

theorem ror (m : ShiftMode) : Statement (.ror m) := by
  intro _; cases m <;> exact ⟨rfl, by simp only [Instr.opcode]; rfl⟩

theorem jmp (m : JmpMode) : Statement (.jmp m) := by
  intro _; cases m <;> exact ⟨rfl, by simp only [Instr.opcode]; rfl⟩

theorem jsr (a16 : Word) : Statement (.jsr a16) := fun _ => ⟨rfl, by simp only [Instr.opcode]; rfl⟩

theorem rts : Statement .rts := fun _ => ⟨rfl, rfl⟩

theorem rti : Statement .rti := fun _ => ⟨rfl, rfl⟩

theorem brk : Statement .brk := fun _ => ⟨rfl, rfl⟩

theorem bcc (rel8 : Byte) : Statement (.bcc rel8) := fun _ => ⟨rfl, by simp only [Instr.opcode]; rfl⟩

theorem bcs (rel8 : Byte) : Statement (.bcs rel8) := fun _ => ⟨rfl, by simp only [Instr.opcode]; rfl⟩

theorem beq (rel8 : Byte) : Statement (.beq rel8) := fun _ => ⟨rfl, by simp only [Instr.opcode]; rfl⟩

theorem bne (rel8 : Byte) : Statement (.bne rel8) := fun _ => ⟨rfl, by simp only [Instr.opcode]; rfl⟩

theorem bmi (rel8 : Byte) : Statement (.bmi rel8) := fun _ => ⟨rfl, by simp only [Instr.opcode]; rfl⟩

theorem bpl (rel8 : Byte) : Statement (.bpl rel8) := fun _ => ⟨rfl, by simp only [Instr.opcode]; rfl⟩

theorem bvc (rel8 : Byte) : Statement (.bvc rel8) := fun _ => ⟨rfl, by simp only [Instr.opcode]; rfl⟩

theorem bvs (rel8 : Byte) : Statement (.bvs rel8) := fun _ => ⟨rfl, by simp only [Instr.opcode]; rfl⟩

theorem clc : Statement .clc := fun _ => ⟨rfl, rfl⟩

theorem sec : Statement .sec := fun _ => ⟨rfl, rfl⟩

theorem cli : Statement .cli := fun _ => ⟨rfl, rfl⟩

theorem sei : Statement .sei := fun _ => ⟨rfl, rfl⟩

theorem clv : Statement .clv := fun _ => ⟨rfl, rfl⟩

theorem cld : Statement .cld := fun _ => ⟨rfl, rfl⟩

theorem sed : Statement .sed := fun _ => ⟨rfl, rfl⟩

theorem nop : Statement .nop := fun _ => ⟨rfl, rfl⟩

theorem ill (op : Byte) : Statement (.ill op) := by
  intro h
  have two : ∀ b : Byte, isIllegalOpcode b = true → baseCycles b = 2 := by decide
  exact ⟨rfl, two op h⟩

end Sys2Proof.Laws.LengthAndCost
end

