-- ==== Sys2Proof/Laws/Issue.lean ====
section
/-! SUPPORT. What the issue of a well-formed instruction comes to: PC past its bytes and its base cost on the clock, both by
its operand form. -/

namespace Sys2Proof.Machine

open Sys2Proof.Laws

theorem lengthAndCost (i : Instr) : LengthAndCost.Statement i := by
  cases i with
  | lda m => exact LengthAndCost.lda m
  | ldx m => exact LengthAndCost.ldx m
  | ldy m => exact LengthAndCost.ldy m
  | sta m => exact LengthAndCost.sta m
  | stx m => exact LengthAndCost.stx m
  | sty m => exact LengthAndCost.sty m
  | tax => exact LengthAndCost.tax
  | tay => exact LengthAndCost.tay
  | txa => exact LengthAndCost.txa
  | tya => exact LengthAndCost.tya
  | tsx => exact LengthAndCost.tsx
  | txs => exact LengthAndCost.txs
  | pha => exact LengthAndCost.pha
  | php => exact LengthAndCost.php
  | pla => exact LengthAndCost.pla
  | plp => exact LengthAndCost.plp
  | adc m => exact LengthAndCost.adc m
  | sbc m => exact LengthAndCost.sbc m
  | cmp m => exact LengthAndCost.cmp m
  | cpx m => exact LengthAndCost.cpx m
  | cpy m => exact LengthAndCost.cpy m
  | inc m => exact LengthAndCost.inc m
  | inx => exact LengthAndCost.inx
  | iny => exact LengthAndCost.iny
  | dec m => exact LengthAndCost.dec m
  | dex => exact LengthAndCost.dex
  | dey => exact LengthAndCost.dey
  | and m => exact LengthAndCost.and m
  | ora m => exact LengthAndCost.ora m
  | eor m => exact LengthAndCost.eor m
  | bit m => exact LengthAndCost.bit m
  | asl m => exact LengthAndCost.asl m
  | lsr m => exact LengthAndCost.lsr m
  | rol m => exact LengthAndCost.rol m
  | ror m => exact LengthAndCost.ror m
  | jmp m => exact LengthAndCost.jmp m
  | jsr m => exact LengthAndCost.jsr m
  | rts => exact LengthAndCost.rts
  | rti => exact LengthAndCost.rti
  | brk => exact LengthAndCost.brk
  | bcc m => exact LengthAndCost.bcc m
  | bcs m => exact LengthAndCost.bcs m
  | beq m => exact LengthAndCost.beq m
  | bne m => exact LengthAndCost.bne m
  | bmi m => exact LengthAndCost.bmi m
  | bpl m => exact LengthAndCost.bpl m
  | bvc m => exact LengthAndCost.bvc m
  | bvs m => exact LengthAndCost.bvs m
  | clc => exact LengthAndCost.clc
  | sec => exact LengthAndCost.sec
  | cli => exact LengthAndCost.cli
  | sei => exact LengthAndCost.sei
  | clv => exact LengthAndCost.clv
  | cld => exact LengthAndCost.cld
  | sed => exact LengthAndCost.sed
  | nop => exact LengthAndCost.nop
  | ill m => exact LengthAndCost.ill m

theorem issue_advanced {i : Instr} (h : i.wellFormed = true) (s : State) : issue i s = advanced s i.bytes i.cycles := by
  rw [issue_eq, (lengthAndCost i h).1, (lengthAndCost i h).2]

/-- Every instruction takes at least two cycles (R125). -/
theorem two_le_cycles (i : Instr) : 2 ≤ i.cycles := by
  cases i
  all_goals try (rename_i m; cases m)
  all_goals exact Nat.le_of_ble_eq_true rfl

end Sys2Proof.Machine
end

