-- ==== Sys2Proof/Laws/Stack.lean ====
section
/-! SUPPORT. The stack with the pages installed, said once: what a push, a pull, an interrupt entry and a return come to
(R75 to R77, R188, R236), and the pointer that wraps in its page (R73). -/

namespace Sys2Proof

theorem word_toNat (l h : Byte) : (word l h).toNat = l.toNat + 256 * h.toNat := by
  unfold word
  rw [BitVec.toNat_append, ← Nat.shiftLeft_add_eq_or_of_lt l.isLt, Nat.shiftLeft_eq]
  omega

theorem lo_toNat (a : Word) : (lo a).toNat = a.toNat % 256 := by simp [lo]

theorem hi_toNat (a : Word) : (hi a).toNat = a.toNat / 256 := by
  have := a.isLt
  simp [hi, Nat.shiftRight_eq_div_pow]
  omega

end Sys2Proof

namespace Sys2Proof.Machine

/-! ## The pointer in its page -/

theorem nextInPage_eq (a : Word) : nextInPage a = word (lo (a + 1)) (hi a) := by
  apply BitVec.eq_of_getLsbD_eq
  intro i hi'
  unfold nextInPage word
  rw [BitVec.getLsbD_append]
  by_cases h8 : i < 8
  · have hc : (0xFF00#16).getLsbD i = false ∧ (0xFF#16).getLsbD i = true := by revert i; decide
    simp [h8, hc, lo]
  · have hc : (0xFF00#16).getLsbD i = true ∧ (0xFF#16).getLsbD i = false := by
      have : ∀ i, i < 16 → ¬ i < 8 → (0xFF00#16).getLsbD i = true ∧ (0xFF#16).getLsbD i = false := by decide
      exact this i hi' h8
    simp [h8, hc, Sys2Proof.hi, show i - 8 < 8 by omega, show 8 + (i - 8) = i by omega]

theorem nextInPage_toNat (a : Word) :
    (nextInPage a).toNat = if a.toNat % 256 = 255 then a.toNat - 255 else a.toNat + 1 := by
  have := a.isLt
  rw [nextInPage_eq, word_toNat, lo_toNat, hi_toNat, BitVec.toNat_add]
  split <;> simp <;> omega

/-! ## One byte -/

theorem stackAddr_toNat (sp : Byte) : (stackAddr sp).toNat = 0x100 + sp.toNat := by
  revert sp; decide

theorem push_eq {s : State} (h : PagesInstalled s) (v : Byte) :
    push v s =
      { s with cpu := { s.cpu with sp := s.cpu.sp - 1 }, mem := Memory.write s.mem (0x100 + s.cpu.sp.toNat) v } := by
  have := s.cpu.sp.isLt
  have e : (0x100 + s.cpu.sp.toNat) % 2048 = 0x100 + s.cpu.sp.toNat := Nat.mod_eq_of_lt (by omega)
  simp only [push, memWrite_ram h (a := stackAddr s.cpu.sp) (by rw [stackAddr_toNat]; omega), stackAddr_toNat, e]
  rfl

theorem pull_eq {s : State} (h : PagesInstalled s) :
    pull s = (stackByte s 1, { s with cpu := { s.cpu with sp := s.cpu.sp + 1 } }) := by
  have := (s.cpu.sp + 1).isLt
  have e : (0x100 + (s.cpu.sp + 1).toNat) % 2048 = 0x100 + (s.cpu.sp + 1).toNat := Nat.mod_eq_of_lt (by omega)
  have h' : PagesInstalled (s.setSp (s.cpu.sp + 1)) := h.congr rfl
  simp only [pull]
  rw [memRead_ram h' (by simp only [State.setSp_sp, stackAddr_toNat]; omega)]
  simp only [State.setSp_sp, stackAddr_toNat, ramByte, e, State.setSp_mem, stackByte]
  rfl

/-! ## Words and the status byte -/

/-- The cells a push of a word fills: the high byte at SP, the low byte below it. -/
def pushedWord (m : Memory) (sp : Byte) (w : Word) : Memory :=
  Memory.write (Memory.write m (0x100 + sp.toNat) (hi w)) (0x100 + (sp - 1).toNat) (lo w)

theorem pushWord_eq {s : State} (h : PagesInstalled s) (w : Word) :
    pushWord w s = { s with cpu := { s.cpu with sp := s.cpu.sp - 2 }, mem := pushedWord s.mem s.cpu.sp w } := by
  have e : s.cpu.sp - 2 = s.cpu.sp - 1 - 1 := by bv_omega
  unfold pushWord
  rw [push_eq h, push_eq (by exact h.congr rfl), e]
  rfl

theorem pullWord_eq {s : State} (h : PagesInstalled s) :
    pullWord s = (word (stackByte s 1) (stackByte s 2), { s with cpu := { s.cpu with sp := s.cpu.sp + 2 } }) := by
  have e : s.cpu.sp + 2 = s.cpu.sp + 1 + 1 := by bv_omega
  have e2 : stackByte s 2 = stackByte { s with cpu := { s.cpu with sp := s.cpu.sp + 1 } } 1 := by
    show Memory.read s.mem (0x100 + (s.cpu.sp + 2).toNat) = _
    rw [e]; rfl
  unfold pullWord
  rw [pull_eq h]
  simp only
  rw [pull_eq (by exact h.congr rfl), e2, e]

/-! ## Taking an interrupt and returning -/

/-- A vector lies in program ROM: reading it changes nothing. -/
theorem readWord_vector {s : State} (h : PagesInstalled s) {vector : Word} (hv : 0x8000 ≤ vector.toNat)
    (hv' : vector.toNat < 0xFFFF) : readWord vector s = (vectorAt s vector, s) := by
  have e : (vector + 1).toNat = vector.toNat + 1 := by bv_omega
  simp only [readWord, readPair, memRead_rom h hv, memRead_rom h (a := vector + 1) (by omega), vectorAt]

/-- The state after an interrupt is taken: the return address and the status byte in the three cells from SP down, I set, PC
from the vector, D and the other flags as they were (R189, R236). -/
def taken (ret : Word) (b : Bool) (vector : Word) (s : State) : State :=
  { s with
    cpu := { s.cpu with pc := vectorAt s vector, sp := s.cpu.sp - 3, p := { s.cpu.p with i := true } }
    mem := Memory.write (pushedWord s.mem s.cpu.sp ret) (0x100 + (s.cpu.sp - 2).toNat) (packP s.cpu.p b) }

/-- A fetch from program ROM does not see the cells below program memory. -/
theorem fetch_rom_congr {s t : State} (h : PagesInstalled s) (hp : t.pageTable = s.pageTable) (hc : t.cart = s.cart)
    (hm : ∀ k, prgKey ≤ k → Memory.read t.mem k = Memory.read s.mem k) {a : Word} (ha : 0x8000 ≤ a.toNat) :
    t.fetch a = s.fetch a := by
  obtain ⟨base, e⟩ := h.pageAt_rom ha
  have e' : t.pageAt a = .prgRom base := by unfold State.pageAt at e ⊢; rw [hp]; exact e
  simp only [State.fetch, State.cellOf, e, e', hc]
  exact hm _ (Nat.le_add_right _ _)

theorem takeInterrupt_eq {s : State} (h : PagesInstalled s) (ret : Word) (b : Bool) {vector : Word}
    (hv : 0x8000 ≤ vector.toNat) (hv' : vector.toNat < 0xFFFF) : takeInterrupt ret b vector s = taken ret b vector s := by
  have e : s.cpu.sp - 3 = s.cpu.sp - 2 - 1 := by bv_omega
  have e1 : (vector + 1).toNat = vector.toNat + 1 := by bv_omega
  unfold takeInterrupt
  simp only
  rw [pushWord_eq h, push_eq (by exact h.congr rfl), readWord_vector (by exact h.congr rfl) hv hv']
  have hf : ∀ (t : State) (a : Word), t.pageTable = s.pageTable → t.cart = s.cart →
      t.mem = (taken ret b vector s).mem → 0x8000 ≤ a.toNat → t.fetch a = s.fetch a := by
    intro t a hp hc hm ha
    refine fetch_rom_congr h hp hc (fun k hk => ?_) ha
    have hsp := s.cpu.sp.isLt
    have hsp1 := (s.cpu.sp - 1).isLt
    have hsp2 := (s.cpu.sp - 2).isLt
    have : 0x8000 ≤ k := hk
    rw [hm]
    simp only [taken, pushedWord]
    rw [Memory.read_write_ne (by omega), Memory.read_write_ne (by omega), Memory.read_write_ne (by omega)]
  have hvec : ∀ t : State, t.pageTable = s.pageTable → t.cart = s.cart → t.mem = (taken ret b vector s).mem →
      t.setPc (vectorAt t vector) = t.setPc (vectorAt s vector) := by
    intro t hp hc hm
    unfold vectorAt
    rw [hf t vector hp hc hm hv, hf t (vector + 1) hp hc hm (by omega)]
  dsimp only
  rw [hvec]
  rotate_left
  · rfl
  · rfl
  · rfl
  unfold taken
  rw [e]
  rfl

theorem interruptEntry_eq {s : State} (h : PagesInstalled s) {vector : Word} (hv : 0x8000 ≤ vector.toNat)
    (hv' : vector.toNat < 0xFFFF) :
    interruptEntry vector s = (taken s.cpu.pc false vector s).addClk Config.intCycles := by
  unfold interruptEntry
  rw [takeInterrupt_eq h _ _ hv hv']

theorem returnFromInterrupt_eq {s : State} (h : PagesInstalled s) :
    returnFromInterrupt s =
      stopIfICleared s.cpu.p.i { s with
        cpu := { s.cpu with
          pc := word (stackByte s 2) (stackByte s 3), sp := s.cpu.sp + 3, p := unpackP (stackByte s 1) } } := by
  have e : s.cpu.sp + 3 = s.cpu.sp + 1 + 2 := by bv_omega
  have e2 : ∀ c : Cpu, c.sp = s.cpu.sp + 1 →
      stackByte (s.withCpu c) 1 = stackByte s 2 ∧ stackByte (s.withCpu c) 2 = stackByte s 3 := by
    intro c hc
    have e3 : s.cpu.sp + 1 + 1 = s.cpu.sp + 2 := by bv_omega
    have e4 : s.cpu.sp + 1 + 2 = s.cpu.sp + 3 := by bv_omega
    simp only [stackByte, State.withCpu, hc, e3, e4, and_self]
  unfold returnFromInterrupt
  simp only
  rw [pull_eq h, pullWord_eq (by exact h.congr rfl)]
  obtain ⟨h1, h2⟩ := e2 { s.cpu with sp := s.cpu.sp + 1, p := unpackP (stackByte s 1) } rfl
  rw [e]
  simp only [State.withCpu] at h1 h2
  simp only [State.setP, State.setPc, h1, h2]

/-- `UnpackP` undoes `PackP` (R35). -/
theorem unpackP_packP (p : Status) (b : Bool) : unpackP (packP p b) = p := by
  obtain ⟨n, v, d, i, z, c⟩ := p
  revert n v d i z c b; decide

end Sys2Proof.Machine
end

