-- ==== Sys2Proof/Laws/Step.lean ====
section
/-! SUPPORT. Everything a step can do, said once: a property kept by the primitive changes of instructions and by the changes
of a boundary is kept by every step; and where a pass of the Bus Controller opens a `run`, an instruction is due. -/

namespace Sys2Proof.Machine

/-- The changes a step is made of: those of an instruction, and those of a boundary. -/
structure KeptByStep (P : State → Prop) : Prop extends Kept P where
  catchUp : ∀ T s, P s → P (catchUp T s)
  vblEvent : ∀ s, P s → P (vblEvent s)
  beginFrame : ∀ s, P s → P (beginFrame s)
  endFrame : ∀ s, P s → P (endFrame s)
  clearNmi : ∀ s, P s → P { s with nmiTime := none }
  refreshIrq : ∀ s, P s → P (refreshIrq s)
  openRun : ∀ s, P s → P (openRun s)

namespace KeptByStep

variable {P : State → Prop} (k : KeptByStep P)
include k

theorem syncBoundary {s : State} (h : P s) : P (syncBoundary s) := by
  unfold Machine.syncBoundary
  simp only
  split
  · exact k.vblEvent _ (k.catchUp _ _ h)
  · exact k.catchUp _ _ h

theorem passStart {s : State} (h : P s) : P (passStart s) := by
  have h1 : P (if s.endCycle = none then s else s.stop .cycles) := by
    split
    · exact h
    · exact k.stop _ _ h
  unfold Machine.passStart
  generalize (if s.endCycle = none then s else s.stop .cycles) = u at h1 ⊢
  refine k.syncBoundary ?_
  split
  · exact h1
  · exact k.beginFrame _ h1

theorem checkStopTime {s : State} (h : P s) : ∀ b, checkStopTime s = b → match b with | .handled t => P t | .run t => P t := by
  intro b hb
  subst hb
  unfold Machine.checkStopTime
  cases s.endCycle with
  | none => exact h
  | some e =>
    simp only
    by_cases he : e ≤ s.clk
    · rw [if_pos he]; exact k.stop _ _ h
    · rw [if_neg he]; exact h

theorem boundary {s : State} (h : P s) : match boundary s with | .handled t => P t | .run t => P t := by
  have hp := k.passStart h
  rcases boundary_cases s with ⟨e, -, -, hb⟩ | ⟨-, ⟨-, hb⟩ | ⟨-, ⟨-, hb⟩ | ⟨-, ⟨-, -, hb⟩ | ⟨-, hb⟩⟩⟩⟩
  · rw [hb]; exact h
  · rw [hb]; exact k.endFrame _ hp
  · rw [hb]; exact k.toKept.interruptEntry _ (k.clearNmi _ hp)
  · rw [hb]; exact k.toKept.interruptEntry _ (k.refreshIrq _ hp)
  · exact k.checkStopTime (k.openRun _ (k.refreshIrq _ hp)) _ hb.symm

end KeptByStep

/-- A property kept by all of them is kept by every step. -/
theorem step_induction {P : State → Prop} (k : KeptByStep P) {s t : State} (e : step s = .next t) (h : P s) : P t := by
  have hb := k.boundary h
  unfold step at e
  cases hc : boundary s with
  | handled u => rw [hc] at e hb; cases e; exact hb
  | run u => rw [hc] at e hb; exact exec_induction k.toKept e hb

/-! ## The clock at a boundary -/

theorem vblEvent_done (s : State) : (vblEvent s).ppu.vblDone = true := by
  unfold vblEvent
  simp only
  split
  · unfold raiseNmi; rw [irqChanged_eq]
  · rfl

theorem vblEvent_clk (s : State) : (vblEvent s).clk = s.clk := (vblEvent_frame s).clk

/-- After a boundary is brought up to date the vertical-blank event is behind or still ahead of the clock (R308). -/
theorem syncBoundary_vbl (s : State) :
    (syncBoundary s).ppu.vblDone = true ∨ (syncBoundary s).clk < (syncBoundary s).ppu.vblTime := by
  unfold syncBoundary
  simp only
  split
  · exact .inl (vblEvent_done _)
  · next h =>
    simp only [Bool.and_eq_true, Bool.not_eq_true', decide_eq_true_eq, not_and, Nat.not_le] at h
    cases hd : (catchUp s.clk s).ppu.vblDone
    · exact .inr (h hd)
    · exact .inl rfl

/-- Where nothing is due, the deadline is ahead, but for a degenerate debug boundary (R309). -/
theorem clk_lt_deadline {s : State} (hf : s.clk < s.ppu.frameLen) (hv : s.ppu.vblDone = true ∨ s.clk < s.ppu.vblTime)
    (hi : (!s.cpu.p.i && due s.irqTime s.clk) = false) (hb : s.params.stepBoundary ≠ some 0) : s.clk < deadline s := by
  have low : ∀ (e : Nat) (t : Option Nat), s.clk < e → (∀ x, t = some x → s.clk < x) → s.clk < lowered e t := by
    intro e t he ht
    cases t with
    | none => exact he
    | some x => have := ht x rfl; simp only [lowered]; omega
  unfold deadline
  refine low _ _ (low _ _ (low _ _ hf ?_) ?_) ?_
  · intro x hx
    rcases hv with hv | hv
    · simp [hv] at hx
    · split at hx <;> simp_all
  · intro x hx
    cases hI : s.cpu.p.i
    · simp only [hI] at hx hi
      simp only [Bool.not_false, Bool.true_and, due] at hi
      have hx' : s.irqTime = some x := by simpa using hx
      rw [hx'] at hi
      simpa using hi
    · simp [hI] at hx
  · intro x hx
    cases hs : s.params.stepBoundary with
    | none => rw [hs] at hx; cases hx
    | some n =>
      rw [hs] at hx
      cases hx
      have : n ≠ 0 := fun h => hb (by rw [hs, h])
      show s.clk < s.clk + n
      omega

/-- Recomputing the interrupt time changes the mapper, the audio chip and that time only. -/
theorem refreshIrq_eq (s : State) :
    refreshIrq s = { s with
      mapper := (refreshIrq s).mapper, apu := (refreshIrq s).apu, irqTime := (refreshIrq s).irqTime } := by
  unfold refreshIrq apuRunUntil
  rw [mapperRunUntil_eq]

theorem refreshIrq_ppu (s : State) : (refreshIrq s).ppu = s.ppu := by rw [refreshIrq_eq]

theorem refreshIrq_clk (s : State) : (refreshIrq s).clk = s.clk := by rw [refreshIrq_eq]

theorem refreshIrq_cpu (s : State) : (refreshIrq s).cpu = s.cpu := by rw [refreshIrq_eq]

theorem refreshIrq_mapperRam (s : State) : (refreshIrq s).mapperRam = s.mapperRam := by rw [refreshIrq_eq]

theorem refreshIrq_params (s : State) : (refreshIrq s).params = s.params := by rw [refreshIrq_eq]

/-- A pass of the Bus Controller that vectors nothing and ends no frame opens a `run` with an instruction due (R309). -/
theorem openRun_runs (s : State) (hf : (passStart s).clk < (passStart s).ppu.frameLen)
    (hi : (!(refreshIrq (passStart s)).cpu.p.i &&
      due (refreshIrq (passStart s)).irqTime (refreshIrq (passStart s)).clk) = false)
    (hb : s.params.stepBoundary ≠ some 0) :
    checkStopTime (openRun (refreshIrq (passStart s))) = .run (openRun (refreshIrq (passStart s))) := by
  have hd : (refreshIrq (passStart s)).clk < deadline (refreshIrq (passStart s)) := by
    apply clk_lt_deadline
    · rw [refreshIrq_ppu, refreshIrq_clk]; exact hf
    · rw [refreshIrq_ppu, refreshIrq_clk]; exact syncBoundary_vbl _
    · exact hi
    · rw [refreshIrq_params, (passStart_same s).2.2.2.2.2.2.1]; exact hb
  unfold checkStopTime openRun
  simp only
  rw [if_neg (by omega)]

/-- Bringing the PPU up to a time reaches it (R266). -/
theorem catchUp_reaches (T : Nat) (s : State) : T ≤ (catchUp T s).ppu.renderedUntil := by
  have h := s.ppu.renderUntil_reaches T
  unfold catchUp
  simp only
  split
  · unfold vblEvent
    simp only
    split
    · unfold raiseNmi; rw [irqChanged_eq]; exact h
    · exact h
  · exact h

theorem vblEvent_renderedUntil (s : State) : (vblEvent s).ppu.renderedUntil = s.ppu.renderedUntil := by
  unfold vblEvent
  simp only
  split
  · unfold raiseNmi; rw [irqChanged_eq]
  · rfl

theorem syncBoundary_reaches (s : State) : s.clk ≤ (syncBoundary s).ppu.renderedUntil := by
  have h := catchUp_reaches s.clk s
  unfold syncBoundary
  simp only
  split
  · rw [vblEvent_renderedUntil]; exact h
  · exact h

/-- A pass starts with the PPU up to the clock (R308). -/
theorem passStart_reaches (s : State) : s.clk ≤ (passStart s).ppu.renderedUntil := by
  unfold passStart
  simp only
  generalize h1 : (if s.endCycle = none then s else s.stop .cycles) = u
  have hu : u.clk = s.clk := by subst h1; split <;> rfl
  generalize h2 : (if u.inFrame then u else beginFrame u) = w
  have hw : w.clk = u.clk := by subst h2; split <;> rfl
  rw [← hu, ← hw]
  exact syncBoundary_reaches w

/-- Everything the end of a frame changes (R307, R314): no CPU register, no CPU-side memory, no page, no count. -/
theorem endFrame_eq (s : State) :
    endFrame s = { s with
      clk := s.clk - s.ppu.finishFrame.frameLen, ppu := s.ppu.finishFrame.endFrame, mapper := (endFrame s).mapper
      nmiTime := rebase s.ppu.finishFrame.frameLen s.nmiTime, irqTime := rebase s.ppu.finishFrame.frameLen s.irqTime
      apu := s.apu.endFrame s.ppu.finishFrame.frameLen
      inFrame := false, frameResult := some s.ppu.finishFrame.frameLen } := by
  unfold endFrame mapperEndFrame
  simp only
  rw [mapperRunUntil_eq]
  split <;> rfl

/-- What the end of a frame does to the frame's result and the clock (R307, R314). -/
theorem endFrame_result (s : State) :
    (endFrame s).inFrame = false ∧ (endFrame s).frameResult = some s.ppu.finishFrame.frameLen ∧
    (endFrame s).clk = s.clk - s.ppu.finishFrame.frameLen := by
  rw [endFrame_eq]
  exact ⟨rfl, rfl, rfl⟩

/-- The deadline is no later than the frame's end (R309). -/
theorem deadline_le (s : State) : deadline s ≤ s.ppu.frameLen := by
  have low : ∀ e t, lowered e t ≤ e := by
    intro e t
    cases t with
    | none => exact Nat.le_refl _
    | some x => exact Nat.min_le_left _ _
  exact Nat.le_trans (low _ _) (Nat.le_trans (low _ _) (low _ _))

/-- No access and no instruction turns the clock back. -/
theorem clk_access (n : Nat) : KeptByAccess (fun u => n ≤ u.clk) where
  cpu := fun _ _ h => h
  clk := fun _ _ h => Nat.le_trans h (Nat.le_add_right _ _)
  read := fun a s h => by rw [(memRead_frame a s).clk]; exact h
  write := fun a v s h => Nat.le_trans h (memWrite_frame a v s).clk

end Sys2Proof.Machine
end

