-- ==== Sys2Proof/Tests/Slice0.lean ====
section
/-! SUPPORT. Tests: the spec's encodings and its instruction vectors (`95_test_vectors.md`), and for every statement of
`Sys2Proof/Certificates/Slice0/Obligations.lean` that has hypotheses a state and operands that meet them. -/

namespace Sys2Proof.Tests.Slice0

open Sys2Proof Sys2Proof.Machine

/-! ## Well-formedness -/

/-- 0xEA is NOP and 0x00 is BRK: neither is in the illegal set of R121. -/
theorem test_ill_formed_refused : (Instr.ill 0xEA).wellFormed = false ∧ (Instr.ill 0x00).wellFormed = false := by decide

/-- 0x02 and 0xFF, the first and the last of R121's list, are. -/
theorem test_ill_well_formed : (Instr.ill 0x02).wellFormed = true ∧ (Instr.ill 0xFF).wellFormed = true := by decide

/-! ## Decoding: the words of R119, the operand bytes 0x34 and 0x12 after each -/

/-- Every listed first byte decodes to the instruction beside it. -/
def reads (words : List (Byte × Instr)) : Bool := words.all (fun w => decide (decode w.1 0x34 0x12 = w.2))

/-- The words of LDA, LDX, LDY, STA, STX, STY, in every mode. -/
theorem test_decode_loads_and_stores :
    reads [
      (0b10100001, .lda (.izx 0x34)), (0b10100101, .lda (.zp 0x34)), (0b10101001, .lda (.imm 0x34)),
      (0b10101101, .lda (.abs 0x1234)), (0b10110001, .lda (.izy 0x34)), (0b10110101, .lda (.zpx 0x34)),
      (0b10111001, .lda (.aby 0x1234)), (0b10111101, .lda (.abx 0x1234)), (0b10100010, .ldx (.imm 0x34)),
      (0b10100110, .ldx (.zp 0x34)), (0b10101110, .ldx (.abs 0x1234)), (0b10110110, .ldx (.zpy 0x34)),
      (0b10111110, .ldx (.aby 0x1234)), (0b10100000, .ldy (.imm 0x34)), (0b10100100, .ldy (.zp 0x34)),
      (0b10101100, .ldy (.abs 0x1234)), (0b10110100, .ldy (.zpx 0x34)), (0b10111100, .ldy (.abx 0x1234)),
      (0b10000001, .sta (.izx 0x34)), (0b10000101, .sta (.zp 0x34)), (0b10001101, .sta (.abs 0x1234)),
      (0b10010001, .sta (.izy 0x34)), (0b10010101, .sta (.zpx 0x34)), (0b10011001, .sta (.aby 0x1234)),
      (0b10011101, .sta (.abx 0x1234)), (0b10000110, .stx (.zp 0x34)), (0b10001110, .stx (.abs 0x1234)),
      (0b10010110, .stx (.zpy 0x34)), (0b10000100, .sty (.zp 0x34)), (0b10001100, .sty (.abs 0x1234)),
      (0b10010100, .sty (.zpx 0x34))] = true := by decide

/-- The words of TAX, TAY, TXA, TYA, TSX, TXS, PHA, PHP, PLA, PLP, in every mode. -/
theorem test_decode_transfers_and_stack :
    reads [
      (0b10101010, .tax), (0b10101000, .tay), (0b10001010, .txa), (0b10011000, .tya), (0b10111010, .tsx),
      (0b10011010, .txs), (0b01001000, .pha), (0b00001000, .php), (0b01101000, .pla), (0b00101000, .plp)] = true := by decide

/-- The words of ADC, SBC, in every mode. -/
theorem test_decode_add_and_subtract :
    reads [
      (0b01100001, .adc (.izx 0x34)), (0b01100101, .adc (.zp 0x34)), (0b01101001, .adc (.imm 0x34)),
      (0b01101101, .adc (.abs 0x1234)), (0b01110001, .adc (.izy 0x34)), (0b01110101, .adc (.zpx 0x34)),
      (0b01111001, .adc (.aby 0x1234)), (0b01111101, .adc (.abx 0x1234)), (0b11100001, .sbc (.izx 0x34)),
      (0b11100101, .sbc (.zp 0x34)), (0b11101001, .sbc (.imm 0x34)), (0b11101101, .sbc (.abs 0x1234)),
      (0b11110001, .sbc (.izy 0x34)), (0b11110101, .sbc (.zpx 0x34)), (0b11111001, .sbc (.aby 0x1234)),
      (0b11111101, .sbc (.abx 0x1234))] = true := by decide

/-- The words of CMP, CPX, CPY, in every mode. -/
theorem test_decode_compares :
    reads [
      (0b11000001, .cmp (.izx 0x34)), (0b11000101, .cmp (.zp 0x34)), (0b11001001, .cmp (.imm 0x34)),
      (0b11001101, .cmp (.abs 0x1234)), (0b11010001, .cmp (.izy 0x34)), (0b11010101, .cmp (.zpx 0x34)),
      (0b11011001, .cmp (.aby 0x1234)), (0b11011101, .cmp (.abx 0x1234)), (0b11100000, .cpx (.imm 0x34)),
      (0b11100100, .cpx (.zp 0x34)), (0b11101100, .cpx (.abs 0x1234)), (0b11000000, .cpy (.imm 0x34)),
      (0b11000100, .cpy (.zp 0x34)), (0b11001100, .cpy (.abs 0x1234))] = true := by decide

/-- The words of INC, INX, INY, DEC, DEX, DEY, in every mode. -/
theorem test_decode_increments :
    reads [
      (0b11100110, .inc (.zp 0x34)), (0b11101110, .inc (.abs 0x1234)), (0b11110110, .inc (.zpx 0x34)),
      (0b11111110, .inc (.abx 0x1234)), (0b11101000, .inx), (0b11001000, .iny), (0b11000110, .dec (.zp 0x34)),
      (0b11001110, .dec (.abs 0x1234)), (0b11010110, .dec (.zpx 0x34)), (0b11011110, .dec (.abx 0x1234)),
      (0b11001010, .dex), (0b10001000, .dey)] = true := by decide

/-- The words of AND, ORA, EOR, BIT, in every mode. -/
theorem test_decode_logic :
    reads [
      (0b00100001, .and (.izx 0x34)), (0b00100101, .and (.zp 0x34)), (0b00101001, .and (.imm 0x34)),
      (0b00101101, .and (.abs 0x1234)), (0b00110001, .and (.izy 0x34)), (0b00110101, .and (.zpx 0x34)),
      (0b00111001, .and (.aby 0x1234)), (0b00111101, .and (.abx 0x1234)), (0b00000001, .ora (.izx 0x34)),
      (0b00000101, .ora (.zp 0x34)), (0b00001001, .ora (.imm 0x34)), (0b00001101, .ora (.abs 0x1234)),
      (0b00010001, .ora (.izy 0x34)), (0b00010101, .ora (.zpx 0x34)), (0b00011001, .ora (.aby 0x1234)),
      (0b00011101, .ora (.abx 0x1234)), (0b01000001, .eor (.izx 0x34)), (0b01000101, .eor (.zp 0x34)),
      (0b01001001, .eor (.imm 0x34)), (0b01001101, .eor (.abs 0x1234)), (0b01010001, .eor (.izy 0x34)),
      (0b01010101, .eor (.zpx 0x34)), (0b01011001, .eor (.aby 0x1234)), (0b01011101, .eor (.abx 0x1234)),
      (0b00100100, .bit (.zp 0x34)), (0b00101100, .bit (.abs 0x1234))] = true := by decide

/-- The words of ASL, LSR, ROL, ROR, in every mode. -/
theorem test_decode_shifts :
    reads [
      (0b00000110, .asl (.zp 0x34)), (0b00001010, .asl (.acc)), (0b00001110, .asl (.abs 0x1234)),
      (0b00010110, .asl (.zpx 0x34)), (0b00011110, .asl (.abx 0x1234)), (0b01000110, .lsr (.zp 0x34)),
      (0b01001010, .lsr (.acc)), (0b01001110, .lsr (.abs 0x1234)), (0b01010110, .lsr (.zpx 0x34)),
      (0b01011110, .lsr (.abx 0x1234)), (0b00100110, .rol (.zp 0x34)), (0b00101010, .rol (.acc)),
      (0b00101110, .rol (.abs 0x1234)), (0b00110110, .rol (.zpx 0x34)), (0b00111110, .rol (.abx 0x1234)),
      (0b01100110, .ror (.zp 0x34)), (0b01101010, .ror (.acc)), (0b01101110, .ror (.abs 0x1234)),
      (0b01110110, .ror (.zpx 0x34)), (0b01111110, .ror (.abx 0x1234))] = true := by decide

/-- The words of JMP, JSR, RTS, RTI, BRK, BCC, BCS, BEQ, BNE, BMI, BPL, BVC, BVS, in every mode. -/
theorem test_decode_control :
    reads [
      (0b01001100, .jmp (.abs 0x1234)), (0b01101100, .jmp (.ind 0x1234)), (0b00100000, .jsr 0x1234),
      (0b01100000, .rts), (0b01000000, .rti), (0b00000000, .brk), (0b10010000, .bcc 0x34),
      (0b10110000, .bcs 0x34), (0b11110000, .beq 0x34), (0b11010000, .bne 0x34), (0b00110000, .bmi 0x34),
      (0b00010000, .bpl 0x34), (0b01010000, .bvc 0x34), (0b01110000, .bvs 0x34)] = true := by decide

/-- The words of CLC, SEC, CLI, SEI, CLV, CLD, SED, NOP, in every mode. -/
theorem test_decode_flags_and_nop :
    reads [
      (0b00011000, .clc), (0b00111000, .sec), (0b01011000, .cli), (0b01111000, .sei), (0b10111000, .clv),
      (0b11011000, .cld), (0b11111000, .sed), (0b11101010, .nop)] = true := by decide

/-- Illegal opcodes (R121), the first, the last, and 0x89, which would be a store of an immediate. -/
theorem test_decode_illegal :
    reads [(0b00000010, .ill 0x02), (0b10001001, .ill 0x89), (0b11111111, .ill 0xFF)] = true := by decide

/-- A word numbered as the table numbers it: the first byte in bits 7 to 0, the operand low byte next. -/
theorem test_decode_table_word :
    decodeTableWord 24 0x1234AD = some (.lda (.abs 0x1234)) ∧ decodeTableWord 8 0xEA = some .nop ∧
    decodeTableWord 8 0xA9 = some (.lda (.imm 0x00)) := by decide

/-! ## One step: the vectors of `95_test_vectors.md` Sections 2 to 4 -/

/-- The flags in the order the vectors print them, N V D I Z C. -/
def flags (n v d i z c : Nat) : Status :=
  { n := decide (n = 1), v := decide (v = 1), d := decide (d = 1), i := decide (i = 1), z := decide (z = 1),
    c := decide (c = 1) }

/-- A register file. -/
def cpu (a x y sp : Byte) (pc : Word) (p : Status) : Cpu := { a := a, x := x, y := y, sp := sp, pc := pc, p := p }

/-- A state inside a `run` with the given registers and cells of CPU-side memory (an address below 0x2000 reduced modulo
2048, as R302 says), `clk` 0. -/
def start (c : Cpu) (cells : List (Nat × Byte)) : State :=
  { State.reset with cpu := c, endCycle := some 100, mem := cells.foldl (fun m w => Memory.write m w.1 w.2) [] }

/-- What a vector states of the state after one step: registers and flags, `clk`, the error count, the stop, cells. -/
def leads (s : State) (c : Cpu) (clk errors : Nat) (stop : Option StopReason) (cells : List (Nat × Byte)) : Bool :=
  match step s with
  | .next t =>
    decide (t.cpu = c) && decide (t.clk = clk) && decide (t.errorCount = errors) && decide (t.lastStop = stop) &&
      cells.all (fun w => decide (Memory.read t.mem w.1 = w.2))
  | _ => false

/-- V7, `LDA $12F0,X`: cross: 4 + 1. -/
theorem test_lda_v7 :
    leads (start (cpu 0x00 0x10 0x00 0xFD 0x8000 (flags 0 0 0 1 0 0))
        [(0x0300, 0x02), (0x8000, 0xBD), (0x8001, 0xF0), (0x8002, 0x12)])
      (cpu 0x02 0x10 0x00 0xFD 0x8003 (flags 0 0 0 1 0 0)) 5 0 none [] = true := by decide

/-- V196, `LDA ($FF),Y`: same wrap; then base 0x12FF + 1 crosses: 5 + 1. -/
theorem test_lda_v196 :
    leads (start (cpu 0x00 0x00 0x01 0xFD 0x8000 (flags 0 0 0 1 0 0))
        [(0x0000, 0x12), (0x00FF, 0xFF), (0x0100, 0x99), (0x0300, 0x5B), (0x8000, 0xB1), (0x8001, 0xFF)])
      (cpu 0x5B 0x00 0x01 0xFD 0x8002 (flags 0 0 0 1 0 0)) 6 0 none [] = true := by decide

/-- V14, `LDX $F0,Y`: zero-page index wraps to 0x0001. -/
theorem test_ldx_v14 :
    leads (start (cpu 0x00 0x00 0x11 0xFD 0x8000 (flags 0 0 0 1 0 0))
        [(0x0001, 0x21), (0x8000, 0xB6), (0x8001, 0xF0)])
      (cpu 0x00 0x21 0x11 0xFD 0x8002 (flags 0 0 0 1 0 0)) 4 0 none [] = true := by decide

/-- V16, `LDX $12FF,Y`: cross: 4 + 1. -/
theorem test_ldx_v16 :
    leads (start (cpu 0x00 0x00 0x02 0xFD 0x8000 (flags 0 0 0 1 0 0))
        [(0x0301, 0x41), (0x8000, 0xBE), (0x8001, 0xFF), (0x8002, 0x12)])
      (cpu 0x00 0x41 0x02 0xFD 0x8003 (flags 0 0 0 1 0 0)) 5 0 none [] = true := by decide

/-- V20, `LDY $1234`. -/
theorem test_ldy_v20 :
    leads (start (cpu 0x00 0x00 0x09 0xFD 0x8000 (flags 0 0 0 1 0 0))
        [(0x0234, 0x00), (0x8000, 0xAC), (0x8001, 0x34), (0x8002, 0x12)])
      (cpu 0x00 0x00 0x00 0xFD 0x8003 (flags 0 0 0 1 1 0)) 4 0 none [] = true := by decide

/-- V21, `LDY $1280,X`: cross: 4 + 1. -/
theorem test_ldy_v21 :
    leads (start (cpu 0x00 0x80 0x00 0xFD 0x8000 (flags 0 0 0 1 0 0))
        [(0x0300, 0x23), (0x8000, 0xBC), (0x8001, 0x80), (0x8002, 0x12)])
      (cpu 0x00 0x80 0x23 0xFD 0x8003 (flags 0 0 0 1 0 0)) 5 0 none [] = true := by decide

/-- V26, `STA $12F0,X`: cross: still 5. -/
theorem test_sta_v26 :
    leads (start (cpu 0x11 0x10 0x00 0xFD 0x8000 (flags 0 0 0 1 0 0))
        [(0x8000, 0x9D), (0x8001, 0xF0), (0x8002, 0x12)])
      (cpu 0x11 0x10 0x00 0xFD 0x8003 (flags 0 0 0 1 0 0)) 5 0 none [(0x0300, 0x11)] = true := by decide

/-- V198, `STA ($FF),Y`: store through the wrapped pointer. -/
theorem test_sta_v198 :
    leads (start (cpu 0x77 0x00 0x00 0xFD 0x8000 (flags 0 0 0 1 0 0))
        [(0x0000, 0x05), (0x00FF, 0x00), (0x8000, 0x91), (0x8001, 0xFF)])
      (cpu 0x77 0x00 0x00 0xFD 0x8002 (flags 0 0 0 1 0 0)) 6 0 none [(0x0500, 0x77)] = true := by decide

/-- V31, `STX $F0,Y`: wraps to 0x0010. -/
theorem test_stx_v31 :
    leads (start (cpu 0x00 0x77 0x20 0xFD 0x8000 (flags 0 0 0 1 0 0))
        [(0x8000, 0x96), (0x8001, 0xF0)])
      (cpu 0x00 0x77 0x20 0xFD 0x8002 (flags 0 0 0 1 0 0)) 4 0 none [(0x0010, 0x77)] = true := by decide

/-- V34, `STY $10,X`. -/
theorem test_sty_v34 :
    leads (start (cpu 0x00 0x01 0x66 0xFD 0x8000 (flags 0 0 0 1 0 0))
        [(0x8000, 0x94), (0x8001, 0x10)])
      (cpu 0x00 0x01 0x66 0xFD 0x8002 (flags 0 0 0 1 0 0)) 4 0 none [(0x0011, 0x66)] = true := by decide

/-- V36, `TAX`. -/
theorem test_tax_v36 :
    leads (start (cpu 0x00 0x55 0x00 0xFD 0x8000 (flags 0 0 0 1 0 0))
        [(0x8000, 0xAA)])
      (cpu 0x00 0x00 0x00 0xFD 0x8001 (flags 0 0 0 1 1 0)) 2 0 none [] = true := by decide

/-- V37, `TAY`. -/
theorem test_tay_v37 :
    leads (start (cpu 0x90 0x00 0x00 0xFD 0x8000 (flags 0 0 0 1 0 0))
        [(0x8000, 0xA8)])
      (cpu 0x90 0x00 0x90 0xFD 0x8001 (flags 1 0 0 1 0 0)) 2 0 none [] = true := by decide

/-- V38, `TXA`. -/
theorem test_txa_v38 :
    leads (start (cpu 0x00 0x7F 0x00 0xFD 0x8000 (flags 0 0 0 1 0 0))
        [(0x8000, 0x8A)])
      (cpu 0x7F 0x7F 0x00 0xFD 0x8001 (flags 0 0 0 1 0 0)) 2 0 none [] = true := by decide

/-- V39, `TYA`. -/
theorem test_tya_v39 :
    leads (start (cpu 0x01 0x00 0x00 0xFD 0x8000 (flags 0 0 0 1 0 0))
        [(0x8000, 0x98)])
      (cpu 0x00 0x00 0x00 0xFD 0x8001 (flags 0 0 0 1 1 0)) 2 0 none [] = true := by decide

/-- V40, `TSX`. -/
theorem test_tsx_v40 :
    leads (start (cpu 0x00 0x00 0x00 0xFD 0x8000 (flags 0 0 0 1 0 0))
        [(0x8000, 0xBA)])
      (cpu 0x00 0xFD 0x00 0xFD 0x8001 (flags 1 0 0 1 0 0)) 2 0 none [] = true := by decide

/-- V41, `TXS`: Z not set: TXS writes no flag. -/
theorem test_txs_v41 :
    leads (start (cpu 0x00 0x00 0x00 0xFD 0x8000 (flags 0 0 0 1 0 0))
        [(0x8000, 0x9A)])
      (cpu 0x00 0x00 0x00 0x00 0x8001 (flags 0 0 0 1 0 0)) 2 0 none [] = true := by decide

/-- V214, `PHA`: writes 0x0100, SP wraps to 0xFF. -/
theorem test_pha_v214 :
    leads (start (cpu 0x42 0x00 0x00 0x00 0x8000 (flags 0 0 0 1 0 0))
        [(0x8000, 0x48)])
      (cpu 0x42 0x00 0x00 0xFF 0x8001 (flags 0 0 0 1 0 0)) 3 0 none [(0x0100, 0x42)] = true := by decide

/-- V43, `PHP`: pushed byte = 0x20 | 0x10 | I | C. -/
theorem test_php_v43 :
    leads (start (cpu 0x00 0x00 0x00 0xFD 0x8000 (flags 0 0 0 1 0 1))
        [(0x8000, 0x08)])
      (cpu 0x00 0x00 0x00 0xFC 0x8001 (flags 0 0 0 1 0 1)) 3 0 none [(0x01FD, 0x35)] = true := by decide

/-- V44, `PHP`: pushed byte 0xFB: all flags but I, plus bits 5 and 4. -/
theorem test_php_v44 :
    leads (start (cpu 0x00 0x00 0x00 0xFD 0x8000 (flags 1 1 1 0 1 1))
        [(0x8000, 0x08)])
      (cpu 0x00 0x00 0x00 0xFC 0x8001 (flags 1 1 1 0 1 1)) 3 0 none [(0x01FD, 0xFB)] = true := by decide

/-- V215, `PLA`: SP wraps to 0x00, reads 0x0100. -/
theorem test_pla_v215 :
    leads (start (cpu 0x00 0x00 0x00 0xFF 0x8000 (flags 0 0 0 1 0 0))
        [(0x0100, 0x99), (0x0200, 0x11), (0x8000, 0x68)])
      (cpu 0x99 0x00 0x00 0x00 0x8001 (flags 1 0 0 1 0 0)) 4 0 none [] = true := by decide

/-- V47, `PLP`: bits 5, 4 ignored; I stays 1: no stop. -/
theorem test_plp_v47 :
    leads (start (cpu 0x00 0x00 0x00 0xFC 0x8000 (flags 0 0 0 1 0 0))
        [(0x01FD, 0xFF), (0x8000, 0x28)])
      (cpu 0x00 0x00 0x00 0xFD 0x8001 (flags 1 1 1 1 1 1)) 4 0 none [] = true := by decide

/-- V48, `PLP`: I 1 -> 0. -/
theorem test_plp_v48 :
    leads (start (cpu 0x00 0x00 0x00 0xFC 0x8000 (flags 0 0 0 1 0 0))
        [(0x01FD, 0x00), (0x8000, 0x28)])
      (cpu 0x00 0x00 0x00 0xFD 0x8001 (flags 0 0 0 0 0 0)) 4 0 (some .iCleared) [] = true := by decide

/-- V53, `ADC #$90`: signed overflow with carry. -/
theorem test_adc_v53 :
    leads (start (cpu 0xD0 0x00 0x00 0xFD 0x8000 (flags 0 0 0 1 0 0))
        [(0x8000, 0x69), (0x8001, 0x90)])
      (cpu 0x60 0x00 0x00 0xFD 0x8002 (flags 0 1 0 1 0 1)) 2 0 none [] = true := by decide

/-- V57, `ADC #$19`: D = 1 has no effect: binary 0x41, not decimal 0x47. -/
theorem test_adc_v57 :
    leads (start (cpu 0x28 0x00 0x00 0xFD 0x8000 (flags 0 0 1 1 0 0))
        [(0x8000, 0x69), (0x8001, 0x19)])
      (cpu 0x41 0x00 0x00 0xFD 0x8002 (flags 0 0 1 1 0 0)) 2 0 none [] = true := by decide

/-- V66, `SBC #$10`: C = 0 is a borrow in. -/
theorem test_sbc_v66 :
    leads (start (cpu 0x30 0x00 0x00 0xFD 0x8000 (flags 0 0 0 1 0 0))
        [(0x8000, 0xE9), (0x8001, 0x10)])
      (cpu 0x1F 0x00 0x00 0xFD 0x8002 (flags 0 0 0 1 0 1)) 2 0 none [] = true := by decide

/-- V78, `SBC ($20,X)`: pointer at (0x20 + 0xFF) mod 256 = 0x1F. -/
theorem test_sbc_v78 :
    leads (start (cpu 0x05 0xFF 0x00 0xFD 0x8000 (flags 0 0 0 1 0 1))
        [(0x001F, 0x00), (0x0020, 0x03), (0x0300, 0x05), (0x8000, 0xE1), (0x8001, 0x20)])
      (cpu 0x00 0xFF 0x00 0xFD 0x8002 (flags 0 0 0 1 1 1)) 6 0 none [] = true := by decide

/-- V83, `CMP #$01`: unsigned compare: 0x81 >= 0x01; N from 0x80; V untouched. -/
theorem test_cmp_v83 :
    leads (start (cpu 0x81 0x00 0x00 0xFD 0x8000 (flags 0 1 0 1 0 0))
        [(0x8000, 0xC9), (0x8001, 0x01)])
      (cpu 0x81 0x00 0x00 0xFD 0x8002 (flags 1 1 0 1 0 1)) 2 0 none [] = true := by decide

/-- V90, `CMP ($20),Y`: cross: 5 + 1. -/
theorem test_cmp_v90 :
    leads (start (cpu 0x10 0x00 0x01 0xFD 0x8000 (flags 0 0 0 1 0 0))
        [(0x0020, 0xFF), (0x0021, 0x03), (0x0400, 0x00), (0x8000, 0xD1), (0x8001, 0x20)])
      (cpu 0x10 0x00 0x01 0xFD 0x8002 (flags 0 0 0 1 0 1)) 6 0 none [] = true := by decide

/-- V93, `CPX $1234`. -/
theorem test_cpx_v93 :
    leads (start (cpu 0x00 0xFF 0x00 0xFD 0x8000 (flags 0 0 0 1 0 0))
        [(0x0234, 0x7F), (0x8000, 0xEC), (0x8001, 0x34), (0x8002, 0x12)])
      (cpu 0x00 0xFF 0x00 0xFD 0x8003 (flags 1 0 0 1 0 1)) 4 0 none [] = true := by decide

/-- V94, `CPY #$10`. -/
theorem test_cpy_v94 :
    leads (start (cpu 0x00 0x00 0x0F 0xFD 0x8000 (flags 0 0 0 1 0 0))
        [(0x8000, 0xC0), (0x8001, 0x10)])
      (cpu 0x00 0x00 0x0F 0xFD 0x8002 (flags 1 0 0 1 0 0)) 2 0 none [] = true := by decide

/-- V97, `INC $10`: wraps to 0. -/
theorem test_inc_v97 :
    leads (start (cpu 0x00 0x00 0x00 0xFD 0x8000 (flags 0 0 0 1 0 0))
        [(0x0010, 0xFF), (0x8000, 0xE6), (0x8001, 0x10)])
      (cpu 0x00 0x00 0x00 0xFD 0x8002 (flags 0 0 0 1 1 0)) 5 0 none [(0x0010, 0x00)] = true := by decide

/-- V100, `INC $12FF,X`: cross: still 7. -/
theorem test_inc_v100 :
    leads (start (cpu 0x00 0x01 0x00 0xFD 0x8000 (flags 0 0 0 1 0 0))
        [(0x0300, 0x01), (0x8000, 0xFE), (0x8001, 0xFF), (0x8002, 0x12)])
      (cpu 0x00 0x01 0x00 0xFD 0x8003 (flags 0 0 0 1 0 0)) 7 0 none [(0x0300, 0x02)] = true := by decide

/-- V101, `DEC $10`: wraps to 0xFF. -/
theorem test_dec_v101 :
    leads (start (cpu 0x00 0x00 0x00 0xFD 0x8000 (flags 0 0 0 1 0 0))
        [(0x0010, 0x00), (0x8000, 0xC6), (0x8001, 0x10)])
      (cpu 0x00 0x00 0x00 0xFD 0x8002 (flags 1 0 0 1 0 0)) 5 0 none [(0x0010, 0xFF)] = true := by decide

/-- V104, `DEC $1200,X`: no cross: 7. -/
theorem test_dec_v104 :
    leads (start (cpu 0x00 0x01 0x00 0xFD 0x8000 (flags 0 0 0 1 0 0))
        [(0x0201, 0x02), (0x8000, 0xDE), (0x8001, 0x00), (0x8002, 0x12)])
      (cpu 0x00 0x01 0x00 0xFD 0x8003 (flags 0 0 0 1 0 0)) 7 0 none [(0x0201, 0x01)] = true := by decide

/-- V105, `INX`: wraps. -/
theorem test_inx_v105 :
    leads (start (cpu 0x00 0xFF 0x00 0xFD 0x8000 (flags 0 0 0 1 0 0))
        [(0x8000, 0xE8)])
      (cpu 0x00 0x00 0x00 0xFD 0x8001 (flags 0 0 0 1 1 0)) 2 0 none [] = true := by decide

/-- V106, `INY`. -/
theorem test_iny_v106 :
    leads (start (cpu 0x00 0x00 0x7F 0xFD 0x8000 (flags 0 0 0 1 0 0))
        [(0x8000, 0xC8)])
      (cpu 0x00 0x00 0x80 0xFD 0x8001 (flags 1 0 0 1 0 0)) 2 0 none [] = true := by decide

/-- V107, `DEX`: wraps. -/
theorem test_dex_v107 :
    leads (start (cpu 0x00 0x00 0x00 0xFD 0x8000 (flags 0 0 0 1 0 0))
        [(0x8000, 0xCA)])
      (cpu 0x00 0xFF 0x00 0xFD 0x8001 (flags 1 0 0 1 0 0)) 2 0 none [] = true := by decide

/-- V108, `DEY`. -/
theorem test_dey_v108 :
    leads (start (cpu 0x00 0x00 0x01 0xFD 0x8000 (flags 0 0 0 1 0 0))
        [(0x8000, 0x88)])
      (cpu 0x00 0x00 0x00 0xFD 0x8001 (flags 0 0 0 1 1 0)) 2 0 none [] = true := by decide

/-- V109, `AND #$0F`: zero. -/
theorem test_and_v109 :
    leads (start (cpu 0xF0 0x00 0x00 0xFD 0x8000 (flags 0 0 0 1 0 0))
        [(0x8000, 0x29), (0x8001, 0x0F)])
      (cpu 0x00 0x00 0x00 0xFD 0x8002 (flags 0 0 0 1 1 0)) 2 0 none [] = true := by decide

/-- V113, `AND $12FF,X`: cross: 4 + 1. -/
theorem test_and_v113 :
    leads (start (cpu 0xFF 0x01 0x00 0xFD 0x8000 (flags 0 0 0 1 0 0))
        [(0x0300, 0x7E), (0x8000, 0x3D), (0x8001, 0xFF), (0x8002, 0x12)])
      (cpu 0x7E 0x01 0x00 0xFD 0x8003 (flags 0 0 0 1 0 0)) 5 0 none [] = true := by decide

/-- V122, `ORA $1201,Y`: cross: 4 + 1. -/
theorem test_ora_v122 :
    leads (start (cpu 0x10 0x00 0xFF 0xFD 0x8000 (flags 0 0 0 1 0 0))
        [(0x0300, 0x04), (0x8000, 0x19), (0x8001, 0x01), (0x8002, 0x12)])
      (cpu 0x14 0x00 0xFF 0xFD 0x8003 (flags 0 0 0 1 0 0)) 5 0 none [] = true := by decide

/-- V124, `ORA ($20),Y`. -/
theorem test_ora_v124 :
    leads (start (cpu 0x40 0x00 0x00 0xFD 0x8000 (flags 0 0 0 1 0 0))
        [(0x0020, 0x00), (0x0021, 0x03), (0x0300, 0x08), (0x8000, 0x11), (0x8001, 0x20)])
      (cpu 0x48 0x00 0x00 0xFD 0x8002 (flags 0 0 0 1 0 0)) 5 0 none [] = true := by decide

/-- V129, `EOR $12FF,X`: cross: 4 + 1. -/
theorem test_eor_v129 :
    leads (start (cpu 0x01 0xFF 0x00 0xFD 0x8000 (flags 0 0 0 1 0 0))
        [(0x03FE, 0x01), (0x8000, 0x5D), (0x8001, 0xFF), (0x8002, 0x12)])
      (cpu 0x00 0xFF 0x00 0xFD 0x8003 (flags 0 0 0 1 1 0)) 5 0 none [] = true := by decide

/-- V132, `EOR ($20),Y`: cross: 5 + 1. -/
theorem test_eor_v132 :
    leads (start (cpu 0x01 0x00 0xFF 0xFD 0x8000 (flags 0 0 0 1 0 0))
        [(0x0020, 0x02), (0x0021, 0x03), (0x0401, 0x01), (0x8000, 0x51), (0x8001, 0x20)])
      (cpu 0x00 0x00 0xFF 0xFD 0x8002 (flags 0 0 0 1 1 0)) 6 0 none [] = true := by decide

/-- V133, `BIT $10`: N, V from the operand; Z from A AND operand; A unchanged. -/
theorem test_bit_v133 :
    leads (start (cpu 0x01 0x00 0x00 0xFD 0x8000 (flags 0 0 0 1 0 0))
        [(0x0010, 0xC0), (0x8000, 0x24), (0x8001, 0x10)])
      (cpu 0x01 0x00 0x00 0xFD 0x8002 (flags 1 1 0 1 1 0)) 3 0 none [] = true := by decide

/-- V134, `BIT $10`: N, V cleared. -/
theorem test_bit_v134 :
    leads (start (cpu 0xFF 0x00 0x00 0xFD 0x8000 (flags 1 1 0 1 0 0))
        [(0x0010, 0x3F), (0x8000, 0x24), (0x8001, 0x10)])
      (cpu 0xFF 0x00 0x00 0xFD 0x8002 (flags 0 0 0 1 0 0)) 3 0 none [] = true := by decide

/-- V137, `ASL A`: old C is not shifted in. -/
theorem test_asl_v137 :
    leads (start (cpu 0x41 0x00 0x00 0xFD 0x8000 (flags 0 0 0 1 0 1))
        [(0x8000, 0x0A)])
      (cpu 0x82 0x00 0x00 0xFD 0x8001 (flags 1 0 0 1 0 0)) 2 0 none [] = true := by decide

/-- V141, `ASL $12FF,X`: cross: still 7. -/
theorem test_asl_v141 :
    leads (start (cpu 0x00 0x01 0x00 0xFD 0x8000 (flags 0 0 0 1 0 0))
        [(0x0300, 0x40), (0x8000, 0x1E), (0x8001, 0xFF), (0x8002, 0x12)])
      (cpu 0x00 0x01 0x00 0xFD 0x8003 (flags 1 0 0 1 0 0)) 7 0 none [(0x0300, 0x80)] = true := by decide

/-- V143, `LSR A`: N always 0 after LSR. -/
theorem test_lsr_v143 :
    leads (start (cpu 0xFF 0x00 0x00 0xFD 0x8000 (flags 1 0 0 1 0 1))
        [(0x8000, 0x4A)])
      (cpu 0x7F 0x00 0x00 0xFD 0x8001 (flags 0 0 0 1 0 1)) 2 0 none [] = true := by decide

/-- V147, `LSR $1200,X`. -/
theorem test_lsr_v147 :
    leads (start (cpu 0x00 0x01 0x00 0xFD 0x8000 (flags 0 0 0 1 0 0))
        [(0x0201, 0x03), (0x8000, 0x5E), (0x8001, 0x00), (0x8002, 0x12)])
      (cpu 0x00 0x01 0x00 0xFD 0x8003 (flags 0 0 0 1 0 1)) 7 0 none [(0x0201, 0x01)] = true := by decide

/-- V151, `ROL $10,X`. -/
theorem test_rol_v151 :
    leads (start (cpu 0x00 0x01 0x00 0xFD 0x8000 (flags 0 0 0 1 0 0))
        [(0x0011, 0xFF), (0x8000, 0x36), (0x8001, 0x10)])
      (cpu 0x00 0x01 0x00 0xFD 0x8002 (flags 1 0 0 1 0 1)) 6 0 none [(0x0011, 0xFE)] = true := by decide

/-- V230, `ROL $10`: result 0x01 from old C; new C from bit 7. -/
theorem test_rol_v230 :
    leads (start (cpu 0x00 0x00 0x00 0xFD 0x8000 (flags 0 0 0 1 0 1))
        [(0x0010, 0x80), (0x8000, 0x26), (0x8001, 0x10)])
      (cpu 0x00 0x00 0x00 0xFD 0x8002 (flags 0 0 0 1 0 1)) 5 0 none [(0x0010, 0x01)] = true := by decide

/-- V154, `ROR A`: old C into bit 7, bit 0 to C. -/
theorem test_ror_v154 :
    leads (start (cpu 0x01 0x00 0x00 0xFD 0x8000 (flags 0 0 0 1 0 1))
        [(0x8000, 0x6A)])
      (cpu 0x80 0x00 0x00 0xFD 0x8001 (flags 1 0 0 1 0 1)) 2 0 none [] = true := by decide

/-- V159, `ROR $12FF,X`: cross: still 7. -/
theorem test_ror_v159 :
    leads (start (cpu 0x00 0x01 0x00 0xFD 0x8000 (flags 0 0 0 1 0 0))
        [(0x0300, 0x03), (0x8000, 0x7E), (0x8001, 0xFF), (0x8002, 0x12)])
      (cpu 0x00 0x01 0x00 0xFD 0x8003 (flags 0 0 0 1 0 1)) 7 0 none [(0x0300, 0x01)] = true := by decide

/-- V160, `JMP $8000`: the source's instruction (§8). -/
theorem test_jmp_v160 :
    leads (start (cpu 0x00 0x00 0x00 0xFD 0x8000 (flags 0 0 0 1 0 0))
        [(0x8000, 0x4C), (0x8001, 0x00), (0x8002, 0x80)])
      (cpu 0x00 0x00 0x00 0xFD 0x8000 (flags 0 0 0 1 0 0)) 3 0 none [] = true := by decide

/-- V199, `JMP ($02FF)`: high byte from 0x0200, not 0x0300 (§4.1). -/
theorem test_jmp_v199 :
    leads (start (cpu 0x00 0x00 0x00 0xFD 0x8000 (flags 0 0 0 1 0 0))
        [(0x0200, 0x12), (0x02FF, 0x34), (0x0300, 0x56), (0x8000, 0x6C), (0x8001, 0xFF), (0x8002, 0x02)])
      (cpu 0x00 0x00 0x00 0xFD 0x1234 (flags 0 0 0 1 0 0)) 5 0 none [] = true := by decide

/-- V216, `JSR $9000`: high byte to 0x0100, low byte to 0x01FF. -/
theorem test_jsr_v216 :
    leads (start (cpu 0x00 0x00 0x00 0x00 0x8000 (flags 0 0 0 1 0 0))
        [(0x8000, 0x20), (0x8001, 0x00), (0x8002, 0x90)])
      (cpu 0x00 0x00 0x00 0xFE 0x9000 (flags 0 0 0 1 0 0)) 6 0 none [(0x0100, 0x80), (0x01FF, 0x02)] = true := by decide

/-- V223, `JSR $9000`: pushed return address (0x0001 - 1) = 0x0000. -/
theorem test_jsr_v223 :
    leads (start (cpu 0x00 0x00 0x00 0xFD 0xFFFE (flags 0 0 0 1 0 0))
        [(0xFFFE, 0x20), (0xFFFF, 0x00), (0x0000, 0x90)])
      (cpu 0x00 0x00 0x00 0xFB 0x9000 (flags 0 0 0 1 0 0)) 6 0 none [(0x01FD, 0x00), (0x01FC, 0x00)] = true := by decide

/-- V217, `RTS`: pulled word 0xFFFF + 1 = 0x0000. -/
theorem test_rts_v217 :
    leads (start (cpu 0x00 0x00 0x00 0xFF 0x8000 (flags 0 0 0 1 0 0))
        [(0x0100, 0xFF), (0x0101, 0xFF), (0x8000, 0x60)])
      (cpu 0x00 0x00 0x00 0x01 0x0000 (flags 0 0 0 1 0 0)) 6 0 none [] = true := by decide

/-- V165, `RTI`: I 1 -> 0. -/
theorem test_rti_v165 :
    leads (start (cpu 0x00 0x00 0x00 0xFA 0x9000 (flags 0 0 0 1 0 0))
        [(0x01FB, 0x20), (0x01FC, 0x05), (0x01FD, 0xC0), (0x9000, 0x40)])
      (cpu 0x00 0x00 0x00 0xFD 0xC005 (flags 0 0 0 0 0 0)) 6 0 (some .iCleared) [] = true := by decide

/-- V166, `RTI`: pulled I = 1: no stop; bits 5 set in the byte, ignored. -/
theorem test_rti_v166 :
    leads (start (cpu 0x00 0x00 0x00 0xFA 0x9000 (flags 0 0 0 1 0 0))
        [(0x01FB, 0xE7), (0x01FC, 0x05), (0x01FD, 0xC0), (0x9000, 0x40)])
      (cpu 0x00 0x00 0x00 0xFD 0xC005 (flags 1 1 0 1 1 1)) 6 0 none [] = true := by decide

/-- V168, `BRK`: I already 1: BRK still taken; D kept; pushed P = 0x3C. -/
theorem test_brk_v168 :
    leads (start (cpu 0x00 0x00 0x00 0xFD 0x8000 (flags 0 0 1 1 0 0))
        [(0xFFFE, 0x00), (0xFFFF, 0x90), (0x8000, 0x00), (0x8001, 0xEA)])
      (cpu 0x00 0x00 0x00 0xFA 0x9000 (flags 0 0 1 1 0 0)) 7 0 none [(0x01FD, 0x80), (0x01FC, 0x02), (0x01FB, 0x3C)] = true := by decide

/-- V219, `BRK`: three pushes across the wrap: 0x0101, 0x0100, 0x01FF. -/
theorem test_brk_v219 :
    leads (start (cpu 0x00 0x00 0x00 0x01 0x8000 (flags 0 0 0 0 0 0))
        [(0xFFFE, 0x34), (0xFFFF, 0x12), (0x8000, 0x00)])
      (cpu 0x00 0x00 0x00 0xFE 0x1234 (flags 0 0 0 1 0 0)) 7 0 none [(0x0101, 0x80), (0x0100, 0x02), (0x01FF, 0x30)] = true := by decide

/-- V169, `BCC *+7`: taken, same page: 3. -/
theorem test_bcc_v169 :
    leads (start (cpu 0x00 0x00 0x00 0xFD 0x8000 (flags 0 0 0 1 0 0))
        [(0x8000, 0x90), (0x8001, 0x05)])
      (cpu 0x00 0x00 0x00 0xFD 0x8007 (flags 0 0 0 1 0 0)) 3 0 none [] = true := by decide

/-- V170, `BCC *+7`: not taken: 2. -/
theorem test_bcc_v170 :
    leads (start (cpu 0x00 0x00 0x00 0xFD 0x8000 (flags 0 0 0 1 0 1))
        [(0x8000, 0x90), (0x8001, 0x05)])
      (cpu 0x00 0x00 0x00 0xFD 0x8002 (flags 0 0 0 1 0 1)) 2 0 none [] = true := by decide

/-- V171, `BCS *+7`: taken, same page: 3. -/
theorem test_bcs_v171 :
    leads (start (cpu 0x00 0x00 0x00 0xFD 0x8000 (flags 0 0 0 1 0 1))
        [(0x8000, 0xB0), (0x8001, 0x05)])
      (cpu 0x00 0x00 0x00 0xFD 0x8007 (flags 0 0 0 1 0 1)) 3 0 none [] = true := by decide

/-- V172, `BCS *+7`: not taken: 2. -/
theorem test_bcs_v172 :
    leads (start (cpu 0x00 0x00 0x00 0xFD 0x8000 (flags 0 0 0 1 0 0))
        [(0x8000, 0xB0), (0x8001, 0x05)])
      (cpu 0x00 0x00 0x00 0xFD 0x8002 (flags 0 0 0 1 0 0)) 2 0 none [] = true := by decide

/-- V173, `BEQ *+7`: taken, same page: 3. -/
theorem test_beq_v173 :
    leads (start (cpu 0x00 0x00 0x00 0xFD 0x8000 (flags 0 0 0 1 1 0))
        [(0x8000, 0xF0), (0x8001, 0x05)])
      (cpu 0x00 0x00 0x00 0xFD 0x8007 (flags 0 0 0 1 1 0)) 3 0 none [] = true := by decide

/-- V211, `BEQ *-$7E (offset 80)`: most negative offset: 0x8002 - 128 = 0x7F82 crosses: 4. -/
theorem test_beq_v211 :
    leads (start (cpu 0x00 0x00 0x00 0xFD 0x8000 (flags 0 0 0 1 1 0))
        [(0x8000, 0xF0), (0x8001, 0x80)])
      (cpu 0x00 0x00 0x00 0xFD 0x7F82 (flags 0 0 0 1 1 0)) 4 0 none [] = true := by decide

/-- V206, `BNE *-1 (offset FD)`: backward, 0x8102 -> 0x80FF crosses: 4. -/
theorem test_bne_v206 :
    leads (start (cpu 0x00 0x00 0x00 0xFD 0x8100 (flags 0 0 0 1 0 0))
        [(0x8100, 0xD0), (0x8101, 0xFD)])
      (cpu 0x00 0x00 0x00 0xFD 0x80FF (flags 0 0 0 1 0 0)) 4 0 none [] = true := by decide

/-- V209, `BNE * (offset FE)`: target 0x80FE, following instruction 0x8100: 4. -/
theorem test_bne_v209 :
    leads (start (cpu 0x00 0x00 0x00 0xFD 0x80FE (flags 0 0 0 1 0 0))
        [(0x80FE, 0xD0), (0x80FF, 0xFE)])
      (cpu 0x00 0x00 0x00 0xFD 0x80FE (flags 0 0 0 1 0 0)) 4 0 none [] = true := by decide

/-- V177, `BMI *+7`: taken, same page: 3. -/
theorem test_bmi_v177 :
    leads (start (cpu 0x00 0x00 0x00 0xFD 0x8000 (flags 1 0 0 1 0 0))
        [(0x8000, 0x30), (0x8001, 0x05)])
      (cpu 0x00 0x00 0x00 0xFD 0x8007 (flags 1 0 0 1 0 0)) 3 0 none [] = true := by decide

/-- V178, `BMI *+7`: not taken: 2. -/
theorem test_bmi_v178 :
    leads (start (cpu 0x00 0x00 0x00 0xFD 0x8000 (flags 0 0 0 1 0 0))
        [(0x8000, 0x30), (0x8001, 0x05)])
      (cpu 0x00 0x00 0x00 0xFD 0x8002 (flags 0 0 0 1 0 0)) 2 0 none [] = true := by decide

/-- V179, `BPL *+7`: taken, same page: 3. -/
theorem test_bpl_v179 :
    leads (start (cpu 0x00 0x00 0x00 0xFD 0x8000 (flags 0 0 0 1 0 0))
        [(0x8000, 0x10), (0x8001, 0x05)])
      (cpu 0x00 0x00 0x00 0xFD 0x8007 (flags 0 0 0 1 0 0)) 3 0 none [] = true := by decide

/-- V180, `BPL *+7`: not taken: 2. -/
theorem test_bpl_v180 :
    leads (start (cpu 0x00 0x00 0x00 0xFD 0x8000 (flags 1 0 0 1 0 0))
        [(0x8000, 0x10), (0x8001, 0x05)])
      (cpu 0x00 0x00 0x00 0xFD 0x8002 (flags 1 0 0 1 0 0)) 2 0 none [] = true := by decide

/-- V181, `BVC *+7`: taken, same page: 3. -/
theorem test_bvc_v181 :
    leads (start (cpu 0x00 0x00 0x00 0xFD 0x8000 (flags 0 0 0 1 0 0))
        [(0x8000, 0x50), (0x8001, 0x05)])
      (cpu 0x00 0x00 0x00 0xFD 0x8007 (flags 0 0 0 1 0 0)) 3 0 none [] = true := by decide

/-- V182, `BVC *+7`: not taken: 2. -/
theorem test_bvc_v182 :
    leads (start (cpu 0x00 0x00 0x00 0xFD 0x8000 (flags 0 1 0 1 0 0))
        [(0x8000, 0x50), (0x8001, 0x05)])
      (cpu 0x00 0x00 0x00 0xFD 0x8002 (flags 0 1 0 1 0 0)) 2 0 none [] = true := by decide

/-- V183, `BVS *+7`: taken, same page: 3. -/
theorem test_bvs_v183 :
    leads (start (cpu 0x00 0x00 0x00 0xFD 0x8000 (flags 0 1 0 1 0 0))
        [(0x8000, 0x70), (0x8001, 0x05)])
      (cpu 0x00 0x00 0x00 0xFD 0x8007 (flags 0 1 0 1 0 0)) 3 0 none [] = true := by decide

/-- V184, `BVS *+7`: not taken: 2. -/
theorem test_bvs_v184 :
    leads (start (cpu 0x00 0x00 0x00 0xFD 0x8000 (flags 0 0 0 1 0 0))
        [(0x8000, 0x70), (0x8001, 0x05)])
      (cpu 0x00 0x00 0x00 0xFD 0x8002 (flags 0 0 0 1 0 0)) 2 0 none [] = true := by decide

/-- V185, `CLC`. -/
theorem test_clc_v185 :
    leads (start (cpu 0x00 0x00 0x00 0xFD 0x8000 (flags 0 0 0 1 0 1))
        [(0x8000, 0x18)])
      (cpu 0x00 0x00 0x00 0xFD 0x8001 (flags 0 0 0 1 0 0)) 2 0 none [] = true := by decide

/-- V186, `SEC`. -/
theorem test_sec_v186 :
    leads (start (cpu 0x00 0x00 0x00 0xFD 0x8000 (flags 0 0 0 1 0 0))
        [(0x8000, 0x38)])
      (cpu 0x00 0x00 0x00 0xFD 0x8001 (flags 0 0 0 1 0 1)) 2 0 none [] = true := by decide

/-- V187, `CLI`: I 1 -> 0. -/
theorem test_cli_v187 :
    leads (start (cpu 0x00 0x00 0x00 0xFD 0x8000 (flags 0 0 0 1 0 0))
        [(0x8000, 0x58)])
      (cpu 0x00 0x00 0x00 0xFD 0x8001 (flags 0 0 0 0 0 0)) 2 0 (some .iCleared) [] = true := by decide

/-- V188, `CLI`: I already 0: no stop. -/
theorem test_cli_v188 :
    leads (start (cpu 0x00 0x00 0x00 0xFD 0x8000 (flags 0 0 0 0 0 0))
        [(0x8000, 0x58)])
      (cpu 0x00 0x00 0x00 0xFD 0x8001 (flags 0 0 0 0 0 0)) 2 0 none [] = true := by decide

/-- V189, `SEI`. -/
theorem test_sei_v189 :
    leads (start (cpu 0x00 0x00 0x00 0xFD 0x8000 (flags 0 0 0 0 0 0))
        [(0x8000, 0x78)])
      (cpu 0x00 0x00 0x00 0xFD 0x8001 (flags 0 0 0 1 0 0)) 2 0 none [] = true := by decide

/-- V190, `CLV`. -/
theorem test_clv_v190 :
    leads (start (cpu 0x00 0x00 0x00 0xFD 0x8000 (flags 0 1 0 1 0 0))
        [(0x8000, 0xB8)])
      (cpu 0x00 0x00 0x00 0xFD 0x8001 (flags 0 0 0 1 0 0)) 2 0 none [] = true := by decide

/-- V191, `CLD`. -/
theorem test_cld_v191 :
    leads (start (cpu 0x00 0x00 0x00 0xFD 0x8000 (flags 0 0 1 1 0 0))
        [(0x8000, 0xD8)])
      (cpu 0x00 0x00 0x00 0xFD 0x8001 (flags 0 0 0 1 0 0)) 2 0 none [] = true := by decide

/-- V192, `SED`. -/
theorem test_sed_v192 :
    leads (start (cpu 0x00 0x00 0x00 0xFD 0x8000 (flags 0 0 0 1 0 0))
        [(0x8000, 0xF8)])
      (cpu 0x00 0x00 0x00 0xFD 0x8001 (flags 0 0 1 1 0 0)) 2 0 none [] = true := by decide

/-- V193, `NOP`. -/
theorem test_nop_v193 :
    leads (start (cpu 0x01 0x02 0x03 0xFD 0x8000 (flags 1 1 1 1 1 1))
        [(0x8000, 0xEA)])
      (cpu 0x01 0x02 0x03 0xFD 0x8001 (flags 1 1 1 1 1 1)) 2 0 none [] = true := by decide

/-- V220, `NOP`: PC 0xFFFF + 1 = 0x0000. -/
theorem test_nop_v220 :
    leads (start (cpu 0x00 0x00 0x00 0xFD 0xFFFF (flags 0 0 0 1 0 0))
        [(0xFFFF, 0xEA)])
      (cpu 0x00 0x00 0x00 0xFD 0x0000 (flags 0 0 0 1 0 0)) 2 0 none [] = true := by decide

/-- V225, `ILL $02`: no register or flag changes. -/
theorem test_ill_v225 :
    leads (start (cpu 0x01 0x02 0x03 0xFD 0x8000 (flags 1 1 1 1 1 1))
        [(0x8000, 0x02)])
      (cpu 0x01 0x02 0x03 0xFD 0x8001 (flags 1 1 1 1 1 1)) 2 1 (some (.illegal 0x02)) [] = true := by decide

/-- V228, `ILL $80`: skip wraps PC. -/
theorem test_ill_v228 :
    leads (start (cpu 0x00 0x00 0x00 0xFD 0xFFFF (flags 0 0 0 1 0 0))
        [(0xFFFF, 0x80)])
      (cpu 0x00 0x00 0x00 0xFD 0x0000 (flags 0 0 0 1 0 0)) 2 1 (some (.illegal 0x80)) [] = true := by decide

/-! ## Devices and the Bus Controller -/

/-- A word placed for the next step is what that step runs, from reset (NOP: two cycles). -/
theorem test_placed_word_runs :
    (match boundary (State.reset.withFetchWord 8 0xEA) with
      | .run t => decide (t.instrAt = .nop) && decide (t.clk = 0)
      | .handled _ => false) = true := by decide

/-- An address written high byte first through 0x2006 (R258): 0x21 then 0x08 give `v` = 0x2108. -/
theorem test_ppu_address :
    (memWrite 0x2006 0x08 (memWrite 0x2006 0x21 State.reset)).ppu.v = 0x2108 := by decide

/-- A byte written through 0x2007 at 0x2108 lands in the nametable memory and moves `v` on by one (R260). -/
theorem test_ppu_data :
    (let s := memWrite 0x2007 0x5A (memWrite 0x2006 0x08 (memWrite 0x2006 0x21 State.reset))
     decide (s.ppu.read 0x2108 = 0x5A) && decide (s.ppu.v = 0x2109)) = true := by decide

/-- OAM DMA stalls the CPU for 513 cycles (R317). -/
theorem test_oam_dma : (memWrite 0x4014 0x02 State.reset).clk = 513 := by decide +kernel

/-- The strobe puts pad 1 at its first bit, and a read moves it on by one and pad 2 not at all (R318). -/
theorem test_joypad_serial :
    (let s := memWrite 0x4016 0x00 (memWrite 0x4016 0x01 { State.reset with pads := { State.reset.pads with pos1 := 5 } })
     decide (s.pads.pos1 = 0) && decide ((memRead 0x4016 s).2.pads.pos1 = 1) &&
       decide ((memRead 0x4016 s).2.pads.pos2 = 0)) = true := by decide

/-- Frame lengths (R264): 29781 cycles after reset, and 29780 when one dot is carried over (Section 5, P6). -/
theorem test_frame_length :
    Ppu.reset.frameLen = 29781 ∧ Ppu.reset.vblTime = 27508 ∧ { Ppu.reset with phase := 2 }.frameLen = 29780 := by decide

/-- IRQ entry (R236) at 0x8010 with only C set: the pushed status is 0x21, bit 4 clear. -/
theorem test_interrupt_entry :
    (let s := vectorIrq (start (cpu 0 0 0 0xFD 0x8010 (flags 0 0 0 0 0 1)) [(0xFFFE, 0x00), (0xFFFF, 0x90)])
     decide (s.cpu = cpu 0 0 0 0xFA 0x9000 (flags 0 0 0 1 0 1)) && decide (s.clk = 7) &&
       decide (Memory.read s.mem 0x1FD = 0x80 ∧ Memory.read s.mem 0x1FC = 0x10 ∧ Memory.read s.mem 0x1FB = 0x21)) =
      true := by decide

/-! ## Witnesses: every hypothesis of every statement can be met -/

/-- A state inside a `run` whose stop time is ahead. -/
def running : State := { State.reset with endCycle := some 100 }

/-- A frame in progress, `run` just returned, the vertical-blank event behind it. -/
def between : State :=
  { State.reset with inFrame := true, ppu := { Ppu.reset with vblDone := true, renderedUntil := 89341, ppuClk := 29780 } }

/-- `DecodeOfEncode`: an instruction of three bytes at its largest operand, and an illegal opcode. -/
theorem test_witness_encoding :
    (Instr.lda (.abx 0xFFFF)).wellFormed = true ∧ (Instr.ill 0xFF).wellFormed = true := by decide

/-- `IllegalStep`: both ends of the list. -/
theorem test_witness_illegal : (0x02 : Byte).toNat ∈ illegalOpcodes ∧ (0xFF : Byte).toNat ∈ illegalOpcodes := by decide

/-- `StepRunsDecodedInstruction`: one cycle before the stop time, too. -/
theorem test_witness_running :
    running.endCycle = some 100 ∧ running.clk < 100 ∧ ({ running with clk := 99 } : State).clk < 100 := by decide

/-- `BoundaryIsTransparent`: inside a `run`, and where the Bus Controller begins one. -/
theorem test_witness_boundary_run :
    (∃ t, boundary running = .run t) ∧ (∃ t, boundary { between with clk := 29780 } = .run t) := ⟨⟨_, rfl⟩, ⟨_, rfl⟩⟩

/-- `BoundaryEvents`: the end of the frame at exactly its length, an NMI due now with I set, an IRQ due now with I clear. -/
theorem test_witness_boundary_events :
    (∃ t, boundary { between with clk := 29781 } = .handled t ∧ t.frameResult = some 29781 ∧ t.clk = 0) ∧
    (∃ t, boundary { between with clk := 29780, nmiTime := some 29780 } = .handled t ∧ t.nmiTime = none ∧
      t.clk = 29787) ∧
    (∃ t, boundary { between with
        clk := 29780, apu := { State.reset.apu with irq := some 29780 }
        cpu := { State.reset.cpu with p := flags 0 0 0 0 0 0 } } = .handled t ∧ t.cpu.p.i = true ∧ t.clk = 29787) :=
  ⟨⟨_, rfl, rfl, rfl⟩, ⟨_, rfl, rfl, rfl⟩, ⟨_, rfl, rfl, rfl⟩⟩

/-- `BoundaryEvents`, `BoundaryIsTransparent`: a `run` whose stop time is ahead; outside one, nothing due, the debug boundary one cycle
on and degenerate, and one cycle before the frame's end. -/
theorem test_witness_boundary_quiet :
    (running.endCycle = some 100 ∧ running.clk < 100) ∧ between.endCycle = none ∧
    (∃ t, boundary { between with clk := 29780, params := { between.params with stepBoundary := some 1 } } = .run t ∧
      t.endCycle = some 29781) ∧
    (∃ t, boundary { between with clk := 29780, params := { between.params with stepBoundary := some 0 } } = .handled t ∧
      t.clk = 29780 ∧ t.lastStop = some .cycles) :=
  ⟨⟨rfl, by decide⟩, rfl, ⟨_, rfl, rfl⟩, ⟨_, rfl, rfl, rfl⟩⟩

/-- The standing premise of the statements on instructions, the stack and interrupts, and of `PagesStayInstalled`. -/
theorem test_witness_pages : PagesInstalled State.reset := reset_installed

/-- `Mirrors`: the last mirrors of one cell and of one register. -/
theorem test_witness_mirrors :
    PagesInstalled State.reset ∧ (0x1FFF : Word).toNat < 0x2000 ∧ (0x07FF : Word).toNat < 0x2000 ∧
    (0x07FF : Word).toNat % 2048 = (0x1FFF : Word).toNat % 2048 ∧
    0x2000 ≤ (0x2000 : Word).toNat ∧ (0x3FF8 : Word).toNat < 0x4000 ∧
    (0x2000 : Word).toNat % 8 = (0x3FF8 : Word).toNat % 8 := ⟨reset_installed, by decide⟩

/-- `FetchAgreesWithRead`: the default fill is outside the implemented set (R7). -/
theorem test_witness_fill : State.reset.params.legal := by unfold Params.legal; decide

/-- A cartridge with battery-backed RAM in the slot, `reset` called. -/
def withRam : State :=
  hostReset true false { State.reset with cart := { blankCartridge with battery := true, ramPresent := true } }

/-- `CartridgeSpace`: a cartridge with RAM, the first and the last address of its RAM; a byte stored is read and fetched back;
a byte of a battery file, and the cell past the end of a short one. -/
theorem test_witness_cartridge_ram :
    withRam.cart.mapperId = 0 ∧ withRam.pageTable = pageTableOf (mappingOf withRam.mapper.regs withRam.cart) ∧
    withRam.cart.ramPresent = true ∧ 0x6000 ≤ (0x6000 : Word).toNat ∧ (0x7FFF : Word).toNat < 0x8000 ∧
    (memRead 0x7FFF (memWrite 0x7FFF 0x5A withRam)).1 = 0x5A ∧ (memWrite 0x6000 0xA5 withRam).fetch 0x6000 = 0xA5 ∧
    (memRead 0x6001 (restoreBattery [0x11, 0x22] withRam)).1 = 0x22 ∧
    (memRead 0x6002 (restoreBattery [0x11, 0x22] (memWrite 0x6002 0x33 withRam))).1 = 0x33 := by decide

/-- A mapper variant's RAM claimed in page 9 and, past the cartridge's 8KB, in page 12. -/
def bankedRam : State :=
  { State.reset with pageTable := pageTableOf { noopMapping blankCartridge with
      lowPages := [.mapperRam 0, .unmapped, .unmapped, .mapperRam 0x2000] } }

/-- `CartridgeSpace`, `FetchAgreesWithRead`, `WriteFrame`: two such pages; a byte stored in one is read and fetched back there and not
in the other (R78). -/
theorem test_witness_mapper_ram :
    bankedRam.pageAt 0x4800 = .mapperRam 0 ∧ bankedRam.pageAt 0x67FF = .mapperRam 0x2000 ∧
    bankedRam.ramCellOf 0x67FF = some 0x27FF ∧ bankedRam.ramCellOf 0x4800 ≠ some 0x2000 ∧
    (let s := memWrite 0x6000 0x22 (memWrite 0x4800 0x11 bankedRam)
     (memRead 0x4800 s).1 = 0x11 ∧ s.fetch 0x4800 = 0x11 ∧ (memRead 0x6000 s).1 = 0x22 ∧ s.mem = []) := by decide

/-- A load keeps of the nametable memory what is on chip and no more (R42). -/
theorem test_load_nametables :
    (({ Ppu.reset with nt := [(0x7FF, 0x11), (0x800, 0x22)] } : Ppu).afterLoad 5 []).nt = [(0x7FF, 0x11)] := by decide

/-- `CartridgeSpace`: the first and the last address of program ROM. -/
theorem test_witness_flat :
    State.reset.cart.mapperId = 0 ∧
    State.reset.pageTable = pageTableOf (mappingOf State.reset.mapper.regs State.reset.cart) ∧
    0x8000 ≤ (0x8000 : Word).toNat ∧ 0x8000 ≤ (0xFFFF : Word).toNat := by decide

/-- `ReadFrame`, `WriteFrame`: an address outside the device pages, a cell no write to it reaches. -/
theorem test_witness_access :
    State.reset.pageAt 0x0010 ≠ .ppuRegs ∧ State.reset.pageAt 0x0010 ≠ .io ∧ State.reset.cellOf 0x0010 ≠ some 0x11 ∧
    State.reset.pageAt 0x4014 = .io := by decide

/-- `PointerWrapsInPage`: the last address of RAM's last mirror, which wraps, and the first, which does not. -/
theorem test_witness_pointer :
    (0x1FFF : Word).toNat < 0x2000 ∧ (0x1FFF : Word).toNat % 256 = 255 ∧ (0x0000 : Word).toNat < 0x2000 ∧
    (0x0000 : Word).toNat % 256 ≠ 255 := by decide

/-- `JmpResult`: a pointer in RAM and one in program ROM, each at the end of a 256-byte page. -/
theorem test_witness_jmp :
    PagesInstalled State.reset ∧ (0x1FFF : Word).toNat < 0x2000 ∧ 0x8000 ≤ (0x80FF : Word).toNat :=
  ⟨reset_installed, by decide⟩

/-- `Subroutines`: after a JSR the subroutine changes a register and a byte of RAM; SP and the two cells are as the JSR left them. -/
theorem test_witness_subroutine :
    ∃ t, exec (.jsr 0x9000) State.reset = .next t ∧ PagesInstalled ((t.setA 0x55).store 0x10 0x66) ∧
      ((t.setA 0x55).store 0x10 0x66).cpu.sp = t.cpu.sp ∧
      Memory.read ((t.setA 0x55).store 0x10 0x66).mem 0x1FD = Memory.read t.mem 0x1FD ∧
      Memory.read ((t.setA 0x55).store 0x10 0x66).mem 0x1FC = Memory.read t.mem 0x1FC ∧ 0x100 + State.reset.cpu.sp.toNat = 0x1FD ∧
      0x100 + (State.reset.cpu.sp - 1).toNat = 0x1FC :=
  ⟨_, rfl, reset_installed.congr rfl, by decide, by decide, by decide, by decide, by decide⟩

/-- `RtiUndoesEntry`: a BRK leads somewhere. -/
theorem test_witness_calls :
    PagesInstalled State.reset ∧ (∃ t, exec .brk State.reset = .next t) ∧ ((0xFFFA : Word) = 0xFFFA ∨ (0xFFFA : Word) = 0xFFFE) :=
  ⟨reset_installed, ⟨_, rfl⟩, Or.inl rfl⟩

/-- `OnlyThreeClearI`: a CLI with I set. -/
theorem test_witness_i_cleared :
    ∃ t, exec .cli State.reset = .next t ∧ t.lastStop = some .iCleared ∧ State.reset.lastStop ≠ some .iCleared :=
  ⟨_, rfl, rfl, by decide⟩

/-- `RegisterAndFlagFrame`, `SystemFrame`: an instruction that writes no register and no flag. -/
theorem test_witness_frames :
    (∃ t, exec (.sta (.zp 0x10)) State.reset = .next t) ∧ (Instr.sta (.zp 0x10)).writesA = false ∧
    (Instr.sta (.zp 0x10)).writesX = false ∧ (Instr.sta (.zp 0x10)).writesY = false ∧
    (Instr.sta (.zp 0x10)).writesSp = false ∧ (Instr.sta (.zp 0x10)).writesC = false ∧
    (Instr.sta (.zp 0x10)).writesNZ = false ∧ (Instr.sta (.zp 0x10)).writesI = false ∧
    (Instr.sta (.zp 0x10)).writesD = false ∧ (Instr.sta (.zp 0x10)).writesV = false := ⟨⟨_, rfl⟩, by decide⟩

/-- `MemoryFrame`, a store: the cell beside the one stored to. -/
theorem test_witness_memory_store :
    PagesInstalled State.reset ∧ (∃ t, exec (.sta (.zp 0x10)) State.reset = .next t) ∧
    (Instr.sta (.zp 0x10)).destination = some (.zp 0x10) ∧
    State.reset.cellOf (effective (.zp 0x10) State.reset) ≠ some 0x11 ∧ (Instr.sta (.zp 0x10)).pushes = 0 :=
  ⟨reset_installed, ⟨_, rfl⟩, by decide⟩

/-- `MemoryFrame`, a store to a mapper variant's own RAM: the byte beside the one stored to. -/
theorem test_witness_memory_mapper_ram :
    PagesInstalled bankedRam ∧ (∃ t, exec (.sta (.abs 0x4800)) bankedRam = .next t ∧ t.mapperRam.byte 0 = 0x00) ∧
    bankedRam.ramCellOf (effective (.abs 0x4800) bankedRam) ≠ some 1 :=
  ⟨pageTableOf_installed _ _ rfl, ⟨_, rfl, by decide⟩, by decide⟩

/-- `MemoryFrame`, a push: SP is 0xFD, so the cell above and the cell below are kept by a PHA. -/
theorem test_witness_memory_push :
    PagesInstalled State.reset ∧ (∃ t, exec .pha State.reset = .next t) ∧ Instr.pha.destination = none ∧
    Instr.pha.pushes = 1 ∧ 0x1FC ≠ 0x100 + (State.reset.cpu.sp - BitVec.ofNat 8 0).toNat ∧
    0x1FE ≠ 0x100 + (State.reset.cpu.sp - BitVec.ofNat 8 0).toNat := ⟨reset_installed, ⟨_, rfl⟩, by decide⟩

/-- `MemoryStaysCanonical`, `PagesStayInstalled`, `ProgramNeverChanges`, `CountersStayInRange`, `TimeAdvances`: the
invariants hold at reset and in a state whose step answers. -/
theorem test_witness_invariants :
    Memory.wf State.reset.mem ∧ Assoc.sorted State.reset.mapperRam.cells ∧ PagesInstalled State.reset ∧ State.reset.ppu.phase < 3 ∧ State.reset.pads.pos1 ≤ 8 ∧
    State.reset.pads.pos2 ≤ 8 ∧ Memory.wf running.mem ∧ PagesInstalled running ∧ running.ppu.phase < 3 ∧
    ∃ t, step running = .next t :=
  ⟨by decide, by decide, reset_installed, by decide, by decide, by decide, by decide, reset_installed.congr rfl, by decide,
    ⟨_, rfl⟩⟩

/-- `TimeAdvances`: no degenerate debug boundary, the frame's length reached exactly with no `run` in progress, and one cycle
before, where a `run` is opened. -/
theorem test_witness_time :
    between.params.stepBoundary ≠ some 0 ∧ between.ppu.phase < 3 ∧ (∀ e, between.endCycle = some e → e ≤ 29781) ∧
    (passStart { between with clk := 29781 }).ppu.frameLen ≤ 29781 ∧
    (∃ t, step { between with clk := 29781 } = .next t) ∧ ∃ t, boundary { between with clk := 29780 } = .run t :=
  ⟨by decide, by decide, by simp [between, State.reset], by decide, ⟨_, rfl⟩, ⟨_, rfl⟩⟩

/-- `FrameTimes`: every remainder, the two lengths among them. -/
theorem test_witness_frame_times :
    Ppu.reset.phase < 3 ∧ ({ Ppu.reset with phase := 2 } : Ppu).phase < 3 ∧
    ({ Ppu.reset with phase := 2 } : Ppu).vblTime = 27507 := by decide

/-- `PpuRegisterReads`: the first mirror of register 0 and the last of register 6, a mirror of each other register read. -/
theorem test_witness_register_reads :
    PagesInstalled State.reset ∧ 0x2000 ≤ (0x2000 : Word).toNat ∧ (0x3FFE : Word).toNat < 0x4000 ∧
    (0x2000 : Word).toNat % 8 = 0 ∧ (0x2009 : Word).toNat % 8 = 1 ∧ (0x3FFA : Word).toNat % 8 = 2 ∧
    (0x2003 : Word).toNat % 8 = 3 ∧ (0x3FFC : Word).toNat % 8 = 4 ∧ (0x2005 : Word).toNat % 8 = 5 ∧
    (0x3FFE : Word).toNat % 8 = 6 := ⟨reset_installed, by decide⟩

/-- A write-only register reads as the last byte written to any register (R251); OAM data reads without an increment (R256). -/
theorem test_register_reads :
    (memRead 0x2005 (memWrite 0x2003 0x5A State.reset)).1 = 0x5A ∧
    (let s := memWrite 0x2003 0x10 (memWrite 0x2004 0x77 (memWrite 0x2003 0x10 State.reset))
     (memRead 0x2004 s).1 = 0x77 ∧ (memRead 0x2004 s).2.ppu.oamAddr = 0x10) := by decide

/-- `VblankRace`: the event is ahead at reset; the time of the event, the one after, the one before. -/
theorem test_witness_race :
    State.reset.ppu.vblDone = false ∧ State.reset.ppu.vbl = false ∧ State.reset.nmiTime = none ∧
    State.reset.ppu.vblTime = 27508 ∧ State.reset.ppu.vblTime < 27509 ∧ 27507 ≤ State.reset.ppu.vblTime ∧
    State.reset.clk < State.reset.ppu.vblTime ∧
    State.reset.ppu.vblTime ≤ ({ State.reset with clk := 27508 } : State).clk := by decide

/-- `LazyRenderingUnobservable`, `ScrollAndAddressPairs`, `DataPortRead`: two times in order; the first write of a pair;
addresses on both sides of the palette's first. -/
theorem test_witness_ppu :
    (100 ≤ 200 ∧ (0 : Nat) ≤ 0) ∧ Ppu.reset.w = false ∧ ({ Ppu.reset with v := 0x3EFF } : Ppu).v.toNat % 0x4000 < 0x3F00 ∧
    0x3F00 ≤ ({ Ppu.reset with v := 0x7F00 } : Ppu).v.toNat % 0x4000 := by decide

/-- `ScrollAndAddressPairs`, `PpuRegisterWrites`, `DataPortRead`: the first and the last mirror of each register stored to, and of the
one read. -/
theorem test_witness_ppu_ports :
    PagesInstalled State.reset ∧ 0x2000 ≤ (0x2000 : Word).toNat ∧ (0x3FFF : Word).toNat < 0x4000 ∧
    (0x2000 : Word).toNat % 8 = 0 ∧ (0x2001 : Word).toNat % 8 = 1 ∧ (0x3FFA : Word).toNat % 8 = 2 ∧
    (0x2003 : Word).toNat % 8 = 3 ∧ (0x3FFC : Word).toNat % 8 = 4 ∧ (0x2005 : Word).toNat % 8 = 5 ∧
    (0x3FFE : Word).toNat % 8 = 6 ∧ (0x2007 : Word).toNat % 8 = 7 ∧ (0x3FFF : Word).toNat % 8 = 7 :=
  ⟨reset_installed, by decide⟩

/-- `PpuRegisterWrites`: the enable bit rises with the flag set and the NMI is raised at the time of the store (R252); it does not
when the bit was set already. -/
theorem test_witness_nmi_at_once :
    (let s := { running with clk := 4, ppu := { Ppu.reset with vbl := true, vblDone := true } }
     let t := memWrite 0x2000 0x80 s
     decide (t.nmiTime = some 4) && decide (t.endCycle = some 4) &&
       decide ((memWrite 0x2000 0x80 { s with ppu := { s.ppu with ctrl := 0x80 } }).nmiTime = none)) = true := by decide

/-- `VramAddressMoves`: rendering on; line 0 at dots 280 and 304, line 240 at dots 256 and 257, line 241. -/
theorem test_witness_moves :
    (let p := { Ppu.reset with mask := 0x08 }
     p.rendering = true ∧ p.position 280 = (0, 280) ∧ p.position 304 = (0, 304) ∧ p.position (240 * 341 + 256) = (240, 256) ∧
       p.position (240 * 341 + 257) = (240, 257) ∧ p.position (241 * 341) = (241, 0)) ∧
    Ppu.reset.rendering = false ∧ Ppu.reset.shortened = false := by decide

/-- The step to the next row (R271): row 29 leads to row 0 of the other nametable, row 31 to row 0 of the same. -/
theorem test_next_row :
    nextRow 0x73A5 = 0x0805 ∧ nextRow 0x73E5 = 0x0005 ∧ nextRow 0x7025 = 0x0045 ∧ nextRow 0x2025 = 0x3025 := by decide

/-- A PPU with both layers shown from the left edge, character RAM whose tile 0 is all colour 1 and tile 1 all colour 0, a blank
nametable row, sprite 0 transparent and sprite 1 opaque at pixels 0 to 7 of row 1, every other sprite below the picture. -/
def drawn : Ppu :=
  { Ppu.reset with
    mask := 0x1E
    chr := (List.range 32).map (fun k => (k, if k < 8 then 0xFF else 0x00))
    nt := (List.range 64).map (fun k => (k, 0x00)) ++ (List.range 64).map (fun k => (0x3C0 + k, 0x00))
    oam := [(0, 0x00), (1, 0x01), (2, 0x00), (3, 0x00), (4, 0x00), (5, 0x00), (6, 0x03), (7, 0x00)] ++
      (List.range 248).map (fun k => (8 + k, 0xFF))
    video := { buffer := some (0, 256), pixels := [], rowColours := [] } }

/-- `SpritePixels`: two entries in range on row 1, the first transparent, the second opaque and in front: palette index
16 + 4*3 + 1 (R274). -/
theorem test_witness_sprites :
    drawn.selectedSprites 1 = [0, 1] ∧ drawn.spriteColour 1 0 7 = 0 ∧ drawn.spriteColour 1 1 7 = 1 ∧
    drawn.composed 1 (drawn.selectedSprites 1) 7 = 29 ∧ drawn.background 7 = (true, 1) := by decide +kernel

/-- `RowDrawing`: a buffer named by the host, the first and the last row; a sprite-zero hit at the first pixel of row 1 when entry 0
shows tile 0 (R275), noted for frame dot 2*341 + 1. -/
theorem test_witness_row :
    0 < 240 ∧ 239 < 240 ∧ drawn.video.buffer = some (0, 256) ∧
    ({ drawn with oam := Assoc.put 1 0x00 drawn.oam } : Ppu).spriteZeroHit 1 = some 0 ∧ Ppu.reset.rendering = false ∧ 31 < 32 := by
  decide +kernel

/-- `PpuAddressSpace`, palette: an aliased entry read back through its other address, and an address outside the palette. -/
theorem test_witness_palette :
    0x3F00 ≤ 0x3F10 ∧ 0x3F10 < 0x4000 ∧ 0x3EFF < 0x4000 ∧
    (Ppu.reset.write 0x3F10 0xFF).read 0x3F00 = 0x3F ∧ (Ppu.reset.write 0x3F11 0x15).read 0x3FF1 = 0x15 := by decide

/-- `PpuAddressSpace`, nametables under horizontal mirroring (R267): the first two logical ones are one bank, the last two another, and
0x3EFF mirrors 0x2EFF; pattern memory, writable and not, from 0x0000 to 0x1FFF (R277); a listed byte of pattern ROM. -/
theorem test_witness_ppu_memory :
    State.reset.cart.mapperId = 0 ∧ State.reset.cart.mirroring = .horizontal ∧
    (Ppu.reset.write 0x2000 0x5A).read 0x2400 = 0x5A ∧ (Ppu.reset.write 0x2EFF 0x77).read 0x3EFF = 0x77 ∧
    (Ppu.reset.write 0x2000 0x5A).nt = [(0, 0x5A)] ∧ (Ppu.reset.write 0x2800 0x5A).nt = [(0x400, 0x5A)] ∧
    Ppu.reset.chrWritable = true ∧ (Ppu.reset.write 0x1FFF 0x5A).read 0x1FFF = 0x5A ∧
    (let p := { Ppu.reset with chrWritable := false, chr := [(0, 0x42)] }
     p.write 0x1FFF 0x5A = p ∧ p.read 0x0000 = 0x42) := by decide

/-- `OamDmaCopiesPage`: the last page of RAM's mirrors, the first page of cartridge RAM, the last of program ROM, and a page that is no
plain memory; the last byte of each. -/
theorem test_witness_dma :
    PagesInstalled State.reset ∧ (0x1F : Byte).toNat < 0x20 ∧ 255 < 256 ∧
    State.reset.pageAt (word 0 0x1F + 0) = .workRam ∧ withRam.pageAt (word 0 0x60 + 0) = .cartRam 0 ∧
    State.reset.pageAt (word 0 0xFF + 0) = .prgRom 0x7800 ∧ bankedRam.pageAt (word 0 0x48 + 0) = .mapperRam 0 ∧ State.reset.pageAt (word 0 0x60 + 0) = .unmapped :=
  ⟨reset_installed, by decide⟩

/-- `JoypadSerialOrder`: the strobe written one, then zero; the eighth button and the bit after it. -/
theorem test_witness_joypad :
    PagesInstalled State.reset ∧ (0x01 : Byte).getLsbD 0 = true ∧ (0x00 : Byte).getLsbD 0 = false ∧ 7 < 8 ∧
    ¬ 8 < 8 := ⟨reset_installed, by decide⟩

/-- `HostReset`: a full reset gives RAM its pattern, the machine's own where it has one, a soft one keeps a written byte and takes three
off SP; `erase` clears battery-backed RAM and no other; the joypads are at 0; a soft reset keeps character RAM. -/
theorem test_witness_host_reset :
    Memory.read (hostReset true false (memWrite 0x0010 0x55 State.reset)).mem 0x10 = 0xFF ∧
    Memory.read (hostReset true false { State.reset with
      params := { Config.defaultParams with ramPowerUp := [0x12, 0x34] } }).mem 1 = 0x34 ∧
    Memory.read (hostReset false false (memWrite 0x0010 0x55 State.reset)).mem 0x10 = 0x55 ∧
    (hostReset false false State.reset).cpu.sp = 0xFA ∧
    Memory.read (hostReset true true (memWrite 0x6000 0x5A withRam)).mem 0x6000 = 0x00 ∧
    Memory.read (hostReset true false (memWrite 0x6000 0x5A withRam)).mem 0x6000 = 0x5A ∧
    (let s := { withRam with cart := { withRam.cart with battery := false } }
     Memory.read (hostReset true true (memWrite 0x6000 0x5A s)).mem 0x6000 = 0x5A) ∧
    (hostReset false false { State.reset with pads := { State.reset.pads with bits1 := 0xFF, pos1 := 3 } }).pads.bits1 = 0 ∧
    (hostReset false false { State.reset with ppu := Ppu.reset.write 0x0000 0x66 }).ppu.read 0x0000 = 0x66 := by decide

/-- A restore brings the saved byte back and clears the error count, but not the count of frames: the frames after it take inputs of
their own (R52, R326, R50). -/
theorem test_restore :
    (let saved := memWrite 0x0010 0x55 State.reset
     let r := restoreSnapshot { saved with errorCount := 3 } { State.reset with frames := 7 }
     decide (Memory.read r.mem 0x10 = 0x55) && decide (r.errorCount = 0) && decide (r.frames = 7)) = true := by decide

/-- The Bus Controller is told which illegal opcode ended the run (R11). -/
theorem test_illegal_recorded : ∃ t, exec (.ill 0xF2) running = .next t ∧ t.lastStop = some (.illegal 0xF2) :=
  ⟨_, rfl, rfl⟩

end Sys2Proof.Tests.Slice0
end

section
/-! SUPPORT. The family `00_scope.md`: what no step and no instruction changes, the illegal opcodes, and the machine after a
reset. -/

namespace Sys2Proof.Machine

/-! ## What no step changes -/

/-- The parts of the machine that only the host can change: the cartridge, the arguments (R7), program memory (R50, R90, R305). -/
structure ProgramKept (s t : State) : Prop where
  cart : t.cart = s.cart
  params : t.params = s.params
  rom : ∀ k, prgKey ≤ k → Memory.read t.mem k = Memory.read s.mem k

namespace ProgramKept

theorem refl (s : State) : ProgramKept s s := ⟨rfl, rfl, fun _ _ => rfl⟩

/-- A change within the frame of a write keeps them. -/
theorem write {s t u : State} (h : ProgramKept s t) (f : WriteFrame t u) : ProgramKept s u :=
  ⟨f.cart.trans h.cart, f.params.trans h.params, fun k hk => (f.rom k hk).trans (h.rom k hk)⟩

/-- Every change a step is made of keeps them. -/
theorem keptByStep (s : State) : KeptByStep (ProgramKept s) where
  cpu := fun _ _ h => { h with }
  clk := fun _ _ h => { h with }
  read := fun a t h => h.write (memRead_frame a t).toWrite
  write := fun a v t h => h.write (memWrite_frame a v t)
  stop := fun _ _ h => { h with }
  error := fun _ h => { h with }
  catchUp := fun T t h => h.write (catchUp_frame T t).toWrite
  vblEvent := fun t h => h.write (vblEvent_frame t).toWrite
  beginFrame := fun _ h => { h with }
  endFrame := fun t h => by rw [endFrame_eq]; exact { h with }
  clearNmi := fun _ h => { h with }
  refreshIrq := fun t h => by rw [refreshIrq_eq]; exact { h with }
  openRun := fun _ h => { h with }

end ProgramKept

/-- Settles O42: every change a step is made of keeps program memory, the cartridge and the arguments. -/
theorem programNeverChanges : Obligations.ProgramNeverChanges := by
  intro s t e
  obtain ⟨cart, params, rom⟩ := step_induction (ProgramKept.keptByStep s) e (.refl s)
  exact ⟨cart, params, rom⟩

/-! ## What no instruction changes -/

/-- An instruction that is no illegal opcode is its issue, then register changes, clock changes and accesses, and for CLI, PLP
and RTI the end of the `run`: a property those keep holds after it if it holds of the issued state. -/
theorem KeptByAccess.exec_of_not_ill {P : State → Prop} (k : KeptByAccess P) (stop : ∀ s r, P s → P (s.stop r)) {i : Instr}
    {s t : State} (hi : i.mnemonicIsIll = false) (e : Machine.exec i s = .next t) (h : P (Machine.issue i s)) : P t := by
  have stopIf : ∀ (b : Bool) (u : State), P u → P (stopIfICleared b u) := by
    intro b u hu
    unfold stopIfICleared
    split
    · exact stop _ _ hu
    · exact hu
  cases hr : i.canEndRun with
  | false =>
    obtain ⟨u, hu, p⟩ := k.exec i hr h
    rw [hu] at e
    cases e
    exact p
  | true =>
    cases i
    case cli => cases e; exact stopIf _ _ (k.setP _ h)
    case plp => cases e; exact stopIf _ _ (k.setP _ (k.pull h))
    case rti => cases e; exact stopIf _ _ (k.setPc _ (k.pullWord (k.setP _ (k.pull h))))
    case ill op => cases hi
    all_goals cases hr

/-- Every instruction that is no illegal opcode is well formed. -/
theorem wellFormed_of_not_ill {i : Instr} (hi : i.mnemonicIsIll = false) : i.wellFormed = true := by
  cases i
  case ill op => cases hi
  all_goals rfl

/-- What an instruction leaves as it found it in the system around the CPU (R7, R38, R48, R50), the error count as after
`errors` illegal opcodes and the clock at least two cycles on (R125, R208). -/
structure InstrFrame (s : State) (errors : Nat) (t : State) : Prop where
  cart : t.cart = s.cart
  params : t.params = s.params
  bits1 : t.pads.bits1 = s.pads.bits1
  bits2 : t.pads.bits2 = s.pads.bits2
  inFrame : t.inFrame = s.inFrame
  frameResult : t.frameResult = s.frameResult
  irqTime : t.irqTime = s.irqTime
  clk : s.clk + 2 ≤ t.clk
  errorCount : t.errorCount = s.errorCount + errors

namespace InstrFrame

/-- A change within the frame of a write stays within it. -/
theorem write {s t u : State} {n : Nat} (h : InstrFrame s n t) (f : WriteFrame t u) : InstrFrame s n u where
  cart := f.cart.trans h.cart
  params := f.params.trans h.params
  bits1 := f.bits1.trans h.bits1
  bits2 := f.bits2.trans h.bits2
  inFrame := f.inFrame.trans h.inFrame
  frameResult := f.frameResult.trans h.frameResult
  irqTime := f.irqTime.trans h.irqTime
  clk := Nat.le_trans h.clk f.clk
  errorCount := f.errorCount.trans h.errorCount

theorem keptByAccess (s : State) (n : Nat) : KeptByAccess (InstrFrame s n) where
  cpu := fun _ _ h => { h with }
  clk := fun t n h => h.write (addClk_frame t n)
  read := fun a t h => h.write (memRead_frame a t).toWrite
  write := fun a v t h => h.write (memWrite_frame a v t)

theorem issue {i : Instr} (hi : i.mnemonicIsIll = false) (s : State) : InstrFrame s 0 (Machine.issue i s) := by
  rw [issue_advanced (wellFormed_of_not_ill hi)]
  exact ⟨rfl, rfl, rfl, rfl, rfl, rfl, rfl, Nat.add_le_add_left (two_le_cycles i) _, rfl⟩

theorem exec {i : Instr} {s t : State} (e : Machine.exec i s = .next t) :
    InstrFrame s (if i.mnemonicIsIll then 1 else 0) t := by
  cases hi : i.mnemonicIsIll with
  | false => exact (keptByAccess s 0).exec_of_not_ill (fun _ _ h => { h with }) hi e (.issue hi s)
  | true =>
    cases i
    case ill op => cases e; exact ⟨rfl, rfl, rfl, rfl, rfl, rfl, rfl, Nat.le_refl _, rfl⟩
    all_goals cases hi

end InstrFrame

/-- Settles O38: the issued state is within the frame and every later change of an instruction keeps it; an illegal opcode
counts itself. -/
theorem systemFrame : Obligations.SystemFrame := by
  intro i s t e
  have f := InstrFrame.exec e
  exact ⟨f.cart, f.params, f.bits1, f.bits2, f.inFrame, f.frameResult, f.irqTime, f.clk, f.errorCount⟩

/-! ## Illegal opcodes -/

theorem decode_illegal {op : Byte} (b1 b2 : Byte) (h : op.toNat ∈ illegalOpcodes) : decode op b1 b2 = .ill op :=
  decodeOp_illegal op b1 (word b1 b2) h

/-- The illegal-opcode step (R208, R313), for any byte the instruction carries. -/
theorem exec_ill (op : Byte) (s : State) :
    exec (.ill op) s = .next { s with
      cpu := { s.cpu with pc := s.cpu.pc + 1 }, clk := s.clk + 2, errorCount := s.errorCount + 1
      endCycle := none, lastStop := some (.illegal op) } := rfl

/-- Settles O19: the 105 values decode to `ill`, whose step does not look at the value but to record it. -/
theorem illegalStep : Obligations.IllegalStep := by
  intro s op b1 b2 h
  rw [decode_illegal b1 b2 h, exec_ill]

/-! ## The state after reset -/

theorem Memory.read_nil (k : Nat) : Memory.read [] k = Memory.blank k := rfl

theorem Memory.blank_ram {k : Nat} (h : k < 0x800) : Memory.blank k = 0xFF#8 := if_pos h

theorem Memory.blank_rest {k : Nat} (h : 0x800 ≤ k) : Memory.blank k = 0x00#8 := if_neg (Nat.not_lt.2 h)

/-- Settles O39: by the literal of `State.reset`, its pages those of the no-op mapper and its memory with nothing listed. -/
theorem resetState : Obligations.ResetState := by
  have wf : Memory.wf State.reset.mem := ⟨List.Pairwise.nil, fun _ h => nomatch h⟩
  have legal : State.reset.params.legal := by unfold Params.legal; decide
  have ram : ∀ k, k < 2048 → Memory.read State.reset.mem k = 0xFF#8 := fun k hk =>
    (Memory.read_nil k).trans (Memory.blank_ram hk)
  exact ⟨rfl, rfl, rfl, rfl, rfl, rfl, rfl, rfl, rfl, rfl, rfl, rfl, rfl, rfl, wf, List.Pairwise.nil, reset_installed,
    by decide, by decide, by decide, legal, rfl, fun _ => rfl, ram⟩

/-! ## Reset by the host -/

theorem mapperReset_installed (s : State) : PagesInstalled (mapperReset s) := pageTableOf_installed _ _ rfl

/-- The machine after a reset, field by field (R342 to R349): what the mapper's power-up registers map, and through them the
vector, is read off the state itself. -/
theorem hostReset_eq (full erase : Bool) (s : State) :
    hostReset full erase s = { s with
      mem := memAfterReset full erase s.cart.battery s.params s.mem
      mapperRam := s.mapperRam.afterReset (erase && s.cart.battery && Config.mapperRamPersistent s.cart.mapperId)
      ppu := { s.ppu.afterReset full (s.freeReads + 1) s.cart with
        chrPage := (hostReset full erase s).ppu.chrPage, ntMap := (hostReset full erase s).ppu.ntMap }
      mapper := { regs := (hostReset full erase s).mapper.regs, clk := 0 }
      pageTable := pageTableOf (mappingOf (hostReset full erase s).mapper.regs s.cart)
      cpu := { s.cpu.afterReset full with pc := vectorAt (hostReset full erase s) 0xFFFC#16 }
      clk := 0, endCycle := none, lastStop := none, errorCount := 0, nmiTime := none, irqTime := none
      pads := { bits1 := 0, bits2 := 0, pos1 := 0, pos2 := 0, strobe := false }
      inFrame := false
      freeReads := s.freeReads + 1 } := by
  have vector := fun u => readWord_vector (mapperReset_installed u) (vector := 0xFFFC#16) (by decide) (by decide)
  unfold hostReset
  simp only [Config.vecReset, vector]
  rfl

theorem memAfterReset_program (full erase battery : Bool) (p : Params) (m : Memory) {k : Nat} (hk : 0x8000 ≤ k) :
    Memory.read (memAfterReset full erase battery p m) k = Memory.read m k := by
  rw [memAfterReset_rest _ _ _ _ _ (by omega)]
  simp [prgKey, show ¬ k < 0x8000 by omega]

theorem memAfterReset_cartRam (full erase battery : Bool) (p : Params) (m : Memory) {k : Nat} (hk : 0x6000 ≤ k)
    (hk' : k < 0x8000) :
    Memory.read (memAfterReset full erase battery p m) k =
      if erase = true ∧ battery = true then 0x00#8 else Memory.read m k := by
  rw [memAfterReset_rest _ _ _ _ _ (by omega), Memory.blank_rest (by omega)]
  simp [cartRamKey, prgKey, hk, hk']

theorem MapperRam.byte_afterReset (erased : Bool) (m : MapperRam) (k : Nat) :
    (m.afterReset erased).byte k = if erased = true then 0x00#8 else m.byte k := by
  cases erased <;> rfl

theorem Ppu.afterReset_chr (p : Ppu) (full : Bool) (index : Nat) {c : Cartridge} (h : c.chrBytes ≠ 0) :
    (p.afterReset full index c).chr = p.chr := by
  simp [Ppu.afterReset, h]

theorem Cpu.afterReset_i (c : Cpu) (full : Bool) : (c.afterReset full).p.i = true := by
  cases full <;> rfl

/-- Settles O60: field by field from the equation for the reset, memory by the lemmas on what a reset makes of it. -/
theorem hostReset_clears_and_keeps : Obligations.HostReset := by
  intro s full erase t ht
  have e := hostReset_eq full erase s
  rw [ht] at e
  refine ⟨congrArg (fun u => u.cpu.pc) e, ?_⟩
  rw [e]
  refine ⟨s.cpu.afterReset_i full, rfl, rfl, rfl, rfl, rfl, rfl, rfl, rfl, rfl, rfl, rfl, rfl, rfl, rfl, rfl, rfl, rfl, rfl,
    rfl, rfl, rfl, rfl, rfl, rfl, rfl, rfl, rfl, rfl, pageTableOf_installed _ _ rfl, rfl, rfl,
    ?program, ?characterRom, ?cartridgeRam, ?mapperRam, ?full, ?soft⟩
  case program => exact fun k hk => memAfterReset_program _ _ _ _ _ hk
  case characterRom => exact fun h => s.ppu.afterReset_chr full (s.freeReads + 1) h
  case cartridgeRam => exact fun k hk hk' => memAfterReset_cartRam _ _ _ _ _ hk hk'
  case mapperRam =>
    intro k
    rw [MapperRam.byte_afterReset]
    simp only [Bool.and_eq_true, and_assoc]
  case full =>
    rintro rfl
    exact ⟨rfl, rfl, rfl, rfl, rfl, fun k hk => memAfterReset_ram true _ _ _ _ hk⟩
  case soft =>
    rintro rfl
    exact ⟨rfl, rfl, rfl, rfl, rfl, fun k hk => memAfterReset_ram false _ _ s.params _ hk, rfl, rfl, rfl, rfl, rfl, rfl⟩

end Sys2Proof.Machine
end

section
/-! SUPPORT. The family `10_state.md`: the invariants every step keeps, what a data read and a data write leave alone, the results
of the instructions that compute on an operand, and which registers and flags each instruction may change. -/

namespace Sys2Proof.Machine

/-! ## What every step keeps -/

/-- A property of CPU-side memory, a mapper variant's own RAM and the page table is kept by every step if it is kept by what a
write can do: no other change of a step touches the three. -/
theorem KeptByStep.of_write {P : State → Prop} (write : ∀ {s t : State}, WriteFrame s t → P s → P t)
    (same : ∀ {s t : State}, t.mem = s.mem → t.mapperRam = s.mapperRam → t.pageTable = s.pageTable → P s → P t) :
    KeptByStep P where
  cpu := fun _ _ => same rfl rfl rfl
  clk := fun _ _ => same rfl rfl rfl
  read := fun a s => write (memRead_frame a s).toWrite
  write := fun a v s => write (memWrite_frame a v s)
  stop := fun _ _ => same rfl rfl rfl
  error := fun _ => same rfl rfl rfl
  catchUp := fun T s => write (catchUp_frame T s).toWrite
  vblEvent := fun s => write (vblEvent_frame s).toWrite
  beginFrame := fun _ => same rfl rfl rfl
  endFrame := fun s => by rw [endFrame_eq]; exact same rfl rfl rfl
  clearNmi := fun _ => same rfl rfl rfl
  refreshIrq := fun s => by rw [refreshIrq_eq]; exact same rfl rfl rfl
  openRun := fun _ => same rfl rfl rfl

theorem Memory.wf_keptByStep : KeptByStep (fun s => Memory.wf s.mem) :=
  .of_write (fun f h => f.wf h) (fun mem _ _ h => mem ▸ h)

theorem MapperRam.sorted_keptByStep : KeptByStep (fun s => Assoc.sorted s.mapperRam.cells) :=
  .of_write (fun f h => f.sorted h) (fun _ ram _ h => ram ▸ h)

theorem PagesInstalled.keptByStep : KeptByStep PagesInstalled :=
  .of_write (fun f h => h.write f) (fun _ _ pages h => h.congr pages)

/-- Settles O40: a write, the one change of a step that reaches either memory, keeps both forms. -/
theorem memoryStaysCanonical : Obligations.MemoryStaysCanonical := fun _ _ e =>
  ⟨step_induction Memory.wf_keptByStep e, step_induction MapperRam.sorted_keptByStep e⟩

/-- Settles O41: a write leaves the page table or issues it again by `pageTableOf`, which installs every page. -/
theorem pagesStayInstalled : Obligations.PagesStayInstalled := fun _ _ h e =>
  step_induction PagesInstalled.keptByStep e h

/-- The dots carried into the next frame are fewer than one CPU cycle has (R264). -/
theorem Ppu.endFrame_phase_lt {p : Ppu} (h : p.phase < 3) : p.endFrame.phase < 3 := by
  have dots : 89341 ≤ p.frameDots := by
    simp only [Ppu.frameDots, Config.frameDots, Config.shortFrameDots]
    split <;> omega
  simp only [Ppu.endFrame, Ppu.frameLen, Config.ppuRatio]
  omega

/-- The small counters in their ranges (R43, R264, R318). -/
structure CountersInRange (s : State) : Prop where
  phase : s.ppu.phase < 3
  pos1 : s.pads.pos1 ≤ 8
  pos2 : s.pads.pos2 ≤ 8

namespace CountersInRange

theorem write {s t : State} (h : CountersInRange s) (f : WriteFrame s t) : CountersInRange t :=
  ⟨f.phase ▸ h.phase, f.pos1 h.pos1, f.pos2 h.pos2⟩

theorem endFrame {s : State} (h : CountersInRange s) : CountersInRange (Machine.endFrame s) := by
  have phase : s.ppu.finishFrame.phase < 3 := by rw [s.ppu.finishFrame_frame.phase]; exact h.phase
  rw [endFrame_eq]
  exact ⟨Ppu.endFrame_phase_lt phase, h.pos1, h.pos2⟩

theorem keptByStep : KeptByStep CountersInRange where
  cpu := fun _ _ h => { h with }
  clk := fun _ _ h => { h with }
  read := fun a s h => h.write (memRead_frame a s).toWrite
  write := fun a v s h => h.write (memWrite_frame a v s)
  stop := fun _ _ h => { h with }
  error := fun _ h => { h with }
  catchUp := fun T s h => h.write (catchUp_frame T s).toWrite
  vblEvent := fun s h => h.write (vblEvent_frame s).toWrite
  beginFrame := fun _ h => { h with }
  endFrame := fun _ h => h.endFrame
  clearNmi := fun _ h => { h with }
  refreshIrq := fun s h => by rw [refreshIrq_eq]; exact { h with }
  openRun := fun _ h => { h with }

end CountersInRange

/-- Settles O43: only the end of a frame moves the remainder, which it carries on below 3, and an access keeps the positions. -/
theorem countersStayInRange : Obligations.CountersStayInRange := by
  intro s t phase pos1 pos2 e
  have h : CountersInRange t := step_induction CountersInRange.keptByStep e ⟨phase, pos1, pos2⟩
  exact ⟨h.phase, h.pos1, h.pos2⟩

/-! ## What an access leaves alone -/

/-- A `run` in progress after the change was in progress before it, with no earlier stop time. -/
theorem EndLowered.before {a b : Option Nat} (h : EndLowered a b) {e' : Nat} (hb : b = some e') :
    ∃ e, a = some e ∧ e' ≤ e := by
  subst hb
  cases a with
  | none => exact h.elim
  | some e => exact ⟨e, rfl, h⟩

/-- A `run` in progress goes on, with no later stop time. -/
theorem EndLowered.after {a b : Option Nat} (h : EndLowered a b) {e : Nat} (ha : a = some e) :
    ∃ e', b = some e' ∧ e' ≤ e := by
  subst ha
  cases b with
  | none => exact h.elim
  | some e' => exact ⟨e', rfl, h⟩

/-- Outside the PPU and I/O pages a read takes at most a free byte (R62, R67). -/
theorem memRead_off_devices {a : Word} {s : State} (ppu : s.pageAt a ≠ .ppuRegs) (io : s.pageAt a ≠ .io) :
    (memRead a s).2 = { s with freeReads := (memRead a s).2.freeReads } := by
  unfold memRead
  cases page : s.pageAt a with
  | ppuRegs => exact absurd page ppu
  | io => exact absurd page io
  | _ => rfl

/-- Settles O12: by the frame of a read and, off the device pages, by what the read is. -/
theorem readFrame : Obligations.ReadFrame := by
  rintro a s _ rfl
  have f := memRead_frame a s
  exact ⟨f.cpu, f.clk, f.mem, f.mapperRam, f.pageTable, f.cart, f.mapper, f.errorCount, f.lastStop, f.apu, f.params,
    fun _ => f.endCycle.before, fun _ => f.endCycle.after, memRead_off_devices⟩

/-- Settles O13: by the frame of a write and the lemmas on its time and on the one byte it stores. -/
theorem writeFrame : Obligations.WriteFrame := by
  rintro a v s _ rfl
  have f := memWrite_frame a v s
  exact ⟨f.cpu, f.errorCount, f.lastStop, f.cart, memWrite_clk a v s, memWrite_read_ne a v s, memWrite_byte_ne a v s,
    f.rom, f.params, fun _ => f.endCycle.before, fun _ => f.endCycle.after⟩

/-! ## The status byte and the mapping -/

/-- `PackP` as a number: each flag at its bit (R35). -/
theorem packP_toNat (p : Status) (b : Bool) :
    (packP p b).toNat =
      p.n.toNat * 0x80 + p.v.toNat * 0x40 + 0x20 + b.toNat * 0x10 + p.d.toNat * 0x08 + p.i.toNat * 0x04 +
        p.z.toNat * 0x02 + p.c.toNat := by
  obtain ⟨n, v, d, i, z, c⟩ := p
  revert n v d i z c b; decide

/-- `UnpackP` ignores bits 5 and 4 (R34, R35). -/
theorem unpackP_mask (v : Byte) : unpackP v = unpackP (v &&& 0xCF#8) := by
  simp [unpackP]

/-- Settles O16: by the packed byte as a number, and bit by bit. -/
theorem statusByte : Obligations.StatusByte := fun p b v =>
  ⟨packP_toNat p b, unpackP_packP p b, unpackP_mask v, rfl⟩

/-- Settles O59: the mapping is read off the register block and the cartridge, which it does not change. -/
theorem mappingIsDerived : Obligations.MappingIsDerived := fun _ _ => ⟨rfl, fun _ _ _ _ => rfl⟩

/-! ## Instructions of the read class -/

/-- What a read-class instruction does, with the pages installed: its own work on the spec's operand, in the state after the
operand's read (R106, R118). -/
theorem exec_source {s : State} (h : PagesInstalled s) {i : Instr} {o : Source} {f : Byte → State → State}
    (e : exec i s = .next (withSource o f (issue i s))) (wf : i.wellFormed = true) (bytes : i.bytes = o.bytes)
    (cycles : i.cycles = o.readCycles) : exec i s = .next (f (operand o s).1 (operand o s).2) := by
  obtain ⟨len, cost⟩ := lengthAndCost i wf
  simp only [e, withSource, readSource_issue h i o (len.trans bytes) (cost.trans cycles)]

theorem setNZ_eq (v : Byte) (s : State) : setNZ v s = s.withFlags (s.cpu.p.nz v) :=
  congrArg s.withFlags (withNZ_eq s.cpu.p v)

/-- A becomes `v`, and Z and N are set from it. -/
theorem setNZ_setA (v : Byte) (s : State) :
    setNZ v (s.setA v) = { s with cpu := { s.cpu with a := v, p := s.cpu.p.nz v } } := setNZ_eq v (s.setA v)

theorem setNZ_setX (v : Byte) (s : State) :
    setNZ v (s.setX v) = { s with cpu := { s.cpu with x := v, p := s.cpu.p.nz v } } := setNZ_eq v (s.setX v)

theorem setNZ_setY (v : Byte) (s : State) :
    setNZ v (s.setY v) = { s with cpu := { s.cpu with y := v, p := s.cpu.p.nz v } } := setNZ_eq v (s.setY v)

theorem operand_p (o : Source) (s : State) : (operand o s).2.cpu.p = s.cpu.p := by rw [operand_cpu]

theorem operand_a (o : Source) (s : State) : (operand o s).2.cpu.a = s.cpu.a := by rw [operand_cpu]

/-- Settles O20: the register takes the operand, and `SetNZ` works on the flags, which the read leaves as they were. -/
theorem loadResult : Obligations.LoadResult := by
  intro s h
  refine ⟨fun m => ?lda, fun m => ?ldx, fun m => ?ldy⟩
  case lda => rw [exec_source h (i := .lda m) rfl rfl rfl rfl, setNZ_setA, operand_p]
  case ldx => rw [exec_source h (i := .ldx m) rfl rfl rfl rfl, setNZ_setX, operand_p]
  case ldy => rw [exec_source h (i := .ldy m) rfl rfl rfl rfl, setNZ_setY, operand_p]

/-! ## Addition and subtraction (R160, R161) -/

/-- Bit 7 is the sign (R8). -/
theorem getLsbD_seven (v : Byte) : v.getLsbD 7 = decide (128 ≤ v.toNat) := by
  revert v; decide

theorem and_sign_ne_zero (v : Byte) : decide (v &&& 0x80#8 ≠ 0#8) = v.getLsbD 7 := by
  revert v; decide

/-- The rule's bit formula says that the signed sum leaves -128 to 127 (R160). -/
theorem addOverflow_eq (a m : Byte) (c : Bool) :
    addOverflow a m c =
      decide (sext8 a + sext8 m + c.toNat < -128 ∨ 127 < sext8 a + sext8 m + c.toNat) := by
  have ha := a.isLt
  have hm := m.isLt
  have hc := c.toNat_le
  rw [Bool.eq_iff_iff, decide_eq_true_iff]
  simp only [addOverflow, BitVec.getLsbD_and, BitVec.getLsbD_xor]
  simp only [sumWithCarry, getLsbD_seven, BitVec.toNat_ofNat, sext8, Bool.and_eq_true, bne_iff_ne, ne_eq, decide_eq_decide]
  split <;> split <;> omega

/-- The effect of ADC, in numbers (R160). -/
theorem addToA_eq (m : Byte) (s : State) :
    addToA m s =
      let sum := s.cpu.a.toNat + m.toNat + s.cpu.p.c.toNat
      let signed := sext8 s.cpu.a + sext8 m + s.cpu.p.c.toNat
      let a' := BitVec.ofNat 8 (sum % 256)
      { s with cpu := { s.cpu with
        a := a'
        p := Status.nz { s.cpu.p with c := decide (255 < sum), v := decide (signed < -128 ∨ 127 < signed) } a' } } := by
  have wrap : ∀ n : Nat, BitVec.ofNat 8 n = BitVec.ofNat 8 (n % 256) := fun n => by
    simp [← BitVec.toNat_inj]
  simp only [addToA, addOverflow_eq, setNZ_eq, sumWithCarry, ← wrap]
  rfl

theorem toNat_complement (m : Byte) : (m ^^^ 0xFF#8).toNat = 255 - m.toNat := by
  revert m; decide

theorem sext8_complement (m : Byte) : sext8 (m ^^^ 0xFF#8) = -1 - sext8 m := by
  revert m; decide

/-- The effect of SBC, in numbers: the complement turns the sum into the difference plus 256 (R161). -/
theorem subtractFromA_eq (m : Byte) (s : State) :
    subtractFromA m s =
      let borrow : Int := 1 - s.cpu.p.c.toNat
      let diff : Int := s.cpu.a.toNat - m.toNat - borrow
      let signed := sext8 s.cpu.a - sext8 m - borrow
      let a' := BitVec.ofInt 8 diff
      { s with cpu := { s.cpu with
        a := a'
        p := Status.nz { s.cpu.p with c := decide (0 ≤ diff), v := decide (signed < -128 ∨ 127 < signed) } a' } } := by
  have hm := m.isLt
  have signed : sext8 s.cpu.a + (-1 - sext8 m) + s.cpu.p.c.toNat =
      sext8 s.cpu.a - sext8 m - (1 - s.cpu.p.c.toNat : Int) := by omega
  have result : BitVec.ofNat 8 ((s.cpu.a.toNat + (255 - m.toNat) + s.cpu.p.c.toNat) % 256) =
      BitVec.ofInt 8 (s.cpu.a.toNat - m.toNat - (1 - s.cpu.p.c.toNat) : Int) := by
    apply BitVec.eq_of_toNat_eq
    rw [BitVec.toNat_ofNat, BitVec.toNat_ofInt]
    omega
  have carry : (255 < s.cpu.a.toNat + (255 - m.toNat) + s.cpu.p.c.toNat) =
      (0 ≤ (s.cpu.a.toNat - m.toNat - (1 - s.cpu.p.c.toNat) : Int)) := by
    apply propext
    omega
  simp only [subtractFromA, addToA_eq, toNat_complement, sext8_complement, signed, result, carry]

/-- Settles O22: ADC and SBC do on the operand what their effects in numbers say; the read leaves A and the flags alone. -/
theorem addSubtractResult : Obligations.AddSubtractResult := by
  refine ⟨fun a m c => ?_, fun s m h => ?_, fun s m h => ?_⟩
  · rw [and_sign_ne_zero]
    exact addOverflow_eq a m c
  · rw [exec_source h (i := .adc m) rfl rfl rfl rfl, addToA_eq, operand_p, operand_a]
  · rw [exec_source h (i := .sbc m) rfl rfl rfl rfl, subtractFromA_eq, operand_p, operand_a]

/-! ## Logic and BIT (R175 to R178) -/

theorem getLsbD_six (v : Byte) : v.getLsbD 6 = decide (64 ≤ v.toNat % 128) := by
  revert v; decide

theorem bitTest_eq (m : Byte) (s : State) :
    bitTest m s = s.withFlags { s.cpu.p with
      z := decide (s.cpu.a &&& m = 0#8), n := decide (128 ≤ m.toNat), v := decide (64 ≤ m.toNat % 128) } := by
  have z : (s.cpu.a &&& m == 0#8) = decide (s.cpu.a &&& m = 0#8) := by rw [Bool.eq_iff_iff]; simp
  simp only [bitTest, z, getLsbD_seven, getLsbD_six]
  rfl

/-- Settles O25: A combined with the operand goes into A and `SetNZ`; BIT tests the operand against A. -/
theorem logicAndBitResult : Obligations.LogicAndBitResult := by
  refine ⟨fun s m h => ⟨?and, ?ora, ?eor⟩, fun s m h => ?bit⟩
  case and => rw [exec_source h (i := .and m) rfl rfl rfl rfl, setNZ_setA, operand_p, operand_a]
  case ora => rw [exec_source h (i := .ora m) rfl rfl rfl rfl, setNZ_setA, operand_p, operand_a]
  case eor => rw [exec_source h (i := .eor m) rfl rfl rfl rfl, setNZ_setA, operand_p, operand_a]
  case bit => rw [exec_source h (i := .bit m) rfl rfl rfl rfl, bitTest_eq, operand_p, operand_a]

/-! ## Instructions of the read-modify-write class -/

/-- What a read-modify-write of memory does, with the pages installed: one read and one write at the spec's address, then the
flags (R82, R165, R168, R179 to R182). -/
theorem modifyMemory_source {s : State} (h : PagesInstalled s) {i : Instr} {m : Addressing} (f : Modifier)
    (wf : i.wellFormed = true) (bytes : i.bytes = m.bytes) (cycles : i.cycles = m.modifyCycles) :
    modifyMemory m f (issue i s) =
      (let r := modifyOperand m s
       let w := f r.1 s.cpu.p.c
       (memWrite (effective m s) w.1 r.2).withFlags (Status.nz { s.cpu.p with c := w.2 } w.1)) := by
  obtain ⟨len, cost⟩ := lengthAndCost i wf
  exact modifyMemory_issue h i m f (len.trans bytes) (cost.trans cycles)

/-- Settles O24: INC and DEC give the carry back as it was. -/
theorem incDecMemory : Obligations.IncDecMemory := fun _ _ h =>
  ⟨congrArg Host.Outcome.next (modifyMemory_source h increment rfl rfl rfl),
    congrArg Host.Outcome.next (modifyMemory_source h decrement rfl rfl rfl)⟩

/-! ## Shifts and rotates in numbers (R179 to R182) -/

theorem shiftLeft_eq (v : Byte) (c : Bool) :
    shiftLeft v c = (BitVec.ofNat 8 (v.toNat * 2 % 256), decide (128 ≤ v.toNat)) := by
  revert v c; decide

theorem shiftRight_eq (v : Byte) (c : Bool) :
    shiftRight v c = (BitVec.ofNat 8 (v.toNat / 2), decide (v.toNat % 2 = 1)) := by
  revert v c; decide

theorem rotateLeft_eq (v : Byte) (c : Bool) :
    rotateLeft v c = (BitVec.ofNat 8 (v.toNat * 2 % 256 + c.toNat), decide (128 ≤ v.toNat)) := by
  revert v c; decide

theorem rotateRight_eq (v : Byte) (c : Bool) :
    rotateRight v c = (BitVec.ofNat 8 (v.toNat / 2 + c.toNat * 128), decide (v.toNat % 2 = 1)) := by
  revert v c; decide

/-- The result of a shift of the accumulator, in numbers: `g` gives the new byte and the new carry (R105). -/
def shiftedA (g : Nat → Nat × Bool) (s : State) : State :=
  let r := g s.cpu.a.toNat
  let b := BitVec.ofNat 8 r.1
  { s with
    cpu := { s.cpu with pc := s.cpu.pc + 1, a := b, p := Status.nz { s.cpu.p with c := r.2 } b }
    clk := s.clk + 2 }

/-- The result of a shift of memory, in numbers. -/
def shiftedMemory (g : Nat → Nat × Bool) (x : Addressing) (s : State) : State :=
  let o := modifyOperand x s
  let r := g o.1.toNat
  let b := BitVec.ofNat 8 r.1
  (memWrite (effective x s) b o.2).withFlags (Status.nz { s.cpu.p with c := r.2 } b)

/-- What a shift or rotate does, with the pages installed, given its modifier in numbers. -/
theorem modifyShift_issue {s : State} (h : PagesInstalled s) {i : Instr} {m : ShiftMode} {f : Modifier}
    {g : Nat → Nat × Bool} (fg : ∀ v, f v s.cpu.p.c = (BitVec.ofNat 8 (g v.toNat).1, (g v.toNat).2))
    (wf : i.wellFormed = true) (bytes : i.bytes = (m.addressing.map Addressing.bytes).getD 1)
    (cycles : i.cycles = (m.addressing.map Addressing.modifyCycles).getD 2) :
    modifyShift m f (issue i s) = m.addressing.elim (shiftedA g s) (fun x => shiftedMemory g x s) := by
  unfold modifyShift
  cases hm : m.addressing with
  | none =>
    rw [hm] at bytes cycles
    rw [issue_advanced wf, bytes, cycles]
    show setNZ (f s.cpu.a s.cpu.p.c).1 (((advanced s 1 2).setP { s.cpu.p with c := (f s.cpu.a s.cpu.p.c).2 }).setA
      (f s.cpu.a s.cpu.p.c).1) = _
    rw [setNZ_setA, fg]
    rfl
  | some x =>
    rw [hm] at bytes cycles
    simp only [modifyMemory_source h f wf bytes cycles, fg, Option.elim, shiftedMemory]

/-- Settles O26: each of the four by its modifier in numbers. -/
theorem shiftResult : Obligations.ShiftResult := by
  intro s m h outcome c
  have done : ∀ g, Host.Outcome.next (m.addressing.elim (shiftedA g s) (fun x => shiftedMemory g x s)) = outcome g := by
    intro g
    cases m <;> rfl
  clear_value outcome
  refine ⟨?asl, ?lsr, ?rol, ?ror⟩ <;> rw [← done]
  case asl => exact congrArg Host.Outcome.next (modifyShift_issue h (fun v => shiftLeft_eq v _) rfl rfl rfl)
  case lsr => exact congrArg Host.Outcome.next (modifyShift_issue h (fun v => shiftRight_eq v _) rfl rfl rfl)
  case rol => exact congrArg Host.Outcome.next (modifyShift_issue h (fun v => rotateLeft_eq v _) rfl rfl rfl)
  case ror => exact congrArg Host.Outcome.next (modifyShift_issue h (fun v => rotateRight_eq v _) rfl rfl rfl)

/-! ## Which registers and flags an instruction may change (R21 to R32) -/

/-- From flags `p` to flags `q` only those have changed that instruction `ins` is listed to write (R28 to R32). -/
structure FlagsKept (ins : Instr) (p q : Status) : Prop where
  c : ins.writesC = false → q.c = p.c
  nz : ins.writesNZ = false → q.z = p.z ∧ q.n = p.n
  i : ins.writesI = false → q.i = p.i
  d : ins.writesD = false → q.d = p.d
  v : ins.writesV = false → q.v = p.v

namespace FlagsKept

variable {ins : Instr} {p q : Status} (h : FlagsKept ins p q)
include h

theorem setC (w : ins.writesC = true) (b : Bool) : FlagsKept ins p { q with c := b } :=
  { h with c := fun e => nomatch w.symm.trans e }

theorem setZN (w : ins.writesNZ = true) (z n : Bool) : FlagsKept ins p { q with z := z, n := n } :=
  { h with nz := fun e => nomatch w.symm.trans e }

theorem setI (w : ins.writesI = true) (b : Bool) : FlagsKept ins p { q with i := b } :=
  { h with i := fun e => nomatch w.symm.trans e }

theorem setD (w : ins.writesD = true) (b : Bool) : FlagsKept ins p { q with d := b } :=
  { h with d := fun e => nomatch w.symm.trans e }

theorem setV (w : ins.writesV = true) (b : Bool) : FlagsKept ins p { q with v := b } :=
  { h with v := fun e => nomatch w.symm.trans e }

end FlagsKept

/-- From register file `c` to the one of state `t` only those registers and flags have changed that instruction `i` is listed to
write (R21 to R24, R28 to R32); PC is free. -/
structure RegistersKept (i : Instr) (c : Cpu) (t : State) : Prop where
  a : i.writesA = false → t.cpu.a = c.a
  x : i.writesX = false → t.cpu.x = c.x
  y : i.writesY = false → t.cpu.y = c.y
  sp : i.writesSp = false → t.cpu.sp = c.sp
  flags : FlagsKept i c.p t.cpu.p

namespace RegistersKept

theorem refl (i : Instr) (s : State) : RegistersKept i s.cpu s :=
  ⟨fun _ => rfl, fun _ => rfl, fun _ => rfl, fun _ => rfl, fun _ => rfl, fun _ => ⟨rfl, rfl⟩, fun _ => rfl, fun _ => rfl,
    fun _ => rfl⟩

theorem issue (i : Instr) (s : State) : RegistersKept i s.cpu (Machine.issue i s) := { refl i s with }

variable {i : Instr} {c : Cpu} {t : State} (h : RegistersKept i c t)
include h

/-- An access, or any other change that leaves the register file alone. -/
theorem access {u : State} (e : u.cpu = t.cpu) : RegistersKept i c u := by
  obtain ⟨a, x, y, sp, flags⟩ := h
  rw [← e] at a x y sp flags
  exact ⟨a, x, y, sp, flags⟩

theorem setPc (w : Word) : RegistersKept i c (t.setPc w) := { h with }

theorem setA (w : i.writesA = true) (v : Byte) : RegistersKept i c (t.setA v) :=
  { h with a := fun e => nomatch w.symm.trans e }

theorem setX (w : i.writesX = true) (v : Byte) : RegistersKept i c (t.setX v) :=
  { h with x := fun e => nomatch w.symm.trans e }

theorem setY (w : i.writesY = true) (v : Byte) : RegistersKept i c (t.setY v) :=
  { h with y := fun e => nomatch w.symm.trans e }

theorem setSp (w : i.writesSp = true) (v : Byte) : RegistersKept i c (t.setSp v) :=
  { h with sp := fun e => nomatch w.symm.trans e }

theorem setP {p : Status} (f : FlagsKept i c.p p) : RegistersKept i c (t.setP p) := { h with flags := f }

theorem setNZ (w : i.writesNZ = true) (v : Byte) : RegistersKept i c (setNZ v t) := h.setP (h.flags.setZN w _ _)

theorem setC (w : i.writesC = true) (b : Bool) : RegistersKept i c (setC b t) := h.setP (h.flags.setC w b)

theorem push (w : i.writesSp = true) (v : Byte) : RegistersKept i c (push v t) :=
  (h.access (memWrite_cpu _ _ _)).setSp w _

theorem pushWord (w : i.writesSp = true) (v : Word) : RegistersKept i c (pushWord v t) := (h.push w _).push w _

theorem pull (w : i.writesSp = true) : RegistersKept i c (pull t).2 := (h.setSp w _).access (memRead_cpu _ _)

theorem pullWord (w : i.writesSp = true) : RegistersKept i c (pullWord t).2 := (h.pull w).pull w

theorem withSource (o : Source) {f : Byte → State → State}
    (hf : ∀ v {u : State}, RegistersKept i c u → RegistersKept i c (f v u)) : RegistersKept i c (withSource o f t) :=
  hf _ (h.access (readSource_cpu o t))

theorem addToA (wA : i.writesA = true) (wC : i.writesC = true) (wV : i.writesV = true) (wNZ : i.writesNZ = true) (m : Byte) :
    RegistersKept i c (addToA m t) := by
  have flags := (h.flags.setC wC (decide (0xFF < sumWithCarry t.cpu.a m t.cpu.p.c))).setV wV
    (addOverflow t.cpu.a m t.cpu.p.c)
  exact ((h.setA wA _).setP flags).setNZ wNZ _

theorem compareWith (wC : i.writesC = true) (wNZ : i.writesNZ = true) (r m : Byte) :
    RegistersKept i c (compareWith r m t) := (h.setC wC _).setNZ wNZ _

/-- A read-modify-write of memory sets Z and N, and C unless its modifier gives the carry back. -/
theorem modifyMemory (m : Addressing) {f : Modifier} (wC : i.writesC = false → ∀ v b, (f v b).2 = b)
    (wNZ : i.writesNZ = true) : RegistersKept i c (modifyMemory m f t) := by
  have flags : FlagsKept i c.p (Machine.modifyMemory m f t).cpu.p := by
    rw [modifyMemory_cpu]
    exact { h.flags.setZN wNZ _ _ with c := fun e => (wC e _ _).trans (h.flags.c e) }
  exact (h.setP flags).access (modifyMemory_cpu m f t ▸ rfl)

theorem modifyShift {m : ShiftMode} (f : Modifier) (wA : i.writesA = m.addressing.isNone) (wC : i.writesC = true)
    (wNZ : i.writesNZ = true) : RegistersKept i c (modifyShift m f t) := by
  unfold Machine.modifyShift
  cases hm : m.addressing with
  | none => exact ((h.setC wC _).setA (wA.trans (by rw [hm]; rfl)) _).setNZ wNZ _
  | some x => exact h.modifyMemory x (fun e => nomatch wC.symm.trans e) wNZ

theorem branchIf (b : Bool) (rel8 : Byte) : RegistersKept i c (branchIf b rel8 t) := by
  unfold Machine.branchIf
  split
  · exact { h with }
  · exact h

theorem stopIfICleared (b : Bool) : RegistersKept i c (stopIfICleared b t) := h.access (stopIfICleared_cpu b t)

theorem takeInterrupt (wSp : i.writesSp = true) (wI : i.writesI = true) (ret : Word) (b : Bool) (vector : Word) :
    RegistersKept i c (takeInterrupt ret b vector t) :=
  have pushed := (h.pushWord wSp ret).push wSp (packP _ b)
  ((pushed.setP (pushed.flags.setI wI true)).access (readWord_cpu _ _)).setPc _

end RegistersKept

/-- Every register and flag an instruction writes is one it is listed for: each licence is that instruction's own row. -/
theorem RegistersKept.exec (i : Instr) (s : State) : ∃ t, Machine.exec i s = .next t ∧ RegistersKept i s.cpu t := by
  have h := RegistersKept.issue i s
  cases i with
  | lda m => exact ⟨_, rfl, h.withSource _ fun _ _ k => (k.setA rfl _).setNZ rfl _⟩
  | ldx m => exact ⟨_, rfl, h.withSource _ fun _ _ k => (k.setX rfl _).setNZ rfl _⟩
  | ldy m => exact ⟨_, rfl, h.withSource _ fun _ _ k => (k.setY rfl _).setNZ rfl _⟩
  | sta m => exact ⟨_, rfl, h.access (storeAt_cpu _ _ _)⟩
  | stx m => exact ⟨_, rfl, h.access (storeAt_cpu _ _ _)⟩
  | sty m => exact ⟨_, rfl, h.access (storeAt_cpu _ _ _)⟩
  | tax => exact ⟨_, rfl, (h.setX rfl _).setNZ rfl _⟩
  | tay => exact ⟨_, rfl, (h.setY rfl _).setNZ rfl _⟩
  | txa => exact ⟨_, rfl, (h.setA rfl _).setNZ rfl _⟩
  | tya => exact ⟨_, rfl, (h.setA rfl _).setNZ rfl _⟩
  | tsx => exact ⟨_, rfl, (h.setX rfl _).setNZ rfl _⟩
  | txs => exact ⟨_, rfl, h.setSp rfl _⟩
  | pha => exact ⟨_, rfl, h.push rfl _⟩
  | php => exact ⟨_, rfl, h.push rfl _⟩
  | pla => exact ⟨_, rfl, ((h.pull rfl).setA rfl _).setNZ rfl _⟩
  | plp => exact ⟨_, rfl, ((h.pull rfl).setP ⟨nofun, nofun, nofun, nofun, nofun⟩).stopIfICleared _⟩
  | adc m => exact ⟨_, rfl, h.withSource _ fun _ _ k => k.addToA rfl rfl rfl rfl _⟩
  | sbc m => exact ⟨_, rfl, h.withSource _ fun _ _ k => k.addToA rfl rfl rfl rfl _⟩
  | cmp m => exact ⟨_, rfl, h.withSource _ fun _ _ k => k.compareWith rfl rfl _ _⟩
  | cpx m => exact ⟨_, rfl, h.withSource _ fun _ _ k => k.compareWith rfl rfl _ _⟩
  | cpy m => exact ⟨_, rfl, h.withSource _ fun _ _ k => k.compareWith rfl rfl _ _⟩
  | inc m => exact ⟨_, rfl, h.modifyMemory _ (fun _ _ _ => rfl) rfl⟩
  | inx => exact ⟨_, rfl, (h.setX rfl _).setNZ rfl _⟩
  | iny => exact ⟨_, rfl, (h.setY rfl _).setNZ rfl _⟩
  | dec m => exact ⟨_, rfl, h.modifyMemory _ (fun _ _ _ => rfl) rfl⟩
  | dex => exact ⟨_, rfl, (h.setX rfl _).setNZ rfl _⟩
  | dey => exact ⟨_, rfl, (h.setY rfl _).setNZ rfl _⟩
  | and m => exact ⟨_, rfl, h.withSource _ fun _ _ k => (k.setA rfl _).setNZ rfl _⟩
  | ora m => exact ⟨_, rfl, h.withSource _ fun _ _ k => (k.setA rfl _).setNZ rfl _⟩
  | eor m => exact ⟨_, rfl, h.withSource _ fun _ _ k => (k.setA rfl _).setNZ rfl _⟩
  | bit m => exact ⟨_, rfl, h.withSource _ fun _ _ k => k.setP ((k.flags.setZN rfl _ _).setV rfl _)⟩
  | asl m => exact ⟨_, rfl, h.modifyShift _ rfl rfl rfl⟩
  | lsr m => exact ⟨_, rfl, h.modifyShift _ rfl rfl rfl⟩
  | rol m => exact ⟨_, rfl, h.modifyShift _ rfl rfl rfl⟩
  | ror m => exact ⟨_, rfl, h.modifyShift _ rfl rfl rfl⟩
  | jmp m =>
    cases m with
    | abs a => exact ⟨_, rfl, h.setPc _⟩
    | ind a => exact ⟨_, rfl, (h.access (readWordWrap_cpu _ _)).setPc _⟩
  | jsr a => exact ⟨_, rfl, (h.pushWord rfl _).setPc _⟩
  | rts => exact ⟨_, rfl, (h.pullWord rfl).setPc _⟩
  | rti =>
    exact ⟨_, rfl,
      ((((h.pull rfl).setP ⟨nofun, nofun, nofun, nofun, nofun⟩).pullWord rfl).setPc _).stopIfICleared _⟩
  | brk => exact ⟨_, rfl, h.takeInterrupt rfl rfl _ _ _⟩
  | bcc r => exact ⟨_, rfl, h.branchIf _ _⟩
  | bcs r => exact ⟨_, rfl, h.branchIf _ _⟩
  | beq r => exact ⟨_, rfl, h.branchIf _ _⟩
  | bne r => exact ⟨_, rfl, h.branchIf _ _⟩
  | bmi r => exact ⟨_, rfl, h.branchIf _ _⟩
  | bpl r => exact ⟨_, rfl, h.branchIf _ _⟩
  | bvc r => exact ⟨_, rfl, h.branchIf _ _⟩
  | bvs r => exact ⟨_, rfl, h.branchIf _ _⟩
  | clc => exact ⟨_, rfl, h.setP (h.flags.setC rfl _)⟩
  | sec => exact ⟨_, rfl, h.setP (h.flags.setC rfl _)⟩
  | cli => exact ⟨_, rfl, (h.setP (h.flags.setI rfl _)).stopIfICleared _⟩
  | sei => exact ⟨_, rfl, h.setP (h.flags.setI rfl _)⟩
  | clv => exact ⟨_, rfl, h.setP (h.flags.setV rfl _)⟩
  | cld => exact ⟨_, rfl, h.setP (h.flags.setD rfl _)⟩
  | sed => exact ⟨_, rfl, h.setP (h.flags.setD rfl _)⟩
  | nop => exact ⟨_, rfl, h⟩
  | ill op => exact ⟨_, rfl, { RegistersKept.refl (.ill op) s with }⟩

/-- Settles O36: the registers and flags an instruction changes are among those it is listed for. -/
theorem registerAndFlagFrame : Obligations.RegisterAndFlagFrame := by
  intro i s t e
  obtain ⟨u, hu, k⟩ := RegistersKept.exec i s
  cases hu.symm.trans e
  exact ⟨k.a, k.x, k.y, k.sp, k.flags.c, k.flags.nz, k.flags.i, k.flags.d, k.flags.v⟩

end Sys2Proof.Machine
end

section
/-! SUPPORT. The family `20_memory.md`: the pages of plain memory and what fetches, reads and writes meet there, the stack and
subroutines, which bytes an instruction stores to, the PPU's registers and memories, and sprite-memory DMA. -/

namespace Sys2Proof

/-- A page of plain memory, where a fetch and a data read meet the same bytes (R65). -/
def Page.isPlain : Page → Bool
  | .workRam | .cartRam _ | .mapperRam _ | .prgRom _ => true
  | .ppuRegs | .io | .unmapped | .mapperRegs => false

end Sys2Proof

namespace Sys2Proof.Machine

/-! ## Every step answers -/

/-- Every instruction answers a next state: there is nothing it has to keep for that. -/
theorem exec_answers (i : Instr) (s : State) : ∃ t, exec i s = .next t := by
  have nothing : Kept (fun _ => True) :=
    { cpu := fun _ _ _ => trivial, clk := fun _ _ _ => trivial, read := fun _ _ _ => trivial
      write := fun _ _ _ _ => trivial, stop := fun _ _ _ => trivial, error := fun _ _ => trivial }
  obtain ⟨t, e, -⟩ := nothing.exec i (s := s) trivial
  exact ⟨t, e⟩

/-- Settles O8: a boundary deals with an event, which is the step, or hands over to an instruction, which answers. -/
theorem stepAlwaysAnswers : Obligations.StepAlwaysAnswers := by
  intro s
  unfold step
  cases boundary s with
  | handled t => exact ⟨t, rfl⟩
  | run t => exact exec_answers t.instrAt t

/-! ## Plain memory: fetches and reads -/

/-- In plain memory a read gives the byte a fetch gives and changes nothing (R65). -/
theorem memRead_plain {s : State} {a : Word} (h : (s.pageAt a).isPlain = true) : memRead a s = (s.fetch a, s) := by
  unfold memRead State.fetch State.cellOf State.ramCellOf
  cases e : s.pageAt a with
  | workRam | cartRam _ | mapperRam _ | prgRom _ => rfl
  | _ => rw [e] at h; cases h

/-- Off plain memory a fetch gives the fill (R65). -/
theorem fetch_not_plain {s : State} {a : Word} (h : (s.pageAt a).isPlain = false) : s.fetch a = s.params.unmappedFill := by
  unfold State.fetch State.cellOf State.ramCellOf
  cases e : s.pageAt a with
  | ppuRegs | io | unmapped | mapperRegs => rfl
  | _ => rw [e] at h; cases h

/-- Settles O9: page by page, by the two paths on plain memory and off it. -/
theorem fetchAgreesWithRead : Obligations.FetchAgreesWithRead := by
  intro s a b1 b2
  have plain := memRead_plain (s := s) (a := a)
  have fill := fetch_not_plain (s := s) (a := a)
  have illegal : s.fetch a = s.params.unmappedFill → s.fetch a = s.params.unmappedFill ∧
      (s.params.legal → decode (s.fetch a) b1 b2 = .ill s.params.unmappedFill) := fun e =>
    ⟨e, fun legal => by rw [e]; exact decode_illegal b1 b2 legal⟩
  cases e : s.pageAt a <;> rw [e] at plain fill
  case workRam | cartRam | mapperRam | prgRom => exact plain rfl
  case ppuRegs | io | unmapped | mapperRegs => exact illegal (fill rfl)

/-! ## Mirrors -/

/-- A byte of work RAM after a store to a cell of it (R302). -/
theorem ramByte_store (s : State) (a b : Nat) (v : Byte) :
    ramByte (s.store (a % 2048) v) b = if b % 2048 = a % 2048 then v else ramByte s b :=
  Memory.read_write s.mem (b % 2048) (a % 2048) v

theorem memRead_ppu {s : State} (h : PagesInstalled s) {a : Word} (ha : 0x2000 ≤ a.toNat) (ha' : a.toNat < 0x4000) :
    memRead a s = ppuRegRead (a.toNat % 8) s := by
  simp only [memRead, h.pageAt_ppu ha ha']

theorem memWrite_ppu {s : State} (h : PagesInstalled s) {a : Word} (ha : 0x2000 ≤ a.toNat) (ha' : a.toNat < 0x4000)
    (v : Byte) : memWrite a v s = ppuRegWrite (a.toNat % 8) v s := by
  simp only [memWrite, h.pageAt_ppu ha ha']

/-- Settles O10: a write to work RAM is a store to one cell, read and fetched modulo 2048; a PPU register is its number. -/
theorem mirrors : Obligations.Mirrors := by
  intro s a b v h
  refine ⟨fun ha hb => ?ram, fun ha ha' hb hb' e => ?ppu⟩
  case ram =>
    have h' : PagesInstalled (s.store (a.toNat % 2048) v) := h.congr rfl
    rw [memWrite_ram h ha, memRead_ram h' hb, memRead_ram h hb, fetch_ram h' hb, fetch_ram h hb, ramByte_store]
    exact ⟨rfl, rfl, rfl⟩
  case ppu =>
    rw [memRead_ppu h ha ha', memRead_ppu h hb hb', memWrite_ppu h ha ha', memWrite_ppu h hb hb', e]
    exact ⟨rfl, rfl⟩

/-! ## The cartridge space -/

theorem pageTableOf_low (m : Mapping) {p : Nat} (h : 9 ≤ p) (h' : p < 16) :
    (pageTableOf m).getD p .unmapped = m.lowPages.getD (p - 9) .unmapped := by
  unfold pageTableOf
  rw [List.getD_eq_getElem?_getD, List.getElem?_map, List.getElem?_range (by omega), Option.map_some, Option.getD_some,
    if_neg (by omega), if_neg (by omega), if_neg (by omega), if_pos h']

theorem pageTableOf_rom (m : Mapping) {p : Nat} (h : 16 ≤ p) (h' : p < 32) :
    (pageTableOf m).getD p .unmapped = .prgRom (m.prgBase.getD (p - 16) 0) := by
  unfold pageTableOf
  rw [List.getD_eq_getElem?_getD, List.getElem?_map, List.getElem?_range h', Option.map_some, Option.getD_some,
    if_neg (by omega), if_neg (by omega), if_neg (by omega), if_neg (by omega)]

/-- The no-op mapper's program pages: flat, modulo the size (R298). -/
theorem noopMapping_prgBase (c : Cartridge) {k : Nat} (h : k < 16) :
    (noopMapping c).prgBase.getD k 0 = k * 2048 % c.prgBytes := by
  simp only [noopMapping]
  rw [List.getD_eq_getElem?_getD, List.getElem?_map, List.getElem?_range h]
  rfl

/-- Its pages 12 to 15, where the cartridge has RAM (R305). -/
theorem noopMapping_lowPages {c : Cartridge} (ram : c.ramPresent = true) {k : Nat} (h : k < 4) :
    (noopMapping c).lowPages.getD (3 + k) .unmapped = .cartRam (k * 2048) := by
  simp only [noopMapping, ram, if_true]
  rw [List.getD_eq_getElem?_getD, List.getElem?_append_right (by simp), List.length_replicate, Nat.add_sub_cancel_left,
    List.getElem?_map, List.getElem?_range h]
  rfl

section NoopMapper

variable {s : State} (noop : s.cart.mapperId = 0) (mapped : s.pageTable = pageTableOf (mappingOf s.mapper.regs s.cart))
include noop mapped

theorem noop_pageTable : s.pageTable = pageTableOf (noopMapping s.cart) := by
  rw [mapped, mappingOf, if_pos noop]

theorem noop_pageAt_rom {a : Word} (ha : 0x8000 ≤ a.toNat) :
    s.pageAt a = .prgRom ((a.toNat / 2048 - 16) * 2048 % s.cart.prgBytes) := by
  have := a.isLt
  unfold State.pageAt
  rw [noop_pageTable noop mapped, pageTableOf_rom _ (by omega) (by omega), noopMapping_prgBase _ (by omega)]

theorem noop_pageAt_ram (ram : s.cart.ramPresent = true) {a : Word} (ha : 0x6000 ≤ a.toNat) (ha' : a.toNat < 0x8000) :
    s.pageAt a = .cartRam ((a.toNat / 2048 - 12) * 2048) := by
  unfold State.pageAt
  rw [noop_pageTable noop mapped, pageTableOf_low _ (by omega) (by omega),
    show a.toNat / 2048 - 9 = 3 + (a.toNat / 2048 - 12) by omega, noopMapping_lowPages ram (by omega)]

/-- Program byte `(a - 0x8000)` modulo the size stands behind address `a` (R298). -/
theorem noop_fetch_rom {a : Word} (ha : 0x8000 ≤ a.toNat) :
    s.fetch a = Memory.read s.mem (0x8000 + (a.toNat - 0x8000) % s.cart.prgBytes) := by
  have flat : (a.toNat / 2048 - 16) * 2048 + a.toNat % 2048 = a.toNat - 0x8000 := by omega
  simp only [State.fetch, State.cellOf, noop_pageAt_rom noop mapped ha, Nat.mod_add_mod, flat, prgKey]

/-- The cell behind an address of cartridge RAM has the address as its key (R305). -/
theorem noop_cellOf_ram (ram : s.cart.ramPresent = true) {a : Word} (ha : 0x6000 ≤ a.toNat) (ha' : a.toNat < 0x8000) :
    s.cellOf a = some a.toNat := by
  simp only [State.cellOf, noop_pageAt_ram noop mapped ram ha ha', cartRamKey]
  congr 1
  omega

theorem noop_memRead_ram (ram : s.cart.ramPresent = true) {a : Word} (ha : 0x6000 ≤ a.toNat) (ha' : a.toNat < 0x8000) :
    memRead a s = (Memory.read s.mem a.toNat, s) := by
  simp only [memRead, noop_pageAt_ram noop mapped ram ha ha', noop_cellOf_ram noop mapped ram ha ha', Option.getD_some]

theorem noop_fetch_ram (ram : s.cart.ramPresent = true) {a : Word} (ha : 0x6000 ≤ a.toNat) (ha' : a.toNat < 0x8000) :
    s.fetch a = Memory.read s.mem a.toNat := by
  simp only [State.fetch, noop_cellOf_ram noop mapped ram ha ha']

theorem noop_memWrite_ram (ram : s.cart.ramPresent = true) {a : Word} (ha : 0x6000 ≤ a.toNat) (ha' : a.toNat < 0x8000)
    (v : Byte) : memWrite a v s = s.store a.toNat v := by
  simp only [memWrite, noop_pageAt_ram noop mapped ram ha ha', noop_cellOf_ram noop mapped ram ha ha', Option.getD_some]

theorem noop_memWrite_rom {a : Word} (ha : 0x8000 ≤ a.toNat) (v : Byte) : memWrite a v s = s := by
  simp only [memWrite, noop_pageAt_rom noop mapped ha, mapperWrite, noop, if_true]

end NoopMapper

/-- Settles O11: by the pages of the no-op mapper, whose cells are the flat layout's, and by the pages of a variant's RAM. -/
theorem cartridgeSpace : Obligations.CartridgeSpace := by
  refine ⟨fun s a b v file noop mapped => ⟨fun ha => ?rom, fun ram ha ha' => ?ram⟩, fun s a v base e => ?variant⟩
  case rom =>
    have plain : (s.pageAt a).isPlain = true := by rw [noop_pageAt_rom noop mapped ha]; rfl
    rw [memRead_plain plain, noop_fetch_rom noop mapped ha]
    exact ⟨rfl, rfl, noop_memWrite_rom noop mapped ha v⟩
  case ram =>
    have stored := noop_memWrite_ram noop mapped ram ha ha' v
    have read := noop_memRead_ram noop mapped ram ha ha'
    refine ⟨by rw [stored]; rfl, by rw [stored]; rfl, fun hb hb' => ?back, ?battery⟩
    case back =>
      rw [stored, noop_memRead_ram (s := s.store a.toNat v) noop mapped ram hb hb',
        noop_fetch_ram (s := s.store a.toNat v) noop mapped ram hb hb', noop_memRead_ram noop mapped ram hb hb',
        noop_fetch_ram noop mapped ram hb hb', State.store_mem, Memory.read_write]
      simp only [← BitVec.toNat_inj, and_self]
    case battery =>
      have key : cartRamKey + (a.toNat - 0x6000) = a.toNat := by simp only [cartRamKey]; omega
      have restored := restoreBattery_read file s (k := a.toNat - 0x6000) (by simp only [Config.cartRamBytes]; omega)
      rw [key] at restored
      rw [noop_memRead_ram (s := restoreBattery file s) noop mapped ram ha ha', restored, read]
  case variant =>
    obtain ⟨-, -, write⟩ := access_mapperRam e
    rw [write]
    refine ⟨rfl, fun b base' e' => ?_⟩
    obtain ⟨read, fetch, -⟩ := access_mapperRam e'
    obtain ⟨read', fetch', -⟩ := access_mapperRam (s := s.storeRam (base + a.toNat % 2048) v) e'
    rw [read', fetch', read, fetch, State.storeRam_mapperRam, MapperRam.byte_store]
    exact ⟨rfl, rfl⟩

/-! ## Pointers -/

/-- The next address in the 256-byte page is in the same 2KB page (R73). -/
theorem State.pageAt_nextInPage (s : State) (a : Word) : s.pageAt (nextInPage a) = s.pageAt a := by
  unfold State.pageAt
  rw [nextInPage_toNat, show (if a.toNat % 256 = 255 then a.toNat - 255 else a.toNat + 1) / 2048 = a.toNat / 2048 by
    split <;> omega]

/-- A pointer in plain memory is two fetches from its 256-byte page (R73, R65). -/
theorem readWordWrap_plain {s : State} {a : Word} (h : (s.pageAt a).isPlain = true) :
    readWordWrap a s = (word (s.fetch a) (s.fetch (nextInPage a)), s) := by
  have h' : (s.pageAt (nextInPage a)).isPlain = true := by rw [s.pageAt_nextInPage]; exact h
  simp only [readWordWrap, readPair, memRead_plain h, memRead_plain h']

theorem PagesInstalled.plain_ram {s : State} (h : PagesInstalled s) {a : Word} (ha : a.toNat < 0x2000) :
    (s.pageAt a).isPlain = true := by rw [h.pageAt_ram ha]; rfl

theorem PagesInstalled.plain_rom {s : State} (h : PagesInstalled s) {a : Word} (ha : 0x8000 ≤ a.toNat) :
    (s.pageAt a).isPlain = true := by
  obtain ⟨base, e⟩ := h.pageAt_rom ha
  rw [e]
  rfl

theorem nextInPage_lt {a : Word} (ha : a.toNat < 0x2000) : (nextInPage a).toNat < 0x2000 := by
  rw [nextInPage_toNat]
  split <;> omega

/-- A pointer in work RAM or a mirror of it (R73, R302). -/
theorem readWordWrap_ram {s : State} (h : PagesInstalled s) {a : Word} (ha : a.toNat < 0x2000) :
    readWordWrap a s = (word (ramByte s a.toNat) (ramByte s (nextInPage a).toNat), s) := by
  rw [readWordWrap_plain (h.plain_ram ha), fetch_ram h ha, fetch_ram h (nextInPage_lt ha)]

/-- Settles O14: the pointer is two bytes of work RAM, the second at the next address of the page. -/
theorem pointerWrapsInPage : Obligations.PointerWrapsInPage := by
  intro s a h ha
  rw [readWordWrap_ram h ha, nextInPage_toNat]

/-! ## The stack, stores and jumps -/

/-- Settles O15: the stack page is work RAM. -/
theorem stackPrimitives : Obligations.StackPrimitives := fun _ v h => ⟨push_eq h v, pull_eq h⟩

/-- Settles O21: an issued store is the spec's, its length and cost those of the mode. -/
theorem storeResult : Obligations.StoreResult := by
  intro s h
  have store : ∀ {i : Instr} {m : Addressing} (v : Byte), i.wellFormed = true → i.bytes = m.bytes →
      i.cycles = m.storeCycles → storeAt m v (issue i s) = stored m v s := by
    intro i m v wf bytes cycles
    obtain ⟨len, cost⟩ := lengthAndCost i wf
    exact storeAt_issue h i m v (len.trans bytes) (cost.trans cycles)
  exact ⟨fun m => congrArg Host.Outcome.next (store _ rfl rfl rfl), fun m => congrArg Host.Outcome.next (store _ rfl rfl rfl),
    fun m => congrArg Host.Outcome.next (store _ rfl rfl rfl)⟩

theorem nextInPage_eq_ite (a : Word) : nextInPage a = if a.toNat % 256 = 255 then a - 255#16 else a + 1#16 := by
  have := a.isLt
  apply BitVec.eq_of_toNat_eq
  rw [nextInPage_toNat]
  split
  · rw [BitVec.toNat_sub]; simp; omega
  · rw [BitVec.toNat_add]; simp; omega

/-- An indirect jump (R113, R185): five cycles, to the word the pointer holds. -/
theorem exec_jmp_ind (a : Word) (s : State) :
    exec (.jmp (.ind a)) s =
      .next ((readWordWrap a (advanced s 3 5)).2.setPc (readWordWrap a (advanced s 3 5)).1) := by
  have issued : issue (.jmp (.ind a)) s = advanced s 3 5 := issue_advanced rfl s
  simp only [exec, execJmp, issued]

/-- An indirect jump whose pointer is in plain memory changes PC and the clock only. -/
theorem exec_jmp_plain {s : State} {a : Word} (h : (s.pageAt a).isPlain = true) :
    exec (.jmp (.ind a)) s = .next { s with
      cpu := { s.cpu with pc := word (s.fetch a) (s.fetch (nextInPage a)) }, clk := s.clk + 5 } := by
  rw [exec_jmp_ind, readWordWrap_plain (s := advanced s 3 5) h]
  rfl

/-- Settles O27: direct by the issue; indirect by the pointer's word, which in plain memory is two fetches. -/
theorem jmpResult : Obligations.JmpResult := by
  intro s a next
  have hn : nextInPage a = next := nextInPage_eq_ite a
  clear_value next
  subst hn
  refine ⟨?abs, ⟨_, exec_jmp_ind a s, ?_, ?_, ?_, ?_⟩, fun h ha => ?ram, fun h ha => ?rom⟩
  case abs =>
    have issued : issue (.jmp (.abs a)) s = advanced s 3 3 := issue_advanced rfl s
    simp only [exec, execJmp, issued]
    rfl
  case ram => rw [exec_jmp_plain (h.plain_ram ha), fetch_ram h ha, fetch_ram h (nextInPage_lt ha)]
  case rom => exact exec_jmp_plain (h.plain_rom ha)
  · rw [State.setPc_clk, readWordWrap_clk]; rfl
  · rw [State.setPc_mem, readWordWrap_mem]; rfl
  · rw [State.setPc_mapperRam, readWordWrap_mapperRam]; rfl
  · simp only [State.setPc, readWordWrap_cpu]; rfl

/-! ## Subroutines -/

/-- JSR (R186): the address of its last byte in the two cells from SP down, PC at the operand. -/
theorem exec_jsr {s : State} (h : PagesInstalled s) (a : Word) :
    exec (.jsr a) s = .next { s with
      cpu := { s.cpu with pc := a, sp := s.cpu.sp - 2 }
      clk := s.clk + 6
      mem := pushedWord s.mem s.cpu.sp (s.cpu.pc + 2) } := by
  have issued : issue (.jsr a) s = advanced s 3 6 := issue_advanced rfl s
  have last : (advanced s 3 6).cpu.pc - 1 = s.cpu.pc + 2 := by simp only [advanced]; bv_omega
  simp only [exec, execJsr, issued, last, pushWord_eq (advanced_pages h 3 6)]
  rfl

/-- RTS (R187): the word above SP, plus one, into PC. -/
theorem exec_rts {s : State} (h : PagesInstalled s) :
    exec .rts s = .next { s with
      cpu := { s.cpu with pc := word (stackByte s 1) (stackByte s 2) + 1, sp := s.cpu.sp + 2 }, clk := s.clk + 6 } := by
  have issued : issue .rts s = advanced s 1 6 := issue_advanced rfl s
  simp only [exec, execRts, issued, pullWord_eq (advanced_pages h 1 6)]
  rfl

/-- The two cells a push of a word fills hold its bytes. -/
theorem read_pushedWord (m : Memory) (sp : Byte) (w : Word) :
    Memory.read (pushedWord m sp w) (0x100 + sp.toNat) = hi w ∧
    Memory.read (pushedWord m sp w) (0x100 + (sp - 1).toNat) = lo w := by
  have apart : 0x100 + sp.toNat ≠ 0x100 + (sp - 1).toNat := by bv_omega
  unfold pushedWord
  exact ⟨by rw [Memory.read_write_ne apart, Memory.read_write_same], Memory.read_write_same _ _ _⟩

/-- Settles O28: the two instructions by their equations, and the return by what the pushed cells hold. -/
theorem subroutines : Obligations.Subroutines := by
  refine ⟨fun s l h pages => ⟨⟨rfl, exec_jsr pages _⟩, rfl, exec_rts pages⟩, ?_⟩
  intro s t v a hs e hv sp high low
  rw [exec_jsr hs a] at e
  cases e
  obtain ⟨hiByte, loByte⟩ := read_pushedWord s.mem s.cpu.sp (s.cpu.pc + 2)
  have sp' : v.cpu.sp = s.cpu.sp - 2 := sp
  have one : stackByte v 1 = lo (s.cpu.pc + 2) := by
    rw [stackByte, sp', show s.cpu.sp - 2 + 1 = s.cpu.sp - 1 by bv_omega]
    exact low.trans loByte
  have two : stackByte v 2 = hi (s.cpu.pc + 2) := by
    rw [stackByte, sp', show s.cpu.sp - 2 + 2 = s.cpu.sp by bv_omega]
    exact high.trans hiByte
  rw [exec_rts hv, one, two, word_lo_hi, sp', show s.cpu.sp - 2 + 2 = s.cpu.sp by bv_omega,
    show s.cpu.pc + 2 + 1 = s.cpu.pc + 3 by bv_omega]

/-! ## Which bytes an instruction stores to -/

/-- The cell behind an address and the byte behind it are read off the page table and the cartridge. -/
theorem ReadFrame.cellOf {s t : State} (f : ReadFrame s t) (a : Word) : t.cellOf a = s.cellOf a := by
  simp only [State.cellOf, State.pageAt, f.pageTable, f.cart]

theorem ReadFrame.ramCellOf {s t : State} (f : ReadFrame s t) (a : Word) : t.ramCellOf a = s.ramCellOf a := by
  simp only [State.ramCellOf, State.pageAt, f.pageTable]

/-- A change within the frame of a read changes no fetch: memory and the pages are as they were (R64). -/
theorem ReadFrame.fetch {s t : State} (f : ReadFrame s t) (a : Word) : t.fetch a = s.fetch a := by
  simp only [State.fetch, f.cellOf, f.ramCellOf, f.mem, f.mapperRam, f.params]

/-- From state `s` to state `t` the memories have changed only where instruction `i` may store: behind the address of its
destination, and in the stack cells its pushes fill (R75, R82). -/
structure MemoryKept (i : Instr) (s t : State) : Prop where
  mem : ∀ k, (∀ m, i.destination = some m → s.cellOf (effective m s) ≠ some k) →
    (∀ j, j < i.pushes → k ≠ 0x100 + (s.cpu.sp - BitVec.ofNat 8 j).toNat) → Memory.read t.mem k = Memory.read s.mem k
  ram : ∀ k, (∀ m, i.destination = some m → s.ramCellOf (effective m s) ≠ some k) →
    t.mapperRam.byte k = s.mapperRam.byte k

namespace MemoryKept

variable {i : Instr} {s t : State}

/-- An instruction that stores nothing. -/
theorem same (mem : t.mem = s.mem) (ram : t.mapperRam = s.mapperRam) : MemoryKept i s t :=
  ⟨fun _ _ _ => by rw [mem], fun _ _ => by rw [ram]⟩

/-- One that works on a read operand with changes of the register file. -/
theorem source (o : Source) {f : Byte → State → State} (mem : ∀ v u, (f v u).mem = u.mem)
    (ram : ∀ v u, (f v u).mapperRam = u.mapperRam) : MemoryKept i s (withSource o f (issue i s)) :=
  same ((mem _ _).trans (readSource_mem o _)) ((ram _ _).trans (readSource_mapperRam o _))

theorem branch (b : Bool) (rel8 : Byte) : MemoryKept i s (branchIf b rel8 (issue i s)) :=
  same (branchIf_mem b rel8 _) (branchIf_mapperRam b rel8 _)

/-- One whose memories are those after a write at its destination. -/
theorem written {m : Addressing} (dest : i.destination = some m) {v : Byte} {u : State} (mem : u.mem = s.mem)
    (ram : u.mapperRam = s.mapperRam) (cell : ∀ a, u.cellOf a = s.cellOf a) (ramCell : ∀ a, u.ramCellOf a = s.ramCellOf a)
    (mem' : t.mem = (memWrite (effective m s) v u).mem)
    (ram' : t.mapperRam = (memWrite (effective m s) v u).mapperRam) : MemoryKept i s t where
  mem := fun k away _ => by
    rw [mem', memWrite_read_ne _ _ _ _ (by rw [cell]; exact away m dest), mem]
  ram := fun k away => by
    rw [ram', memWrite_byte_ne _ _ _ _ (by rw [ramCell]; exact away m dest), ram]

/-- An issued operand resolves to the spec's effective address, with nothing else changed (R107 to R117). -/
theorem resolve_issue (h : PagesInstalled s) (i : Instr) (m : Addressing) :
    resolve m (issue i s) = { ea := effective m s, crossed := crosses m s, state := issue i s } := by
  rw [issue_eq, resolve_eq (advanced_pages h _ _), effective_advanced, crosses_advanced]

theorem store (h : PagesInstalled s) {m : Addressing} (dest : i.destination = some m) (v : Byte) :
    MemoryKept i s (storeAt m v (issue i s)) := by
  unfold storeAt
  rw [resolve_issue h]
  exact written dest (u := issue i s) rfl rfl (fun _ => rfl) (fun _ => rfl) rfl rfl

theorem modify (h : PagesInstalled s) {m : Addressing} (dest : i.destination = some m) (f : Modifier) :
    MemoryKept i s (modifyMemory m f (issue i s)) := by
  have r := memRead_frame (effective m s) (issue i s)
  unfold modifyMemory
  rw [resolve_issue h]
  dsimp only
  generalize memRead (effective m s) (issue i s) = read at r ⊢
  exact written dest (u := setC (f read.1 read.2.cpu.p.c).2 read.2) r.mem r.mapperRam r.cellOf r.ramCellOf rfl rfl

theorem shift (h : PagesInstalled s) {m : ShiftMode} (dest : i.destination = m.addressing) (f : Modifier) :
    MemoryKept i s (modifyShift m f (issue i s)) := by
  unfold modifyShift
  cases hm : m.addressing with
  | none => exact same rfl rfl
  | some x => exact modify h (dest.trans hm) f

end MemoryKept

/-- State `t` is `n` pushes after state `s`: SP is `n` down and the memories have changed in the `n` stack cells at most (R75,
R77). -/
structure Pushed (s : State) (n : Nat) (t : State) : Prop where
  pages : PagesInstalled t
  sp : t.cpu.sp = s.cpu.sp - BitVec.ofNat 8 n
  mem : ∀ k, (∀ j, j < n → k ≠ 0x100 + (s.cpu.sp - BitVec.ofNat 8 j).toNat) →
    Memory.read t.mem k = Memory.read s.mem k
  ram : t.mapperRam = s.mapperRam

namespace Pushed

variable {i : Instr} {s t : State} {n : Nat}

theorem issue (h : PagesInstalled s) (i : Instr) : Pushed s 0 (Machine.issue i s) :=
  ⟨h.congr rfl, (BitVec.sub_zero _).symm, fun _ _ => rfl, rfl⟩

theorem push (h : Pushed s n t) (v : Byte) : Pushed s (n + 1) (Machine.push v t) := by
  rw [push_eq h.pages]
  refine ⟨h.pages.congr rfl, ?sp, fun k away => ?mem, h.ram⟩
  case sp =>
    show t.cpu.sp - 1 = _
    rw [h.sp]
    bv_omega
  case mem =>
    show Memory.read (Memory.write t.mem (0x100 + t.cpu.sp.toNat) v) k = _
    rw [h.sp, Memory.read_write_ne (away n (Nat.lt_succ_self n))]
    exact h.mem k fun j hj => away j (Nat.lt_succ_of_lt hj)

theorem pushWord (h : Pushed s n t) (w : Word) : Pushed s (n + 2) (Machine.pushWord w t) := (h.push _).push _

/-- The memories after the pushes of an instruction and changes elsewhere. -/
theorem kept (h : Pushed s n t) (count : i.pushes = n) {u : State} (mem : u.mem = t.mem)
    (ram : u.mapperRam = t.mapperRam) : MemoryKept i s u :=
  ⟨fun k _ away => by rw [mem]; exact h.mem k (count ▸ away), fun _ _ => by rw [ram, h.ram]⟩

end Pushed

theorem takeInterrupt_mem (ret : Word) (b : Bool) (vector : Word) (s : State) :
    (takeInterrupt ret b vector s).mem = (push (packP (pushWord ret s).cpu.p b) (pushWord ret s)).mem := by
  simp only [takeInterrupt, State.setPc_mem, readWord_mem, State.setP_mem]

theorem takeInterrupt_mapperRam (ret : Word) (b : Bool) (vector : Word) (s : State) :
    (takeInterrupt ret b vector s).mapperRam = (push (packP (pushWord ret s).cpu.p b) (pushWord ret s)).mapperRam := by
  simp only [takeInterrupt, State.setPc_mapperRam, readWord_mapperRam, State.setP_mapperRam]

/-- Every instruction stores where it may and nowhere else. -/
theorem MemoryKept.exec {s : State} (h : PagesInstalled s) (i : Instr) :
    ∃ t, Machine.exec i s = .next t ∧ MemoryKept i s t := by
  have p := Pushed.issue h i
  cases i with
  | tax | tay | txa | tya | tsx | txs | inx | iny | dex | dey | clc | sec | sei | clv | cld | sed | nop | ill _ =>
    exact ⟨_, rfl, .same rfl rfl⟩
  | lda m | ldx m | ldy m | adc m | sbc m | cmp m | cpx m | cpy m | and m | ora m | eor m | bit m =>
    exact ⟨_, rfl, .source _ (fun _ _ => rfl) (fun _ _ => rfl)⟩
  | sta m | stx m | sty m => exact ⟨_, rfl, .store h rfl _⟩
  | inc m | dec m => exact ⟨_, rfl, .modify h rfl _⟩
  | asl m | lsr m | rol m | ror m => exact ⟨_, rfl, .shift h rfl _⟩
  | bcc r | bcs r | beq r | bne r | bmi r | bpl r | bvc r | bvs r => exact ⟨_, rfl, .branch _ _⟩
  | pha | php => exact ⟨_, rfl, (p.push _).kept rfl rfl rfl⟩
  | jsr a => exact ⟨_, rfl, (p.pushWord _).kept rfl rfl rfl⟩
  | brk =>
    exact ⟨_, rfl, ((p.pushWord _).push _).kept rfl (takeInterrupt_mem _ _ _ _) (takeInterrupt_mapperRam _ _ _ _)⟩
  | pla => exact ⟨_, rfl, .same (pull_mem _) (pull_mapperRam _)⟩
  | plp =>
    exact ⟨_, rfl, .same ((stopIfICleared_mem _ _).trans (pull_mem _))
      ((stopIfICleared_mapperRam _ _).trans (pull_mapperRam _))⟩
  | rts => exact ⟨_, rfl, .same (pullWord_mem _) (pullWord_mapperRam _)⟩
  | rti => exact ⟨_, rfl, .same (returnFromInterrupt_mem _) (returnFromInterrupt_mapperRam _)⟩
  | cli => exact ⟨_, rfl, .same (stopIfICleared_mem _ _) (stopIfICleared_mapperRam _ _)⟩
  | jmp m =>
    cases m with
    | abs a => exact ⟨_, rfl, .same rfl rfl⟩
    | ind a => exact ⟨_, rfl, .same (readWordWrap_mem _ _) (readWordWrap_mapperRam _ _)⟩

/-- Settles O37: instruction by instruction, the stores are a write at the destination or the pushes. -/
theorem memoryFrame : Obligations.MemoryFrame := by
  intro i s t k h e
  obtain ⟨u, hu, kept⟩ := MemoryKept.exec h i
  cases hu.symm.trans e
  exact ⟨kept.mem k, kept.ram k⟩

/-! ## The vertical-blank event -/

theorem vblEvent_ppu (s : State) : (vblEvent s).ppu = { s.ppu with vbl := true, vblDone := true } := by
  unfold vblEvent
  dsimp only
  split
  · unfold raiseNmi; rw [irqChanged_eq]
  · rfl

/-- The event raises the NMI at its own time if the control latch enables it (R263). -/
theorem vblEvent_nmiTime (s : State) :
    (vblEvent s).nmiTime = if s.ppu.ctrl.getLsbD 7 then some s.ppu.vblTime else s.nmiTime := by
  unfold vblEvent
  dsimp only
  split
  · unfold raiseNmi; rw [irqChanged_eq]; rfl
  · rfl

/-- What the event leaves, where the PPU's dots have been drawn up to some time since state `s` and no NMI is pending. -/
theorem vblEvent_applied {s u : State} (f : DotFrame s.ppu u.ppu) (n : u.nmiTime = none) :
    (vblEvent u).ppu.vbl = true ∧ (vblEvent u).ppu.vblDone = true ∧
    (vblEvent u).nmiTime = if s.ppu.ctrl.getLsbD 7 then some s.ppu.vblTime else none := by
  rw [vblEvent_nmiTime, vblEvent_ppu, f.ctrl, f.vblTime, n]
  exact ⟨rfl, rfl, rfl⟩

/-- An access later than `T_vbl` has the event applied before it (R263 a). -/
theorem catchUp_event {T : Nat} {s : State} (ahead : s.ppu.vblDone = false) (late : s.ppu.vblTime < T) :
    catchUp T s = vblEvent { s with ppu := s.ppu.renderUntil T } := by
  have f := s.ppu.renderUntil_frame T
  unfold catchUp
  dsimp only
  rw [if_pos (by simp [f.vblDone, f.vblTime, ahead, late])]

/-- Where the event is dealt with or not earlier than the access, catching up only draws (R85). -/
theorem catchUp_render {T : Nat} {s : State} (h : s.ppu.vblDone = true ∨ T ≤ s.ppu.vblTime) :
    catchUp T s = { s with ppu := s.ppu.renderUntil T } := by
  have f := s.ppu.renderUntil_frame T
  unfold catchUp
  dsimp only
  rw [if_neg]
  simp only [f.vblDone, f.vblTime, Bool.and_eq_true, Bool.not_eq_true', decide_eq_true_eq, not_and, Nat.not_lt]
  rcases h with done | early
  · simp [done]
  · exact fun _ => early

/-- A boundary at or after `T_vbl` applies the event (R263 b). -/
theorem syncBoundary_event {s : State} (ahead : s.ppu.vblDone = false) (late : s.ppu.vblTime ≤ s.clk) :
    syncBoundary s = vblEvent { s with ppu := s.ppu.renderUntil s.clk } := by
  have f := s.ppu.renderUntil_frame s.clk
  unfold syncBoundary
  dsimp only
  rcases Nat.lt_or_eq_of_le late with later | now
  · rw [catchUp_event ahead later, if_neg (by simp [vblEvent_done])]
  · rw [catchUp_render (.inr (Nat.le_of_eq now.symm)), if_pos (by simp [f.vblDone, f.vblTime, ahead, late])]

/-- One before it, or with the event dealt with, only draws. -/
theorem syncBoundary_render {s : State} (h : s.ppu.vblDone = true ∨ s.clk < s.ppu.vblTime) :
    syncBoundary s = { s with ppu := s.ppu.renderUntil s.clk } := by
  have f := s.ppu.renderUntil_frame s.clk
  unfold syncBoundary
  dsimp only
  rw [catchUp_render (h.imp_right Nat.le_of_lt), if_neg]
  simp only [f.vblDone, f.vblTime, Bool.and_eq_true, Bool.not_eq_true', decide_eq_true_eq, not_and, Nat.not_le]
  rcases h with done | early
  · simp [done]
  · exact fun _ => early

/-! ## The status register -/

theorem getLsbD_flag (b : Bool) (w : Byte) (k : Nat) : (if b then w else 0#8).getLsbD k = (b && w.getLsbD k) := by
  cases b <;> simp

/-- Bits 7 and 6 of the status byte are the flags, bits 4 to 0 the last byte written to any register (R254). -/
theorem Ppu.statusByte_getLsbD (p : Ppu) (b5 : Bool) :
    (p.statusByte b5).getLsbD 7 = p.vbl ∧ (p.statusByte b5).getLsbD 6 = p.spr0hit ∧
    ∀ k, k < 5 → (p.statusByte b5).getLsbD k = p.iolatch.getLsbD k := by
  have low : ∀ k, k < 5 → (0x80#8).getLsbD k = false ∧ (0x40#8).getLsbD k = false ∧ (0x20#8).getLsbD k = false ∧
      (0x1F#8).getLsbD k = true := by decide
  simp only [Ppu.statusByte, BitVec.getLsbD_or, BitVec.getLsbD_and, getLsbD_flag]
  exact ⟨by simp, by simp, fun k hk => by simp [low k hk]⟩

theorem readStatus_byte (T : Nat) (s : State) :
    (readStatus T s).1 = s.ppu.statusByte ((takeFree s).1.getLsbD 0) := rfl

/-- The PPU after a status read (R254, R265). -/
theorem readStatus_ppu (T : Nat) (s : State) :
    (readStatus T s).2.ppu =
      { s.ppu with vbl := false, w := false, vblDone := s.ppu.vblDone || (!s.ppu.vblDone && T == s.ppu.vblTime) } := rfl

/-- Off `T_vbl` a status read leaves the event as it was (R265). -/
theorem readStatus_vblDone {T : Nat} {s : State} (h : T ≠ s.ppu.vblTime) :
    (readStatus T s).2.ppu.vblDone = s.ppu.vblDone := by
  rw [readStatus_ppu]
  simp [h]

/-- At `T_vbl` it deals with the event, which is suppressed if it was ahead (R265). -/
theorem readStatus_race (s : State) : (readStatus s.ppu.vblTime s).2.ppu.vblDone = true := by
  rw [readStatus_ppu]
  simp

/-- Settles O51: the register's number, then the arm of that register on the machine brought up to the access. -/
theorem ppuRegisterReads : Obligations.PpuRegisterReads := by
  intro s a h ha ha' q r
  have read : r = ppuRegRead (a.toNat % 8) s := memRead_ppu h ha ha'
  have ppu : (syncDevices s.clk s).ppu = q.ppu := syncDevices_ppu s.clk s
  have sync : syncDevices s.clk s = { q with mapper := (syncDevices s.clk s).mapper } := mapperRunUntil_eq s.clk q
  clear_value r q
  refine ⟨fun e => ?status, fun e => ?oam, fun e => ?writeOnly⟩
  case status =>
    have arm : r = readStatus s.clk (syncDevices s.clk s) := by rw [read, e]; rfl
    obtain ⟨vbl, hit, latch⟩ := (syncDevices s.clk s).ppu.statusByte_getLsbD ((takeFree (syncDevices s.clk s)).1.getLsbD 0)
    rw [arm, readStatus_byte, ← ppu]
    exact ⟨vbl, hit, latch, rfl, readStatus_vblDone⟩
  case oam =>
    have arm : r = ((syncDevices s.clk s).ppu.oamByte (syncDevices s.clk s).ppu.oamAddr.toNat, syncDevices s.clk s) := by
      rw [read, e]; rfl
    rw [arm, ppu]
    exact ⟨rfl, sync⟩
  case writeOnly =>
    have arm : r = ((syncDevices s.clk s).ppu.iolatch, syncDevices s.clk s) := by
      rw [read]
      rcases e with e | e | e | e | e <;> rw [e] <;> rfl
    rw [arm, ppu]
    exact ⟨rfl, sync⟩

/-- Settles O52: whether an access or a boundary applies the event, case by case, and the status read that deals with it. -/
theorem vblankRace : Obligations.VblankRace := by
  intro s T ahead clear never raised
  have f := fun T => s.ppu.renderUntil_frame T
  refine ⟨fun late => ?accessLate, fun early => ?accessEarly, fun late => ?boundaryLate, fun early => ?boundaryEarly,
    fun now => ?race⟩
  case accessLate =>
    rw [catchUp_event ahead late]
    exact vblEvent_applied (s := s) (f T) never
  case accessEarly =>
    rw [catchUp_render (.inr early)]
    exact ⟨(f T).vbl.trans clear, (f T).vblDone.trans ahead, never⟩
  case boundaryLate =>
    rw [syncBoundary_event ahead late]
    exact vblEvent_applied (s := s) (f s.clk) never
  case boundaryEarly =>
    rw [syncBoundary_render (.inr early)]
    exact ⟨(f s.clk).vbl.trans clear, (f s.clk).vblDone.trans ahead, never⟩
  case race =>
    intro r
    have hr : r = readStatus T { s with ppu := s.ppu.renderUntil T } := by
      show readStatus T (catchUp T s) = _
      rw [catchUp_render (.inr (Nat.le_of_eq now))]
    clear_value r
    have time : (s.ppu.renderUntil T).vblTime = T := (f T).vblTime.trans now.symm
    have done : r.2.ppu.vblDone = true := by
      have := readStatus_race { s with ppu := s.ppu.renderUntil T }
      dsimp only at this
      rwa [time, ← hr] at this
    have vbl : r.2.ppu.vbl = false := by rw [hr]; rfl
    have nmi : r.2.nmiTime = none := by rw [hr]; exact never
    refine ⟨?_, done, fun T' => ?_, fun n => ?_⟩
    · rw [hr]
      exact ((s.ppu.renderUntil T).statusByte_getLsbD _).1.trans ((f T).vbl.trans clear)
    · rw [catchUp_render (.inl done)]
      exact ⟨(r.2.ppu.renderUntil_frame T').vbl.trans vbl, nmi⟩
    · rw [syncBoundary_render (.inl (by exact done))]
      exact ⟨(r.2.ppu.renderUntil_frame (r.2.clk + n)).vbl.trans vbl, nmi⟩

/-! ## The PPU's memories -/

/-- A read of an unspecified-until-written memory after a write. -/
theorem Ppu.cell_put (p : Ppu) (which : PpuMemory) (cells : Cells) (j k : Nat) (d : Byte) :
    p.cell which (Assoc.put k d cells) j = if j = k then d else p.cell which cells j := by
  unfold Ppu.cell
  split
  · next h => simp only [h, Assoc.find_put_same, Option.getD_some]
  · next h => simp only [Assoc.find_put_ne h]

theorem paletteIndex_eq (n : Nat) :
    paletteIndex n = if n % 32 = 16 ∨ n % 32 = 20 ∨ n % 32 = 24 ∨ n % 32 = 28 then n % 16 else n % 32 := by
  unfold paletteIndex
  dsimp only
  split <;> split <;> omega

theorem Ppu.read_pattern_ram {p : Ppu} {a : Nat} (ha : a < 0x2000) (ram : p.chrWritable = true) :
    p.read a = p.cell .characterRam p.chr (p.chrIndex a) := by
  rw [Ppu.read, if_pos ha, if_pos ram]

theorem Ppu.read_nametable (p : Ppu) {a : Nat} (ha : 0x2000 ≤ a) (ha' : a < 0x3F00) :
    p.read a = p.cell .nametable p.nt (p.ntIndex a) := by
  rw [Ppu.read, if_neg (by omega), if_pos ha']

theorem Ppu.read_palette (p : Ppu) {a : Nat} (ha : 0x3F00 ≤ a) :
    p.read a = p.cell .palette p.palette (paletteIndex a) &&& 0x3F#8 := by
  rw [Ppu.read, if_neg (by omega), if_neg (by omega), Ppu.paletteByte]

/-- A byte listed for a pattern address is read there, writable or not (R277). -/
theorem Ppu.read_pattern {p : Ppu} {a : Nat} {c : Byte} (ha : a < 0x2000) (h : Assoc.find (p.chrIndex a) p.chr = some c) :
    p.read a = c := by
  rw [Ppu.read, if_pos ha]
  split
  · rw [Ppu.cell, h, Option.getD_some]
  · rw [h, Option.getD_some]

theorem Ppu.write_pattern_ram {p : Ppu} {a : Nat} (ha : a < 0x2000) (ram : p.chrWritable = true) (d : Byte) :
    p.write a d = { p with chr := Assoc.put (p.chrIndex a) d p.chr } := by
  rw [Ppu.write, if_pos ha, if_pos ram]

theorem Ppu.write_pattern_rom {p : Ppu} {a : Nat} (ha : a < 0x2000) (rom : p.chrWritable = false) (d : Byte) :
    p.write a d = p := by
  rw [Ppu.write, if_pos ha, if_neg (by simp [rom])]

theorem Ppu.write_nametable (p : Ppu) {a : Nat} (ha : 0x2000 ≤ a) (ha' : a < 0x3F00) (d : Byte) :
    p.write a d = { p with nt := Assoc.put (p.ntIndex a) d p.nt } := by
  rw [Ppu.write, if_neg (by omega), if_pos ha']

theorem Ppu.write_palette (p : Ppu) {a : Nat} (ha : 0x3F00 ≤ a) (d : Byte) :
    p.write a d = { p with palette := Assoc.put (paletteIndex a) (d &&& 0x3F#8) p.palette } := by
  rw [Ppu.write, if_neg (by omega), if_neg (by omega)]

/-- The no-op mapper's pattern windows and nametables (R267, R298). -/
theorem noop_chrPage {s : State} (noop : s.cart.mapperId = 0) {k : Nat} (h : k < 8) :
    (applyMapping s).ppu.chrPage.getD k 0 = k := by
  simp only [applyMapping, mappingOf, noop, if_true, noopMapping]
  revert k; decide

theorem noop_ntMap {s : State} (noop : s.cart.mapperId = 0) {k : Nat} (h : k < 4) :
    (applyMapping s).ppu.ntMap.getD k 0 =
      match s.cart.mirroring with
      | .horizontal => k / 2
      | .vertical => k % 2
      | .singleScreen bank => bank
      | .fourScreen => k := by
  simp only [applyMapping, mappingOf, noop, if_true, noopMapping]
  obtain rfl | rfl | rfl | rfl : k = 0 ∨ k = 1 ∨ k = 2 ∨ k = 3 := by omega
  all_goals cases s.cart.mirroring <;> rfl

/-- A byte written through a palette address is read back through the addresses of its cell (R280). -/
theorem Ppu.read_write_palette (p : Ppu) {a : Nat} (ha : 0x3F00 ≤ a) (b : Nat) (d : Byte) :
    (p.write a d).read b =
      if 0x3F00 ≤ b ∧ paletteIndex b = paletteIndex a then d &&& 0x3F#8 else p.read b := by
  rw [p.write_palette ha]
  by_cases hb : 0x3F00 ≤ b
  · simp only [Ppu.read_palette _ hb, hb, true_and]
    have cell := p.cell_put .palette p.palette (paletteIndex b) (paletteIndex a) (d &&& 0x3F#8)
    refine (congrArg (· &&& 0x3F#8) cell).trans ?_
    split
    · exact (BitVec.and_assoc _ _ _).trans (congrArg (d &&& ·) BitVec.and_self)
    · rfl
  · rw [if_neg fun h => hb h.1, Ppu.read, Ppu.read, if_pos (Nat.not_le.1 hb), if_pos (Nat.not_le.1 hb)]
    rfl

/-- A byte written through a nametable address is read back through the addresses of the same byte (R267). -/
theorem Ppu.read_write_nametable (p : Ppu) {a : Nat} (ha : 0x2000 ≤ a) (ha' : a < 0x3F00) (b : Nat) (d : Byte) :
    (p.write a d).read b =
      if 0x2000 ≤ b ∧ b < 0x3F00 ∧ p.ntIndex b = p.ntIndex a then d else p.read b := by
  rw [p.write_nametable ha ha']
  by_cases hb : 0x2000 ≤ b ∧ b < 0x3F00
  · obtain ⟨h, h'⟩ := hb
    simp only [Ppu.read_nametable _ h h', h, h', true_and]
    exact p.cell_put .nametable p.nt (p.ntIndex b) (p.ntIndex a) d
  · rw [if_neg fun h => hb ⟨h.1, h.2.1⟩]
    unfold Ppu.read
    split
    · rfl
    · rw [if_neg (by omega), if_neg (by omega)]
      rfl

/-- A byte written to writable pattern memory is read back through the addresses of the same byte (R277). -/
theorem Ppu.read_write_pattern {p : Ppu} {a : Nat} (ha : a < 0x2000) (ram : p.chrWritable = true) (b : Nat) (d : Byte) :
    (p.write a d).read b = if b < 0x2000 ∧ p.chrIndex b = p.chrIndex a then d else p.read b := by
  rw [write_pattern_ram ha ram]
  by_cases hb : b < 0x2000
  · simp only [Ppu.read_pattern_ram hb ram, hb, true_and]
    exact (read_pattern_ram hb (by exact ram)).trans (p.cell_put .characterRam p.chr (p.chrIndex b) (p.chrIndex a) d)
  · rw [if_neg fun h => hb h.1, Ppu.read, Ppu.read, if_neg hb, if_neg hb]
    rfl

/-- 0x3000 to 0x3EFF mirror 0x2000 to 0x2EFF (R91, R280). -/
theorem Ppu.read_nametable_mirror (p : Ppu) {b : Nat} (hb : 0x3000 ≤ b) (hb' : b < 0x3F00) :
    p.read b = p.read (b - 0x1000) := by
  have index : p.ntIndex b = p.ntIndex (b - 0x1000) := by
    simp only [Ppu.ntIndex]
    rw [show (b - 0x1000) / 1024 % 4 = b / 1024 % 4 by omega, show (b - 0x1000) % 1024 = b % 1024 by omega]
  rw [p.read_nametable (by omega) hb', p.read_nametable (by omega) (by omega), index]

/-- Settles O56: a write puts one cell of one memory, and a read there finds it exactly through the addresses of that cell. -/
theorem ppuAddressSpace : Obligations.PpuAddressSpace := by
  refine ⟨?memory, fun s k noop => ⟨noop_chrPage noop, noop_ntMap noop⟩⟩
  intro p a b d ha hb q cell tableByte patternByte
  have hcell : cell = paletteIndex := funext fun n => (paletteIndex_eq n).symm
  have hq : q = p.write a d := rfl
  have htable : tableByte = p.ntIndex := rfl
  have hpattern : patternByte = p.chrIndex := rfl
  clear_value q cell tableByte patternByte
  subst hq hcell htable hpattern
  exact ⟨fun pal => ⟨by rw [p.write_palette pal], p.read_write_palette pal b d⟩,
    fun nt nt' => ⟨by rw [p.write_nametable nt nt'], p.read_write_nametable nt nt' b d⟩,
    fun pat ram => ⟨by rw [Ppu.write_pattern_ram pat ram], Ppu.read_write_pattern pat ram b d⟩,
    fun pat rom => Ppu.write_pattern_rom pat rom d, p.read_nametable_mirror, fun pat _ => Ppu.read_pattern pat⟩

/-! ## Sprite-memory DMA -/

/-- Bringing the devices up to a time keeps the OAM address (R266). -/
theorem syncDevices_oamAddr (T : Nat) (s : State) : (syncDevices T s).ppu.oamAddr = s.ppu.oamAddr := by
  have f := (s.ppu.renderUntil_frame T).oamAddr
  rw [syncDevices_ppu]
  unfold catchUp
  dsimp only
  split
  · rw [vblEvent_ppu]; exact f
  · exact f

/-- A data read keeps the OAM address, which only a write to register 3 or 4 moves (R255, R256). -/
theorem memRead_oamAddr (a : Word) (s : State) : (memRead a s).2.ppu.oamAddr = s.ppu.oamAddr := by
  have sync := syncDevices_oamAddr s.clk s
  unfold memRead
  cases s.pageAt a with
  | ppuRegs =>
    unfold ppuRegRead
    dsimp only
    split
    · exact sync
    · exact sync
    · rw [← sync]
      unfold Ppu.readData Ppu.stepAddress
      dsimp only
      split <;> rfl
    · exact sync
  | io =>
    unfold ioRead
    dsimp only
    split
    · rfl
    · split <;> rfl
  | _ => rfl

/-- Copy `k` of OAM DMA with the OAM address given apart (R317). -/
def oamCopyTo (addr : Byte) (base : Word) (u : State) (k : Nat) : State :=
  { (memRead (base + BitVec.ofNat 16 k) u).2 with
    ppu := (memRead (base + BitVec.ofNat 16 k) u).2.ppu.oamStore ((addr.toNat + k) % 256)
      (memRead (base + BitVec.ofNat 16 k) u).1 }

theorem oamCopyTo_oamAddr (addr : Byte) (base : Word) (u : State) (k : Nat) :
    (oamCopyTo addr base u k).ppu.oamAddr = u.ppu.oamAddr := memRead_oamAddr _ u

theorem oamCopyTo_frame (addr : Byte) (base : Word) (u : State) (k : Nat) : ReadFrame u (oamCopyTo addr base u k) :=
  (memRead_frame _ u).trans (withPpu_frame _ _ rfl)

theorem oamCopy_eq (base : Word) (k : Nat) (u : State) : oamCopy base k u = oamCopyTo u.ppu.oamAddr base u k := by
  unfold oamCopy oamCopyTo
  dsimp only
  rw [memRead_oamAddr]

/-- Copies of OAM DMA in ascending order keep the OAM address and stay within the frame of a read. -/
theorem foldl_oamCopyTo_kept (addr : Byte) (base : Word) (l : List Nat) (u : State) :
    (l.foldl (oamCopyTo addr base) u).ppu.oamAddr = u.ppu.oamAddr ∧ ReadFrame u (l.foldl (oamCopyTo addr base) u) := by
  induction l generalizing u with
  | nil => exact ⟨rfl, .refl u⟩
  | cons k l ih =>
    obtain ⟨same, frame⟩ := ih (oamCopyTo addr base u k)
    exact ⟨same.trans (oamCopyTo_oamAddr addr base u k), (oamCopyTo_frame addr base u k).trans frame⟩

/-- The copies that are left, `k` of the 256, are those from `256 - k` on, in ascending order. -/
theorem oamDmaCopies_eq (base : Word) {k : Nat} (hk : k ≤ 256) (u : State) :
    oamDmaCopies base k u = (List.range' (256 - k) k).foldl (oamCopyTo u.ppu.oamAddr base) u := by
  induction k generalizing u with
  | zero => rfl
  | succ k ih =>
    rw [oamDmaCopies, ih (by omega), oamCopy_eq, oamCopyTo_oamAddr, List.range'_succ, List.foldl_cons,
      show 256 - (k + 1) + 1 = 256 - k by omega, show 256 - (k + 1) = 255 - k by omega]

theorem oamDma_eq (v : Byte) (s : State) :
    oamDma v s =
      ((List.range 256).foldl (oamCopyTo s.ppu.oamAddr (word 0 v)) (syncDevices s.clk s)).addClk 513 := by
  unfold oamDma
  rw [oamDmaCopies_eq _ (Nat.le_refl _), syncDevices_oamAddr, List.range_eq_range', Nat.sub_self]
  rfl

/-- From a page of plain memory, whatever the state's devices do meanwhile, each copied byte is the page's (R65, R317). -/
theorem foldl_oamCopyTo_plain (addr : Byte) {base : Word} {s u : State} (f : ReadFrame s u) {n : Nat} (hn : n ≤ 256)
    (plain : ∀ k, k < n → (s.pageAt (base + BitVec.ofNat 16 k)).isPlain = true) {k : Nat} (hk : k < n) :
    ((List.range n).foldl (oamCopyTo addr base) u).ppu.oamByte ((addr.toNat + k) % 256) =
      s.fetch (base + BitVec.ofNat 16 k) := by
  induction n with
  | zero => omega
  | succ n ih =>
    have f' := f.trans (foldl_oamCopyTo_kept addr base (List.range n) u).2
    rw [List.range_succ, List.foldl_append, List.foldl_cons, List.foldl_nil]
    generalize (List.range n).foldl (oamCopyTo addr base) u = w at f' ih ⊢
    have page : (w.pageAt (base + BitVec.ofNat 16 n)).isPlain = true := by
      rw [State.pageAt, f'.pageTable]
      exact plain n (Nat.lt_succ_self n)
    unfold oamCopyTo
    rw [memRead_plain page, f'.fetch, Ppu.oamByte_oamStore]
    split
    · next e => rw [show k = n by omega]
    · next e =>
      have : k ≠ n := fun h => e (by rw [h])
      exact ih (by omega) (fun j hj => plain j (by omega)) (by omega)

theorem memWrite_oamDma {s : State} (h : PagesInstalled s) (v : Byte) : memWrite 0x4014#16 v s = oamDma v s := by
  simp only [memWrite, h.pageAt_io (a := 0x4014#16) (by decide) (by decide), ioWrite, if_true]

/-- Address `k` of the 256-byte page `v`. -/
theorem pageSource_toNat (v : Byte) {k : Nat} (hk : k < 256) : (word 0 v + BitVec.ofNat 16 k).toNat = v.toNat * 256 + k := by
  have := v.isLt
  have zero : (0 : Byte).toNat = 0 := rfl
  rw [BitVec.toNat_add, word_toNat, BitVec.toNat_ofNat, zero]
  omega

/-- A 256-byte page lies in one 2KB page. -/
theorem pageAt_source (s : State) (v : Byte) {k : Nat} (hk : k < 256) :
    s.pageAt (word 0 v + BitVec.ofNat 16 k) = s.pageAt (word 0 v + BitVec.ofNat 16 0) := by
  unfold State.pageAt
  rw [pageSource_toNat v hk, pageSource_toNat v (by omega),
    show (v.toNat * 256 + k) / 2048 = (v.toNat * 256 + 0) / 2048 by omega]

/-- The bytes of OAM after a DMA from a page of plain memory (R317). -/
theorem oamDma_plain {s : State} {v : Byte} (plain : (s.pageAt (word 0 v + BitVec.ofNat 16 0)).isPlain = true) {k : Nat}
    (hk : k < 256) :
    (oamDma v s).ppu.oamByte ((s.ppu.oamAddr.toNat + k) % 256) = s.fetch (word 0 v + BitVec.ofNat 16 k) := by
  rw [oamDma_eq, State.addClk_ppu]
  exact foldl_oamCopyTo_plain _ (syncDevices_frame s.clk s) (Nat.le_refl _)
    (fun j hj => by rw [pageAt_source s v hj]; exact plain) hk

/-- Settles O57: the copies in order, what they keep, and from plain memory the bytes of the page. -/
theorem oamDmaCopiesPage : Obligations.OamDmaCopiesPage := by
  intro s page h t slot source copy
  have dma : t = oamDma page s := memWrite_oamDma h page
  clear_value t
  subst dma
  have f := (syncDevices_frame s.clk s).trans (foldl_oamCopyTo_kept s.ppu.oamAddr (word 0 page) (List.range 256) _).2
  obtain ⟨clk, mem⟩ := oamDma_clk_mem page s
  refine ⟨oamDma_eq page s, ?addr, mem, ?ram, ?cpu, clk, fun _ k hk kind => ?plain, fun k hk low => ?work⟩
  case addr =>
    rw [oamDma_eq, State.addClk_ppu]
    exact (foldl_oamCopyTo_kept _ _ _ _).1.trans (syncDevices_oamAddr _ _)
  case ram => rw [oamDma_eq, State.addClk_mapperRam]; exact f.mapperRam
  case cpu => rw [oamDma_eq, State.addClk_cpu]; exact f.cpu
  case plain =>
    refine oamDma_plain ?_ hk
    rcases kind with e | e | e | e <;> exact congrArg Page.isPlain e
  case work =>
    have addr := pageSource_toNat page hk
    have below : (source k).toNat < 0x2000 := by show (word 0 page + BitVec.ofNat 16 k).toNat < _; omega
    have plain : (s.pageAt (source 0)).isPlain = true :=
      pageAt_source s page hk ▸ h.plain_ram below
    refine (oamDma_plain plain hk).trans ?_
    rw [← addr]
    exact fetch_ram h below

end Sys2Proof.Machine
end

section
/-! SUPPORT. The family `30_encoding.md`: decoder and encoder undo each other, the illegal set, what a step inside a `run` is,
and the progress of a frame. -/

namespace Sys2Proof

/-! ## The three formats (R100, R101) -/

/-- The formats F1, F2 and F3 (R101): which operand bytes follow the opcode byte, and that the decoder reads them back, whatever
stands in the bytes the format does not use (R123). That is evaluated, at the opcode byte, where an instruction has a cell of its
own in the opcode map. -/
inductive HasFormat (i : Instr) : Prop
  | none (bytes : i.operandBytes = [])
      (reads : ∀ d a, decodeOp i.opcode d a = i := by intro _ _; simp only [Instr.opcode]; rfl)
  | byte (d : Byte) (bytes : i.operandBytes = [d])
      (reads : ∀ a, decodeOp i.opcode d a = i := by intro _; simp only [Instr.opcode]; rfl)
  | word (a : Word) (bytes : i.operandBytes = [lo a, hi a])
      (reads : ∀ d, decodeOp i.opcode d a = i := by intro _; simp only [Instr.opcode]; rfl)

/-- Every well-formed instruction stands in the opcode map in one of the formats: per mnemonic and mode (R119). -/
theorem hasFormat {i : Instr} (h : i.wellFormed = true) : HasFormat i := by
  cases i
  case lda m | adc m | sbc m | cmp m | and m | ora m | eor m =>
    cases m with
    | imm d | zp d | zpx d | izx d | izy d => exact .byte d rfl
    | abs a | abx a | aby a => exact .word a rfl
  case sta m =>
    cases m with
    | zp d | zpx d | izx d | izy d => exact .byte d rfl
    | abs a | abx a | aby a => exact .word a rfl
  case ldx m =>
    cases m with
    | imm d | zp d | zpy d => exact .byte d rfl
    | abs a | aby a => exact .word a rfl
  case ldy m =>
    cases m with
    | imm d | zp d | zpx d => exact .byte d rfl
    | abs a | abx a => exact .word a rfl
  case stx m =>
    cases m with
    | zp d | zpy d => exact .byte d rfl
    | abs a => exact .word a rfl
  case sty m =>
    cases m with
    | zp d | zpx d => exact .byte d rfl
    | abs a => exact .word a rfl
  case cpx m | cpy m =>
    cases m with
    | imm d | zp d => exact .byte d rfl
    | abs a => exact .word a rfl
  case bit m =>
    cases m with
    | zp d => exact .byte d rfl
    | abs a => exact .word a rfl
  case inc m | dec m =>
    cases m with
    | zp d | zpx d => exact .byte d rfl
    | abs a | abx a => exact .word a rfl
  case asl m | lsr m | rol m | ror m =>
    cases m with
    | acc => exact .none rfl
    | zp d | zpx d => exact .byte d rfl
    | abs a | abx a => exact .word a rfl
  case jmp m =>
    cases m with
    | abs a | ind a => exact .word a rfl
  case jsr a => exact .word a rfl
  case bcc d | bcs d | beq d | bne d | bmi d | bpl d | bvc d | bvs d => exact .byte d rfl
  case ill op => exact .none rfl fun d a => decodeOp_illegal op d a (mem_illegal_of_wellFormed op h)
  all_goals exact .none rfl

theorem decodeBytes_encode {i : Instr} (h : i.wellFormed = true) (rest : List Byte) :
    decodeBytes (encode i ++ rest) = .ok (i, rest) := by
  have length : i.length = i.operandBytes.length + 1 := rfl
  refine decodeBytes_of_decode i i.opcode (i.operandBytes ++ rest) rest ?reads (by simp [length]) (by simp [length])
  cases hasFormat h with
  | none bytes reads => exact reads _ _
  | byte d bytes reads => rw [bytes]; exact reads _
  | word a bytes reads =>
    rw [bytes]
    exact (congrArg _ (word_lo_hi a)).trans (reads _)

/-- Settles O1: in each format the decoder reads back the operand bytes it finds after the opcode byte. -/
theorem decodeOfEncode : Obligations.DecodeOfEncode := fun _ rest h => decodeBytes_encode h rest

/-! ## What the decoder answers (R119, R122) -/

/-- Arm by arm: the decoder answers an instruction with the opcode byte it was given, whose operand bytes are those of one of the
formats (R101, R119). -/
theorem decodeOp_bytes (op d : Byte) (a : Word) :
    (decodeOp op d a).opcode = op ∧
      ((decodeOp op d a).operandBytes = [] ∨ (decodeOp op d a).operandBytes = [d] ∨
        (decodeOp op d a).operandBytes = [lo a, hi a]) := by
  unfold decodeOp
  split
  case h_152 => exact ⟨rfl, .inl rfl⟩
  all_goals
    next h =>
    refine ⟨(BitVec.eq_of_toNat_eq h).symm, ?_⟩
    simp [Instr.operandBytes, AluMode.source, LdxMode.source, LdyMode.source, CmpMode.source, StaMode.addressing,
      StxMode.addressing, StyMode.addressing, BitMode.addressing, RmwMode.addressing, ShiftMode.addressing,
      Source.operandBytes, Addressing.operandBytes]

/-- The illegal set is where the decoder answers the illegal instruction of the byte's own value (R121, R122). -/
theorem decodeOp_eq_ill_iff (op d : Byte) (a : Word) : decodeOp op d a = .ill op ↔ op.toNat ∈ illegalOpcodes := by
  refine ⟨fun e => ?_, decodeOp_illegal op d a⟩
  have ill := decodeOp_isIll d a op
  rw [e] at ill
  exact of_decide_eq_true ill.symm

/-- Decoding never answers an illegal instruction for a byte outside the illegal set (R121). -/
theorem decodeOp_wellFormed (op d : Byte) (a : Word) : (decodeOp op d a).wellFormed = true := by
  have opcode := (decodeOp_bytes op d a).1
  cases e : decodeOp op d a
  case ill op' =>
    rw [e] at opcode
    obtain rfl : op' = op := opcode
    exact List.contains_iff_mem.2 ((decodeOp_eq_ill_iff op' d a).1 e)
  all_goals rfl

/-- The encoding of what three bytes decode to is one, two or three of them, from the first on (R101). -/
theorem encode_decode (b0 b1 b2 : Byte) :
    encode (decode b0 b1 b2) = [b0] ∨ encode (decode b0 b1 b2) = [b0, b1] ∨ encode (decode b0 b1 b2) = [b0, b1, b2] := by
  obtain ⟨opcode, bytes⟩ := decodeOp_bytes b0 b1 (word b1 b2)
  simpa only [encode, decode, opcode, lo_word, hi_word, List.cons.injEq, true_and] using bytes

/-- Settles O2: by what the encoding of the answer is, its length among it. -/
theorem encodeOfDecode : Obligations.EncodeOfDecode := by
  intro b0 b1 b2
  have wellFormed : (decode b0 b1 b2).wellFormed = true := decodeOp_wellFormed b0 b1 (word b1 b2)
  have opcode : (decode b0 b1 b2).opcode = b0 := (decodeOp_bytes b0 b1 (word b1 b2)).1
  refine ⟨wellFormed, ?bytes, opcode, Nat.succ_pos _, ?short⟩
  all_goals rcases encode_decode b0 b1 b2 with e | e | e
  all_goals simp [Instr.length, e]

/-- Settles O3: the set is listed, the decoder's last arm is the set, and an illegal instruction has no operand bytes. -/
theorem illegalSet : Obligations.IllegalSet :=
  ⟨rfl, fun op b1 b2 => (decodeOp_eq_ill_iff op b1 (word b1 b2)).symm, fun _ => rfl⟩

/-- Settles O4: the decoder run on the ten words. -/
theorem sampleWords : Obligations.SampleWords := by
  unfold Obligations.SampleWords
  decide

end Sys2Proof

namespace Sys2Proof.Machine

/-! ## What a step is, by what the boundary comes to -/

theorem step_of_handled {s u : State} (h : boundary s = .handled u) : step s = .next u := by
  unfold step
  rw [h]

theorem step_of_run {s u : State} (h : boundary s = .run u) : step s = exec u.instrAt u := by
  unfold step
  rw [h]

/-- Inside a `run` whose stop time is ahead the boundary lets the instruction at PC run (R222). -/
theorem boundary_ahead {s : State} {e : Nat} (h : s.endCycle = some e) (ahead : s.clk < e) : boundary s = .run s := by
  simp [boundary, h, Nat.not_le.2 ahead]

/-- Settles O5: the boundary hands over to the instruction fetched at PC. -/
theorem stepRunsDecodedInstruction : Obligations.StepRunsDecodedInstruction := fun _ _ h ahead =>
  step_of_run (boundary_ahead h ahead)

/-! ## The progress of a frame (R308, R309, R316) -/

/-- The frame in `s` is over in `t`: its length is returned and taken off the clock (R307, R314). -/
def FrameEnded (s t : State) : Prop := ∃ len, t.inFrame = false ∧ t.frameResult = some len ∧ t.clk + len = s.clk

/-- Ending a frame whose length the clock has reached: drawing what is left of it does not change its length, which comes off
the clock. -/
theorem endFrame_ended {s u : State} (clk : u.clk = s.clk) (phase : u.ppu.phase < 3) (drawn : u.clk ≤ u.ppu.renderedUntil)
    (late : u.ppu.frameLen ≤ u.clk) : FrameEnded s (endFrame u) := by
  obtain ⟨inFrame, result, clk'⟩ := endFrame_result u
  have len := u.ppu.finishFrame_frameLen phase (Nat.le_trans late drawn)
  exact ⟨_, inFrame, result, by omega⟩

theorem passStart_clk (s : State) : (passStart s).clk = s.clk := (passStart_same s).2.2.1

theorem passStart_phase (s : State) : (passStart s).ppu.phase = s.ppu.phase := by
  obtain ⟨-, -, -, -, -, -, -, -, -, phase⟩ := passStart_same s
  exact phase

theorem passStart_ended {s : State} (phase : s.ppu.phase < 3) (late : (passStart s).ppu.frameLen ≤ (passStart s).clk) :
    FrameEnded s (endFrame (passStart s)) :=
  endFrame_ended (passStart_clk s) (passStart_phase s ▸ phase) (passStart_clk s ▸ passStart_reaches s) late

/-- Interrupt entry takes its seven cycles (R311). -/
theorem interruptEntry_clk (vector : Word) (s : State) : s.clk + 7 ≤ (interruptEntry vector s).clk :=
  Nat.add_le_add_right ((clk_access s.clk).takeInterrupt _ _ _ (Nat.le_refl _)) 7

theorem vectorNmi_clk (s : State) : s.clk + 7 ≤ (vectorNmi s).clk :=
  interruptEntry_clk Config.vecNmi { s with nmiTime := none }

theorem vectorIrq_clk (s : State) : s.clk + 7 ≤ (vectorIrq s).clk := interruptEntry_clk Config.vecIrq s

theorem openRun_clk (s : State) : (openRun s).clk = s.clk := rfl

/-- `run` goes on in the state it looked at its stop time in (R222). -/
theorem checkStopTime_run {s u : State} (h : checkStopTime s = .run u) : u = s := by
  unfold checkStopTime at h
  split at h
  · split at h <;> cases h
    rfl
  · cases h

/-- An instruction boundary moves the clock on, or ends the frame, or hands over to an instruction at the same time. -/
theorem boundary_progress {s : State} (phase : s.ppu.phase < 3) (debug : s.params.stepBoundary ≠ some 0) :
    (∃ u, boundary s = .run u ∧ u.clk = s.clk) ∨ ∃ u, boundary s = .handled u ∧ (s.clk + 2 ≤ u.clk ∨ FrameEnded s u) := by
  have clk := passStart_clk s
  rcases boundary_cases s with ⟨_, -, -, hb⟩ | ⟨-, ⟨late, hb⟩ | ⟨early, ⟨-, hb⟩ | ⟨-, ⟨-, -, hb⟩ | ⟨quiet, hb⟩⟩⟩⟩
  · exact .inl ⟨s, hb, rfl⟩
  · exact .inr ⟨_, hb, .inr (passStart_ended phase late)⟩
  · have nmi := vectorNmi_clk (passStart s)
    exact .inr ⟨_, hb, .inl (by omega)⟩
  · have irq := vectorIrq_clk (refreshIrq (passStart s))
    rw [refreshIrq_clk] at irq
    exact .inr ⟨_, hb, .inl (by omega)⟩
  · have runs := hb.trans (openRun_runs s early quiet debug)
    exact .inl ⟨_, runs, by rw [openRun_clk, refreshIrq_clk, clk]⟩

theorem step_progress {s t : State} (phase : s.ppu.phase < 3) (debug : s.params.stepBoundary ≠ some 0)
    (e : step s = .next t) : s.clk + 2 ≤ t.clk ∨ FrameEnded s t := by
  rcases boundary_progress phase debug with ⟨u, hb, clk⟩ | ⟨u, hb, progress⟩
  · rw [step_of_run hb] at e
    exact .inl (clk ▸ (InstrFrame.exec e).clk)
  · rw [step_of_handled hb] at e
    cases e
    exact progress

/-- With no `run` in progress and the frame's length reached the boundary is the end of the frame (R237, R308). -/
theorem boundary_late {s : State} (returned : ∀ e, s.endCycle = some e → e ≤ s.clk)
    (late : (passStart s).ppu.frameLen ≤ (passStart s).clk) : boundary s = .handled (endFrame (passStart s)) := by
  rcases boundary_cases s with ⟨e, he, ahead, -⟩ | ⟨-, ⟨-, hb⟩ | ⟨early, -⟩⟩
  · exact absurd (returned e he) (by omega)
  · exact hb
  · omega

/-- A `run` that a boundary opens stops no later than the frame ends (R309). -/
theorem boundary_opens {s u : State} (returned : ∀ e, s.endCycle = some e → e ≤ s.clk) (hb : boundary s = .run u) :
    ∃ e, u.endCycle = some e ∧ e ≤ u.ppu.frameLen := by
  rcases boundary_cases s with ⟨e, he, ahead, -⟩ | ⟨-, ⟨-, hb'⟩ | ⟨-, ⟨-, hb'⟩ | ⟨-, ⟨-, -, hb'⟩ | ⟨-, hb'⟩⟩⟩⟩
  · exact absurd (returned e he) (by omega)
  · rw [hb'] at hb; cases hb
  · rw [hb'] at hb; cases hb
  · rw [hb'] at hb; cases hb
  · obtain rfl := checkStopTime_run (hb'.symm.trans hb)
    exact ⟨deadline (refreshIrq (passStart s)), rfl, deadline_le (refreshIrq (passStart s))⟩

/-- Settles O44: by what a boundary can come to, an instruction taking two cycles at least. -/
theorem timeAdvances : Obligations.TimeAdvances := by
  intro s t phase debug e
  refine ⟨step_progress phase debug e, fun returned => ⟨fun late => ?_, fun u => boundary_opens returned⟩⟩
  rw [← passStart_clk s] at late
  rw [step_of_handled (boundary_late returned late)] at e
  cases e
  exact passStart_ended phase late

end Sys2Proof.Machine
end

section
/-! SUPPORT. The family `41_transfer_stack.md`: the register moves, the stack instructions, and which instructions end a `run` for a
cleared interrupt-disable flag. -/

namespace Sys2Proof.Machine

/-! ## Register moves (R150 to R155, R166, R167, R169, R170) -/

/-- Settles O17: each is its issue, one byte and two cycles, then the register and, but for TXS, Z and N. -/
theorem registerMoves : Obligations.RegisterMoves := by
  intro s b1 b2
  refine ⟨⟨rfl, ?tax⟩, ⟨rfl, ?tay⟩, ⟨rfl, ?txa⟩, ⟨rfl, ?tya⟩, ⟨rfl, ?tsx⟩, ⟨rfl, ?txs⟩,
    ⟨rfl, ?inx⟩, ⟨rfl, ?iny⟩, ⟨rfl, ?dex⟩, ⟨rfl, ?dey⟩⟩
  case txs => rfl
  case txa => exact congrArg Host.Outcome.next (setNZ_setA s.cpu.x (advanced s 1 2))
  case tya => exact congrArg Host.Outcome.next (setNZ_setA s.cpu.y (advanced s 1 2))
  case tax => exact congrArg Host.Outcome.next (setNZ_setX s.cpu.a (advanced s 1 2))
  case tsx => exact congrArg Host.Outcome.next (setNZ_setX s.cpu.sp (advanced s 1 2))
  case inx => exact congrArg Host.Outcome.next (setNZ_setX (s.cpu.x + 1) (advanced s 1 2))
  case dex => exact congrArg Host.Outcome.next (setNZ_setX (s.cpu.x - 1) (advanced s 1 2))
  case tay => exact congrArg Host.Outcome.next (setNZ_setY s.cpu.a (advanced s 1 2))
  case iny => exact congrArg Host.Outcome.next (setNZ_setY (s.cpu.y + 1) (advanced s 1 2))
  case dey => exact congrArg Host.Outcome.next (setNZ_setY (s.cpu.y - 1) (advanced s 1 2))

/-! ## The end of a run by a cleared I (R221, R224) -/

/-- The check in fields: a change of I from one to zero, and only that, ends the `run` for that reason. -/
theorem stopIfICleared_eq (oldI : Bool) (s : State) :
    stopIfICleared oldI s = { s with
      endCycle := if oldI && !s.cpu.p.i then none else s.endCycle
      lastStop := if oldI && !s.cpu.p.i then some .iCleared else s.lastStop } := by
  unfold stopIfICleared
  split <;> rfl

/-- Where the check leaves its reason and did not find it, I was one and is zero, and the `run` is over. -/
theorem stopIfICleared_fires {oldI : Bool} {s : State} {r : Option StopReason} (kept : s.lastStop = r)
    (before : r ≠ some .iCleared) (after : (stopIfICleared oldI s).lastStop = some .iCleared) :
    oldI = true ∧ (stopIfICleared oldI s).cpu.p.i = false ∧ (stopIfICleared oldI s).endCycle = none := by
  unfold stopIfICleared at after ⊢
  split at after
  · next fired =>
    rw [Bool.and_eq_true, Bool.not_eq_true'] at fired
    obtain ⟨old, new⟩ := fired
    rw [if_pos (by rw [old, new]; rfl)]
    exact ⟨old, new, rfl⟩
  · exact absurd (kept.symm.trans after) before

/-- No change of the register file, of the clock or by an access touches the reason of the last stop (R63). -/
theorem lastStop_keptByAccess (r : Option StopReason) : KeptByAccess (fun t => t.lastStop = r) where
  cpu := fun _ _ h => h
  clk := fun _ _ h => h
  read := fun a s h => (memRead_frame a s).lastStop.trans h
  write := fun a v s h => (memWrite_frame a v s).lastStop.trans h

/-- Settles O35: an instruction that ends no `run` keeps the last reason, an illegal opcode leaves its own, and the other three
are accesses and register changes before the check of I. -/
theorem onlyThreeClearI : Obligations.OnlyThreeClearI := by
  intro i s t e after before
  have k := lastStop_keptByAccess s.lastStop
  have issued : (issue i s).lastStop = s.lastStop := rfl
  cases hr : i.canEndRun with
  | false =>
    obtain ⟨u, hu, kept⟩ := k.exec i hr issued
    cases hu.symm.trans e
    exact absurd (kept.symm.trans after) before
  | true =>
    cases i
    case cli =>
      cases e
      exact ⟨.inl rfl, stopIfICleared_fires (k.setP _ issued) before after⟩
    case plp =>
      cases e
      exact ⟨.inr (.inl rfl), stopIfICleared_fires (k.setP _ (k.pull issued)) before after⟩
    case rti =>
      cases e
      exact ⟨.inr (.inr rfl), stopIfICleared_fires (k.setPc _ (k.pullWord (k.setP _ (k.pull issued)))) before after⟩
    case ill op => cases e; cases after
    all_goals cases hr

/-! ## The stack instructions (R156 to R159) -/

/-- PHA and PHP: three cycles, a byte in the stack cell at SP. -/
theorem push_advanced {s : State} (h : PagesInstalled s) (v : Byte) :
    push v (advanced s 1 3) = { s with
      cpu := { s.cpu with pc := s.cpu.pc + 1, sp := s.cpu.sp - 1 }, clk := s.clk + 3
      mem := Memory.write s.mem (0x100 + s.cpu.sp.toNat) v } := push_eq (advanced_pages h 1 3) v

/-- PLA and PLP: four cycles, the byte from the stack cell above SP. -/
theorem pull_advanced {s : State} (h : PagesInstalled s) :
    pull (advanced s 1 4) = (stackByte s 1, { s with
      cpu := { s.cpu with pc := s.cpu.pc + 1, sp := s.cpu.sp + 1 }, clk := s.clk + 4 }) := pull_eq (advanced_pages h 1 4)

/-- Settles O29: the issue, one push or one pull, and what is done with the byte. -/
theorem stackInstructions : Obligations.StackInstructions := by
  refine ⟨fun s b1 b2 h => ⟨⟨rfl, ?pha⟩, rfl, ?php⟩, fun s b1 b2 h => ⟨⟨rfl, ?pla⟩, rfl, ?plp⟩⟩
  case pha => exact congrArg Host.Outcome.next (push_advanced h s.cpu.a)
  case php => exact congrArg Host.Outcome.next (push_advanced h (packP s.cpu.p true))
  case pla =>
    have issued : issue .pla s = advanced s 1 4 := issue_advanced rfl s
    simp only [exec, execPla, issued, pull_advanced h, setNZ_setA]
  case plp =>
    have issued : issue .plp s = advanced s 1 4 := issue_advanced rfl s
    simp only [exec, execPlp, issued, pull_advanced h, stopIfICleared_eq]
    rfl

end Sys2Proof.Machine
end

section
/-! SUPPORT. The family `42_arithmetic.md`: the compare instructions. -/

namespace Sys2Proof.Machine

/-! ## Compare (R162 to R164, R172) -/

/-- The flags of a compare, in numbers: Z and N are those of the difference, which is zero for equal bytes only (R172). -/
theorem compareWith_eq (r m : Byte) (s : State) :
    compareWith r m s = s.withFlags { s.cpu.p with
      c := decide (m.toNat ≤ r.toNat), z := decide (r = m), n := decide (128 ≤ (r - m).toNat) } := by
  have zero : (r - m = 0#8) = (r = m) := by rw [BitVec.sub_eq_iff_eq_add, BitVec.zero_add]
  rw [compareWith, setNZ_eq, Status.nz]
  simp only [zero]
  rfl

/-- Settles O23: each compares its register, taken before the operand's read, with the operand; the read leaves the flags
alone. -/
theorem compareResult : Obligations.CompareResult := by
  refine fun s h => ⟨fun m => ?cmp, fun m => ?cpx, fun m => ?cpy⟩
  case cmp => rw [exec_source h (i := .cmp m) rfl rfl rfl rfl, compareWith_eq, operand_p]; rfl
  case cpx => rw [exec_source h (i := .cpx m) rfl rfl rfl rfl, compareWith_eq, operand_p]; rfl
  case cpy => rw [exec_source h (i := .cpy m) rfl rfl rfl rfl, compareWith_eq, operand_p]; rfl

end Sys2Proof.Machine
end

section
/-! SUPPORT. The family `44_control.md`: the conditional branches, RTI, BRK, and RTI as the inverse of interrupt entry. -/

namespace Sys2Proof.Machine

/-! ## Conditional branches (R190 to R198, R126) -/

theorem sext8_eq_toInt (v : Byte) : sext8 v = v.toInt := by
  have := v.isLt
  rw [sext8, BitVec.toInt_eq_toNat_cond]
  split <;> split <;> omega

/-- The offset added as a 16-bit word is the signed integer added modulo 2^16 (R116). -/
theorem add_signExt (w : Word) (v : Byte) : w + signExt v = BitVec.ofInt 16 (w.toNat + sext8 v) := by
  rw [BitVec.ofInt_add, BitVec.ofInt_natCast, BitVec.ofNat_toNat, BitVec.setWidth_eq, sext8_eq_toInt]
  rfl

/-- What a branch taken costs with its two cycles of issue: three cycles, or four into another page (R126). -/
theorem takenBranch_cycles (next target : Word) :
    2 + (if pageDiffers next target then 2 else 1) = if (target &&& 0xFF00#16) = (next &&& 0xFF00#16) then 3 else 4 := by
  rw [pageDiffers_eq]
  by_cases same : target &&& 0xFF00#16 = next &&& 0xFF00#16
  · simp [same]
  · simp [same, Ne.symm same]

/-- A branch after the issue of two bytes and two cycles is the spec's. -/
theorem branchIf_advanced (b : Bool) (rel8 : Byte) (s : State) :
    branchIf b rel8 (advanced s 2 2) = branched b rel8 s := by
  cases b with
  | false => rfl
  | true =>
    simp only [branched, ← add_signExt, ← takenBranch_cycles, ← Nat.add_assoc, if_true]
    rfl

/-- An instruction of two bytes and two cycles that does nothing but branch. -/
theorem exec_branch {i : Instr} {s : State} {b : Bool} {rel8 : Byte} (e : exec i s = .next (branchIf b rel8 (issue i s)))
    (wf : i.wellFormed = true) (bytes : i.bytes = 2) (cycles : i.cycles = 2) :
    exec i s = .next (branched b rel8 s) := by
  rw [e, issue_advanced wf, bytes, cycles, branchIf_advanced]

/-- Settles O32: each is its issue and the shared branch, on its own flag. -/
theorem branchResult : Obligations.BranchResult := by
  refine fun _ _ _ => ⟨⟨rfl, ?bcc⟩, ⟨rfl, ?bcs⟩, ⟨rfl, ?beq⟩, ⟨rfl, ?bne⟩, ⟨rfl, ?bmi⟩, ⟨rfl, ?bpl⟩, ⟨rfl, ?bvc⟩, rfl, ?bvs⟩
  all_goals exact exec_branch rfl rfl rfl rfl

/-! ## RTI (R188) -/

/-- RTI (R188): the flags and PC from the three bytes above SP, nothing added to PC, before the check of I. -/
theorem exec_rti {s : State} (h : PagesInstalled s) :
    exec .rti s = .next (stopIfICleared s.cpu.p.i { s with
      cpu := { s.cpu with
        pc := word (stackByte s 2) (stackByte s 3), sp := s.cpu.sp + 3, p := unpackP (stackByte s 1) }
      clk := s.clk + 6 }) := by
  have issued : issue .rti s = advanced s 1 6 := issue_advanced rfl s
  simp only [exec, execRti, issued, returnFromInterrupt_eq (advanced_pages h 1 6)]
  rfl

/-- Settles O30: the return, with the check of I in fields. -/
theorem rtiResult : Obligations.RtiResult := fun s _ _ h => ⟨rfl, by rw [exec_rti h, stopIfICleared_eq]⟩

/-! ## BRK (R189, R227) -/

/-- BRK takes an interrupt through the IRQ vector, its return address past the byte after the opcode, in seven cycles. -/
theorem exec_brk {s : State} (h : PagesInstalled s) :
    exec .brk s = .next ((taken (s.cpu.pc + 2) true Config.vecIrq s).addClk Config.intCycles) := by
  have issued : issue .brk s = advanced s 1 7 := issue_advanced rfl s
  have ret : (advanced s 1 7).cpu.pc + 1 = s.cpu.pc + 2 := by simp only [advanced]; bv_omega
  simp only [exec, execBrk, issued, ret]
  rw [takeInterrupt_eq (advanced_pages h 1 7) _ _ (by decide) (by decide)]
  rfl

/-- Settles O31: the fields of the interrupt BRK takes. -/
theorem brkResult : Obligations.BrkResult := fun _ _ _ h => ⟨rfl, exec_brk h⟩

/-! ## RTI after an interrupt is taken (R188, R240) -/

@[simp] theorem stackByte_addClk (s : State) (n : Nat) (k : Byte) : stackByte (s.addClk n) k = stackByte s k := rfl

/-- The three bytes above SP once an interrupt is taken: the status byte, then the return address low byte first. -/
theorem stackByte_taken (ret : Word) (b : Bool) (vector : Word) (s : State) :
    stackByte (taken ret b vector s) 1 = packP s.cpu.p b ∧ stackByte (taken ret b vector s) 2 = lo ret ∧
      stackByte (taken ret b vector s) 3 = hi ret := by
  have one : s.cpu.sp - 3 + 1 = s.cpu.sp - 2 := by bv_omega
  have two : s.cpu.sp - 3 + 2 = s.cpu.sp - 1 := by bv_omega
  have three : s.cpu.sp - 3 + 3 = s.cpu.sp := by bv_omega
  have apart : 0x100 + (s.cpu.sp - 1).toNat ≠ 0x100 + (s.cpu.sp - 2).toNat := by bv_omega
  have apart' : 0x100 + s.cpu.sp.toNat ≠ 0x100 + (s.cpu.sp - 2).toNat := by bv_omega
  obtain ⟨high, low⟩ := read_pushedWord s.mem s.cpu.sp ret
  simp only [stackByte, taken, one, two, three]
  exact ⟨Memory.read_write_same _ _ _, (Memory.read_write_ne apart _ _).trans low,
    (Memory.read_write_ne apart' _ _).trans high⟩

/-- RTI as the first instruction after an interrupt is taken: the registers and flags as before it, PC the return address. -/
theorem exec_rti_taken {s : State} (h : PagesInstalled s) (ret : Word) (b : Bool) (vector : Word) (n : Nat) :
    ∃ t, exec .rti ((taken ret b vector s).addClk n) = .next t ∧ t.cpu = { s.cpu with pc := ret } := by
  refine ⟨_, exec_rti (h.congr rfl), ?_⟩
  obtain ⟨status, low, high⟩ := stackByte_taken ret b vector s
  have sp : s.cpu.sp - 3 + 3 = s.cpu.sp := by bv_omega
  rw [stopIfICleared_cpu]
  simp only [stackByte_addClk, status, low, high, word_lo_hi, unpackP_packP]
  simp only [State.addClk, taken, sp]

/-- Settles O34: NMI, IRQ and BRK each take an interrupt, and RTI goes to its return address. -/
theorem rtiUndoesEntry : Obligations.RtiUndoesEntry := by
  refine fun s h => ⟨fun vector hv => ?entry, fun u e => ?brk⟩
  case entry =>
    obtain ⟨rom, last⟩ : 0x8000 ≤ vector.toNat ∧ vector.toNat < 0xFFFF := by
      obtain rfl | rfl := hv <;> decide
    rw [interruptEntry_eq h rom last]
    exact exec_rti_taken h s.cpu.pc false vector _
  case brk =>
    rw [exec_brk h] at e
    cases e
    exact exec_rti_taken h (s.cpu.pc + 2) true Config.vecIrq _

end Sys2Proof.Machine
end

section
/-! SUPPORT. The family `45_flags_nop_illegal.md`: the flag instructions and NOP. -/

namespace Sys2Proof.Machine

/-! ## Flag instructions and NOP (R200 to R207) -/

/-- An instruction of one byte and two cycles that does nothing but set the flags. -/
theorem exec_setP {i : Instr} {s : State} {p : Status} (e : exec i s = .next ((issue i s).setP p))
    (wf : i.wellFormed = true) (bytes : i.bytes = 1) (cycles : i.cycles = 2) :
    exec i s = .next { s with cpu := { s.cpu with pc := s.cpu.pc + 1, p := p }, clk := s.clk + 2 } := by
  rw [e, issue_advanced wf, bytes, cycles]
  rfl

/-- CLI (R202): I is clear after it, so the check of I turns on whether it was set before. -/
theorem exec_cli (s : State) :
    exec .cli s = .next { s with
      cpu := { s.cpu with pc := s.cpu.pc + 1, p := { s.cpu.p with i := false } }, clk := s.clk + 2
      endCycle := if s.cpu.p.i then none else s.endCycle
      lastStop := if s.cpu.p.i then some .iCleared else s.lastStop } := by
  have issued : issue .cli s = advanced s 1 2 := issue_advanced rfl s
  simp only [exec, execCli, issued, stopIfICleared_eq, State.setP_p, Bool.not_false, Bool.and_true]
  rfl

/-- Settles O18: six are their issue and one flag, NOP its issue alone, and CLI has the check of I after its flag. -/
theorem flagInstructions : Obligations.FlagInstructions := by
  refine fun s _ _ => ⟨⟨rfl, ?clc⟩, ⟨rfl, ?sec⟩, ⟨rfl, ?sei⟩, ⟨rfl, ?clv⟩, ⟨rfl, ?cld⟩, ⟨rfl, ?sed⟩, ⟨rfl, ?nop⟩, rfl, ?cli⟩
  case nop => exact congrArg Host.Outcome.next (issue_advanced rfl s)
  case cli => exact exec_cli s
  all_goals exact exec_setP rfl rfl rfl rfl

end Sys2Proof.Machine
end

section
/-! SUPPORT. The family `60_exceptions.md`: interrupt entry and the boundaries between instructions, the frame's times and its
dots, the picture rows, the PPU's registers, and the joypad ports. -/

namespace Sys2Proof.Machine

/-! ## Interrupt entry (R236, R311, R312) -/

/-- Settles O33: both entries take an interrupt with the break bit clear, and NMI clears its time first. -/
theorem interruptEntryEffect : Obligations.InterruptEntryEffect := by
  intro s h entered
  constructor
  · exact interruptEntry_eq (s := { s with nmiTime := none }) (h.congr rfl) (by decide) (by decide)
  · exact interruptEntry_eq h (by decide) (by decide)

/-! ## Boundaries (R222, R237, R308) -/

theorem passStart_cpu (s : State) : (passStart s).cpu = s.cpu := (passStart_same s).1

theorem passStart_mem (s : State) : (passStart s).mem = s.mem := (passStart_same s).2.1

theorem passStart_params (s : State) : (passStart s).params = s.params := by
  obtain ⟨-, -, -, -, -, -, params, -⟩ := passStart_same s
  exact params

/-- The instruction at PC turns on PC, the memories behind the pages, and the fill. -/
theorem instrAt_congr {s t : State} (cpu : t.cpu = s.cpu) (mem : t.mem = s.mem) (ram : t.mapperRam = s.mapperRam)
    (pages : t.pageTable = s.pageTable) (cart : t.cart = s.cart) (params : t.params = s.params) :
    t.instrAt = s.instrAt := by
  simp only [State.instrAt, State.fetch, State.cellOf, State.ramCellOf, State.pageAt, cpu, mem, ram, pages, cart, params]

/-- A boundary lets an instruction run inside the `run` in progress, or in one opened by a pass. -/
theorem boundary_run {s t : State} (h : boundary s = .run t) :
    (t = s ∧ s.endCycle ≠ none) ∨ t = openRun (refreshIrq (passStart s)) := by
  rcases boundary_cases s with ⟨e, he, -, hb⟩ | ⟨-, ⟨-, hb⟩ | ⟨-, ⟨-, hb⟩ | ⟨-, ⟨-, -, hb⟩ | ⟨-, hb⟩⟩⟩⟩
  · rw [hb] at h; cases h; exact .inl ⟨rfl, by simp [he]⟩
  · rw [hb] at h; cases h
  · rw [hb] at h; cases h
  · rw [hb] at h; cases h
  · exact .inr (checkStopTime_run (hb.symm.trans h))

/-- Settles O6: an instruction runs in the state of the boundary itself, or after a pass that has opened a `run`. -/
theorem boundaryIsTransparent : Obligations.BoundaryIsTransparent := by
  intro s t hb
  rcases boundary_run hb with ⟨rfl, inRun⟩ | opened
  · exact ⟨rfl, rfl, rfl, rfl, rfl, rfl, rfl, rfl, inRun, step_of_run hb⟩
  · obtain ⟨cpu, mem, clk, pages, errors, cart, params, -⟩ := passStart_same s
    have ram := passStart_mapperRam s
    rw [refreshIrq_eq] at opened
    generalize passStart s = u at *
    subst opened
    exact ⟨cpu, mem, ram, clk, pages, errors, cart, params, Option.some_ne_none _,
      (step_of_run hb).trans (congrArg (exec · _) (instrAt_congr cpu mem ram pages cart params))⟩

/-- Where no `run` goes on the boundary is a pass of the Bus Controller. -/
theorem boundary_pass {s : State} (returned : ∀ e, s.endCycle = some e → e ≤ s.clk) : boundary s = controllerPass s := by
  unfold boundary
  split
  · next e he => exact if_pos (returned e he)
  · rfl

theorem controllerPass_nmi {s : State} (early : (passStart s).clk < (passStart s).ppu.frameLen)
    (nmi : due (passStart s).nmiTime (passStart s).clk = true) : controllerPass s = .handled (vectorNmi (passStart s)) := by
  unfold controllerPass
  dsimp only
  rw [if_neg (Nat.not_le.2 early), if_pos nmi]

/-- A pass with the frame's end ahead and no NMI due goes by the interrupt time it recomputes (R237). -/
theorem controllerPass_irq {s : State} (early : (passStart s).clk < (passStart s).ppu.frameLen)
    (noNmi : due (passStart s).nmiTime (passStart s).clk = false) :
    controllerPass s =
      if !(refreshIrq (passStart s)).cpu.p.i && due (refreshIrq (passStart s)).irqTime (refreshIrq (passStart s)).clk then
        .handled (vectorIrq (refreshIrq (passStart s)))
      else checkStopTime (openRun (refreshIrq (passStart s))) := by
  unfold controllerPass
  dsimp only
  rw [if_neg (Nat.not_le.2 early), if_neg (by simp [noNmi])]

/-- A debug boundary 0 cycles away ends the `run` before its first instruction (R309; log entry 26). -/
theorem checkStopTime_degenerate {s : State} (h : s.params.stepBoundary = some 0) :
    checkStopTime (openRun s) = .handled ((openRun s).stop .cycles) := by
  have reached : deadline s ≤ s.clk := by
    unfold deadline
    rw [h]
    exact Nat.min_le_right _ _
  unfold checkStopTime openRun
  dsimp only
  rw [if_pos reached]

/-- What the recomputed interrupt time is: the earlier answer of the mapper and the audio chip (R235). -/
theorem refreshIrq_irqTime (s : State) :
    (refreshIrq s).irqTime = earlier (mapperNextIrq s.clk (refreshIrq s)) (refreshIrq s).apu.irq := by
  have clk := refreshIrq_clk s
  rw [← clk]
  rfl

/-- Settles O7: the tests of a pass in their order, each deciding the boundary on its own hypotheses. -/
theorem boundaryEvents : Obligations.BoundaryEvents := by
  refine fun s => ⟨fun e => boundary_ahead, fun returned => ?pass⟩
  intro u w
  have clk : u.clk = s.clk := passStart_clk s
  have cpu : u.cpu = s.cpu := passStart_cpu s
  have wclk : w.clk = s.clk := (refreshIrq_clk u).trans clk
  have wcpu : w.cpu = s.cpu := (refreshIrq_cpu u).trans cpu
  have irqTime : w.irqTime = earlier (mapperNextIrq s.clk w) w.apu.irq := clk ▸ refreshIrq_irqTime u
  refine ⟨cpu, passStart_mem s, passStart_mapperRam s, clk, wcpu, wclk, irqTime, fun late => ?ends, fun early => ?goesOn⟩
  case ends => exact boundary_late returned (clk.symm ▸ late)
  case goesOn =>
    rw [← clk] at early
    refine ⟨fun nmi => ?nmi, fun noNmi => ?noNmi⟩
    case nmi =>
      rw [boundary_pass returned]
      exact controllerPass_nmi early (clk.symm ▸ nmi)
    case noNmi =>
      have pass := (boundary_pass returned).trans (controllerPass_irq early (clk.symm ▸ noNmi))
      have quietIf : (!w.cpu.p.i && due w.irqTime w.clk) = (!s.cpu.p.i && due w.irqTime s.clk) := by rw [wcpu, wclk]
      refine ⟨fun ⟨clear, irq⟩ => ?irq, fun quiet => ?run⟩
      case irq => rw [pass, if_pos (quietIf.trans (by simp [clear, irq]))]
      case run =>
        have none : (!w.cpu.p.i && due w.irqTime w.clk) = false :=
          quietIf.trans (by rcases quiet with h | h <;> simp [h])
        rw [pass, if_neg (Bool.eq_false_iff.1 none)]
        have params : w.params = s.params := (refreshIrq_params u).trans (passStart_params s)
        split
        · next h => exact checkStopTime_degenerate (params ▸ h)
        · next h => exact openRun_runs s early none h

/-! ## The times of a frame (R250, R263, R264) -/

/-- Settles O45: each time is a third of its dot, rounded up, from the remainder carried in. -/
theorem frameTimes : Obligations.FrameTimes := by
  intro p phase
  have vbl : p.vblTime = (82523 - p.phase + 2) / 3 := rfl
  have dot : ∀ c, p.dotAt c = 3 * c + p.phase := fun _ => rfl
  have dots : p.frameDots = if p.shortened then 89341 else 89342 := rfl
  have len : p.frameLen = (p.frameDots - p.phase + 2) / 3 := rfl
  have carried : p.endFrame.phase = 3 * p.frameLen + p.phase - p.frameDots := rfl
  have bounds : p.frameDots = 89341 ∨ p.frameDots = 89342 := by rw [dots]; split <;> simp
  refine ⟨fun c => ?vblLeast, ?vblValue, fun c => ?lenLeast, ?lenValue, ?carriedDots, ?carriedPhase, rfl⟩
  case vblLeast => rw [vbl, dot]; omega
  case vblValue => rw [vbl]; split <;> omega
  case lenLeast => rw [← dots, len, dot]; omega
  case lenValue => rw [len]; omega
  case carriedDots => rw [carried, dot]; omega
  case carriedPhase => rw [carried]; omega

/-! ## Rendering in pieces (R266) -/

/-- `render_until` ahead of what is drawn: the dots in between, and the notes of the time reached. -/
theorem Ppu.renderUntil_ahead {p : Ppu} {T : Nat} (h : p.renderedUntil < T) :
    p.renderUntil T =
      (Ppu.runDots (p.dotsBefore T - p.dotsBefore p.renderedUntil) (p.dotsBefore p.renderedUntil) p).withNotes
        (p.dotAt T) T := if_pos h

theorem Ppu.renderUntil_behind {p : Ppu} {T : Nat} (h : T ≤ p.renderedUntil) : p.renderUntil T = p :=
  if_neg (Nat.not_lt.2 h)

theorem DotFrame.dotAt {p q : Ppu} (h : DotFrame p q) (c : Nat) : q.dotAt c = p.dotAt c := by simp [Ppu.dotAt, h.phase]

/-- Two pieces, each with something to draw, are one. -/
theorem Ppu.renderUntil_twice {p : Ppu} {T1 T2 : Nat} (h : p.renderedUntil < T1) (h' : T1 < T2) :
    (p.renderUntil T1).renderUntil T2 = p.renderUntil T2 := by
  have f := p.renderUntil_frame T1
  have reached : (p.renderUntil T1).renderedUntil = T1 := by rw [renderUntil_ahead h]; rfl
  have first := p.dotsBefore_mono (Nat.le_of_lt h)
  have second := p.dotsBefore_mono (Nat.le_of_lt h')
  have split : p.dotsBefore T2 - p.dotsBefore p.renderedUntil =
      (p.dotsBefore T1 - p.dotsBefore p.renderedUntil) + (p.dotsBefore T2 - p.dotsBefore T1) := by omega
  have meet : p.dotsBefore p.renderedUntil + (p.dotsBefore T1 - p.dotsBefore p.renderedUntil) = p.dotsBefore T1 := by
    omega
  rw [renderUntil_ahead (p := p.renderUntil T1) (by omega), f.dotsBefore, f.dotsBefore, f.dotAt, reached,
    renderUntil_ahead h, runDots_notes, renderUntil_ahead (Nat.lt_trans h h'), split, runDots_add, meet]
  rfl

/-- Settles O46: a piece with nothing to draw changes nothing, and two that draw run their dots one after the other. -/
theorem lazyRenderingUnobservable : Obligations.LazyRenderingUnobservable := by
  intro p T1 T2 le
  rcases Nat.lt_or_ge p.renderedUntil T1 with ahead | behind
  · rcases Nat.lt_or_eq_of_le le with lt | rfl
    · exact Ppu.renderUntil_twice ahead lt
    · exact Ppu.renderUntil_behind (p.renderUntil_reaches T1)
  · rw [Ppu.renderUntil_behind behind]

/-! ## The movement of `v` (R271) -/

theorem Ppu.hitDot_v (p : Ppu) (n : Nat) : (p.hitDot n).v = p.v := by
  unfold Ppu.hitDot; split <;> rfl

/-- `v` after a dot of a line, on the lines that fetch pictures with rendering enabled, and its three moves (R271). -/
theorem Ppu.lineDot_v (p : Ppu) (line dot : Nat) :
    (p.lineDot line dot).v =
      if p.rendering = true ∧ line ≤ 240 then
        if dot = 256 then nextRow p.v
        else if dot = 257 then horizontalCopy p.v p.t
        else if line = 0 ∧ 280 ≤ dot ∧ dot ≤ 304 then verticalCopy p.v p.t
        else p.v
      else p.v := by
  unfold Ppu.lineDot
  by_cases h0 : line = 0
  · subst h0
    simp only [if_true, Ppu.preRenderDot, true_and, Nat.zero_le, and_true]
    by_cases h339 : dot = 339
    · subst h339; simp
    · cases p.rendering
      · simp [h339]
      · simp only [h339, if_false, Bool.not_true, Bool.false_eq_true, if_true]
        repeat' split
        all_goals rfl
  · by_cases h240 : line ≤ 240
    · simp only [h0, if_false, h240, if_true, Ppu.visibleDot, false_and, and_true]
      by_cases hd : dot = 0
      · subst hd; simp [Ppu.drawRow]
      · cases p.rendering
        · simp [hd]
        · simp only [hd, if_false, Bool.not_true, Bool.false_eq_true, if_true]
          repeat' split
          all_goals rfl
    · simp [h0, h240]

/-- `v` after a frame dot is `v` after the dot of its line: the sprite-zero-hit flag moves nothing (R271). -/
theorem Ppu.atDot_v_eq (p : Ppu) (n : Nat) : (p.atDot n).v = (p.lineDot (p.position n).1 (p.position n).2).v := by
  have f := p.hitDot_frame n
  rw [Ppu.atDot, Ppu.lineDot_v, Ppu.lineDot_v, f.rendering, f.t, p.hitDot_v]

/-- Bits put into a word by a mask that clears their places: `P` says which places, `f` which bits. -/
theorem getLsbD_insert {w : Nat} (P : Nat → Prop) [DecidablePred P] (f : Nat → Bool) {m b : BitVec w}
    (mask : ∀ k, k < w → m.getLsbD k = !decide (P k)) (bits : ∀ k, k < w → b.getLsbD k = (decide (P k) && f k))
    (a : BitVec w) {k : Nat} (hk : k < w) :
    ((a &&& m) ||| b).getLsbD k = if P k then f k else a.getLsbD k := by
  rw [BitVec.getLsbD_or, BitVec.getLsbD_and, mask k hk, bits k hk]
  by_cases h : P k <;> simp [h]

/-- A merge by masks takes a bit from the second word where `P` holds and from the first elsewhere. -/
theorem getLsbD_merge {w : Nat} (P : Nat → Prop) [DecidablePred P] {m m' : BitVec w}
    (masks : ∀ k, k < w → m.getLsbD k = !decide (P k) ∧ m'.getLsbD k = decide (P k)) (a b : BitVec w) (k : Nat) :
    ((a &&& m) ||| (b &&& m')).getLsbD k = if P k then b.getLsbD k else a.getLsbD k := by
  rcases Nat.lt_or_ge k w with hk | hk
  · exact getLsbD_insert P b.getLsbD (fun k hk => (masks k hk).1)
      (fun k hk => by rw [BitVec.getLsbD_and, (masks k hk).2, Bool.and_comm]) a hk
  · simp [BitVec.getLsbD_of_ge _ _ hk]

theorem horizontalCopy_getLsbD (v t : VramAddr) (k : Nat) :
    (horizontalCopy v t).getLsbD k = if k < 5 ∨ k = 10 then t.getLsbD k else v.getLsbD k :=
  getLsbD_merge (fun k => k < 5 ∨ k = 10) (by decide) v t k

theorem verticalCopy_getLsbD (v t : VramAddr) (k : Nat) :
    (verticalCopy v t).getLsbD k = if k < 5 ∨ k = 10 then v.getLsbD k else t.getLsbD k :=
  (getLsbD_merge (fun k => ¬ (k < 5 ∨ k = 10)) (by decide) v t k).trans (ite_not _ _ _)

/-- `len` bits of an address, from bit `lo` up, as a number. -/
def bitField (lo len : Nat) (v : VramAddr) : Nat := v.toNat / 2 ^ lo % 2 ^ len

theorem coarseX_eq (v : VramAddr) : coarseX v = bitField 0 5 v := by simp [coarseX, bitField]

theorem coarseY_eq (v : VramAddr) : coarseY v = bitField 5 5 v := rfl

theorem nameX_eq (v : VramAddr) : nameX v = bitField 10 1 v := rfl

theorem nameY_eq (v : VramAddr) : nameY v = bitField 11 1 v := rfl

theorem fineY_eq (v : VramAddr) : fineY v = bitField 12 3 v := rfl

/-- A mask keeps a field it covers. -/
theorem bitField_and_kept {lo len : Nat} {m : VramAddr} (h : bitField lo len m = 2 ^ len - 1) (v : VramAddr) :
    bitField lo len (v &&& m) = bitField lo len v := by
  simp only [bitField, BitVec.toNat_and, Nat.and_div_two_pow, Nat.and_mod_two_pow] at h ⊢
  rw [h, Nat.and_two_pow_sub_one_eq_mod, Nat.mod_mod]

/-- A mask clears a field it leaves out. -/
theorem bitField_and_cleared {lo len : Nat} {m : VramAddr} (h : bitField lo len m = 0) (v : VramAddr) :
    bitField lo len (v &&& m) = 0 := by
  simp only [bitField, BitVec.toNat_and, Nat.and_div_two_pow, Nat.and_mod_two_pow] at h ⊢
  rw [h, Nat.and_zero]

theorem bitField_xor (lo len : Nat) (v m : VramAddr) :
    bitField lo len (v ^^^ m) = bitField lo len v ^^^ bitField lo len m := by
  simp only [bitField, BitVec.toNat_xor, Nat.xor_div_two_pow, Nat.xor_mod_two_pow]

/-- `v` at row 0 of its nametable: both Y fields cleared. -/
def rowCleared (v : VramAddr) : VramAddr := (v &&& 0x0FFF#15) &&& 0x0C1F#15

theorem rowCleared_fields (v : VramAddr) :
    fineY (rowCleared v) = 0 ∧ coarseY (rowCleared v) = 0 ∧ nameY (rowCleared v) = nameY v ∧
    nameX (rowCleared v) = nameX v ∧ coarseX (rowCleared v) = coarseX v := by
  have mask : rowCleared v = v &&& 0x0C1F#15 := BitVec.and_assoc _ _ _
  simp only [mask, fineY_eq, coarseY_eq, nameY_eq, nameX_eq, coarseX_eq]
  exact ⟨bitField_and_cleared rfl v, bitField_and_cleared rfl v, bitField_and_kept rfl v, bitField_and_kept rfl v,
    bitField_and_kept rfl v⟩

/-- The other nametable: bit 11 flips, the other fields stay. -/
theorem flipNameY_fields (v : VramAddr) :
    fineY (v ^^^ 0x0800#15) = fineY v ∧ coarseY (v ^^^ 0x0800#15) = coarseY v ∧
    nameY (v ^^^ 0x0800#15) = 1 - nameY v ∧ nameX (v ^^^ 0x0800#15) = nameX v ∧ coarseX (v ^^^ 0x0800#15) = coarseX v := by
  have same : ∀ lo len, bitField lo len 0x0800#15 = 0 → bitField lo len (v ^^^ 0x0800#15) = bitField lo len v := by
    intro lo len h
    rw [bitField_xor, h, Nat.xor_zero]
  have flip : bitField 11 1 (v ^^^ 0x0800#15) = bitField 11 1 v ^^^ 1 := bitField_xor 11 1 v _
  have bit : bitField 11 1 v = 0 ∨ bitField 11 1 v = 1 := Nat.mod_two_eq_zero_or_one _
  simp only [fineY_eq, coarseY_eq, nameY_eq, nameX_eq, coarseX_eq]
  refine ⟨same _ _ rfl, same _ _ rfl, ?_, same _ _ rfl, same _ _ rfl⟩
  rw [flip]
  rcases bit with h | h <;> rw [h] <;> rfl

/-- The branches of the step to the next row, by the fields of `v` itself. -/
theorem nextRow_eq (v : VramAddr) :
    nextRow v =
      if fineY v < 7 then v + 0x1000#15
      else if coarseY v = 29 then rowCleared v ^^^ 0x0800#15
      else if coarseY v = 31 then rowCleared v
      else (v &&& 0x0FFF#15) + 0x0020#15 := by
  have row : coarseY (v &&& 0x0FFF#15) = coarseY v := bitField_and_kept (lo := 5) (len := 5) rfl v
  unfold nextRow
  dsimp only
  rw [row]
  rfl

/-- The step to the next row field by field (R271): fine Y, where it wraps coarse Y, which wraps after 29 into the other
nametable and after 31 into the same. -/
theorem nextRow_fields (v : VramAddr) :
    fineY (nextRow v) = (fineY v + 1) % 8 ∧
    coarseY (nextRow v) =
      (if fineY v < 7 then coarseY v else if coarseY v = 29 ∨ coarseY v = 31 then 0 else coarseY v + 1) ∧
    nameY (nextRow v) = (if fineY v = 7 ∧ coarseY v = 29 then 1 - nameY v else nameY v) ∧
    nameX (nextRow v) = nameX v ∧ coarseX (nextRow v) = coarseX v := by
  have lt := v.isLt
  have low : (v &&& 0x0FFF#15).toNat = v.toNat % 4096 :=
    (BitVec.toNat_and v _).trans (Nat.and_two_pow_sub_one_eq_mod v.toNat 12)
  have fine : fineY v < 8 := Nat.mod_lt _ (by decide)
  obtain ⟨fine0, row0, y0, x0, cx0⟩ := rowCleared_fields v
  obtain ⟨fineF, rowF, yF, xF, cxF⟩ := flipNameY_fields (rowCleared v)
  by_cases h7 : fineY v < 7
  · have sum : (v + 0x1000#15).toNat = v.toNat + 4096 := by
      simp only [fineY] at h7
      exact BitVec.toNat_add_of_lt (by simp; omega)
    rw [nextRow_eq, if_pos h7, if_pos h7, if_neg (by omega)]
    simp only [fineY, coarseY, nameY, nameX, coarseX, sum] at h7 ⊢
    omega
  · have last : fineY v = 7 := by omega
    rw [nextRow_eq, if_neg h7, if_neg h7]
    by_cases h29 : coarseY v = 29
    · rw [if_pos h29, fineF, rowF, yF, xF, cxF, fine0, row0, y0, x0, cx0]
      simp [last, h29]
    · by_cases h31 : coarseY v = 31
      · rw [if_neg h29, if_pos h31, fine0, row0, y0, x0, cx0]
        simp [last, h31]
      · have sum : ((v &&& 0x0FFF#15) + 0x0020#15).toNat = v.toNat % 4096 + 32 := by
          rw [BitVec.toNat_add_of_lt (by rw [low]; simp; omega), low]
          rfl
        rw [if_neg h29, if_neg h31, if_neg (not_or.2 ⟨h29, h31⟩), if_neg fun h => h29 h.2]
        simp only [fineY, coarseY, nameY, nameX, coarseX, sum] at last h29 h31 ⊢
        omega

/-- Settles O47: the moves of a dot in a line, each where its dot is and nowhere else. -/
theorem vramAddressMoves : Obligations.VramAddressMoves := by
  intro p n line dot v
  have move : v = _ := (p.atDot_v_eq n).trans (p.lineDot_v line dot)
  have whole : p.shortened = false → line = n / 341 ∧ dot = n % 341 := by
    intro h
    show (p.position n).1 = _ ∧ (p.position n).2 = _
    simp only [Ppu.position, h, Bool.false_and, Bool.false_eq_true, if_false]
    exact ⟨rfl, rfl⟩
  clear_value v line dot
  refine ⟨whole, fun on shown h256 => ?rowStep, fun on shown h257 => ?horizontal, fun on first after upTo => ?vertical,
    fun still => ?still⟩
  case rowStep =>
    rw [if_pos ⟨on, shown⟩, if_pos h256] at move
    exact move ▸ nextRow_fields p.v
  case horizontal =>
    rw [if_pos ⟨on, shown⟩, if_neg (by omega), if_pos h257] at move
    exact move ▸ horizontalCopy_getLsbD p.v p.t
  case vertical =>
    rw [if_pos ⟨on, by omega⟩, if_neg (by omega), if_neg (by omega), if_pos ⟨first, after, upTo⟩] at move
    exact move ▸ verticalCopy_getLsbD p.v p.t
  case still =>
    rw [move]
    rcases still with off | below | ⟨not256, not257, outside⟩
    · rw [if_neg (by simp [off])]
    · rw [if_neg (by omega)]
    · have elsewhere : ¬ (line = 0 ∧ 280 ≤ dot ∧ dot ≤ 304) := fun ⟨first, within⟩ => by have := outside first; omega
      rw [if_neg not256, if_neg not257, if_neg elsewhere, ite_self]

/-! ## The background of a row (R268) -/

/-- Bit `b` of a byte as a number. -/
theorem toNat_getLsbD (x : Byte) (b : Nat) : (x.getLsbD b).toNat = x.toNat / 2 ^ b % 2 :=
  Nat.toNat_testBit x.toNat b

theorem planeColour_eq (p0 p1 : Byte) (b : Nat) :
    planeColour p0 p1 b = p1.toNat / 2 ^ b % 2 * 2 + p0.toNat / 2 ^ b % 2 := by
  rw [planeColour, toNat_getLsbD, toNat_getLsbD]

/-- A pattern table's base from the bit that chooses it (R252). -/
theorem toNat_mul_4096 (b : Bool) : b.toNat * 4096 = if b then 0x1000 else 0 := by cases b <;> rfl

/-- Settles O48: the point's tile, table and bit from the row's left edge, then the bytes read at the same addresses. -/
theorem backgroundPixel : Obligations.BackgroundPixel := by
  intro p x X column row table tile attributes group pattern bit colour
  have point : X = nameX p.v * 256 + coarseX p.v * 8 + p.fx.toNat + x := rfl
  have hcolumn : (coarseX p.v + (p.fx.toNat + x) / 8) % 32 = column := by
    show _ = X / 8 % 32
    omega
  have htable : (nameX p.v + (coarseX p.v + (p.fx.toNat + x) / 8) / 32) % 2 = X / 256 % 2 := by omega
  have hbit : 7 - (p.fx.toNat + x) % 8 = bit := by
    show _ = 7 - X % 8
    omega
  have htile : 0x2000 + (nameY p.v * 2048 + X / 256 % 2 * 1024) + row * 32 + column = table + row * 32 + column := by
    show _ = 0x2000 + nameY p.v * 0x800 + X / 256 % 2 * 0x400 + row * 32 + column
    omega
  have hgroupByte : 0x23C0 + (nameY p.v * 2048 + X / 256 % 2 * 1024) + row / 4 * 8 + column / 4 =
      table + 0x3C0 + row / 4 * 8 + column / 4 := by
    show _ = 0x2000 + nameY p.v * 0x800 + X / 256 % 2 * 0x400 + 0x3C0 + row / 4 * 8 + column / 4
    omega
  have hgroup : 2 ^ (row / 2 % 2 * 4 + column / 2 % 2 * 2) = 4 ^ (row / 2 % 2 * 2 + column / 2 % 2) := by
    rw [show 4 = 2 ^ 2 from rfl, ← Nat.pow_mul]
    congr 1
    omega
  have hcolour : planeColour (p.read pattern) (p.read (pattern + 8)) bit = colour := planeColour_eq _ _ _
  have hrow : coarseY p.v = row := rfl
  unfold Ppu.background
  dsimp only
  rw [hrow, htable, hcolumn, htile, hgroupByte, hbit, hgroup, toNat_mul_4096, ← hcolour]

/-! ## The sprites of a row (R273, R274) -/

/-- The first `k` of the numbers below `n` that pass a test are those with fewer than `k` before them that do. -/
theorem mem_take_filter_range (test : Nat → Bool) (n k i : Nat) :
    i ∈ ((List.range n).filter test).take k ↔ i < n ∧ test i = true ∧ ((List.range i).filter test).length < k := by
  induction n with
  | zero => simp
  | succ n ih =>
    have new : i ∈ ([n].filter test).take (k - ((List.range n).filter test).length) ↔
        i = n ∧ test n = true ∧ ((List.range n).filter test).length < k := by
      cases h : test n
      · simp [h]
      · rcases Nat.eq_zero_or_pos (k - ((List.range n).filter test).length) with h0 | h0
        · simp [h0]
          omega
        · simp [h, List.take_cons h0]
          omega
    rw [List.range_succ, List.filter_append, List.take_append, List.mem_append, ih, new]
    by_cases e : i = n
    · subst e; simp
    · simp [e, show i < n ↔ i < n + 1 by omega]

/-- An entry is drawn when it is one of the first eight in range (R273). -/
theorem Ppu.mem_selectedSprites (p : Ppu) (y i : Nat) :
    i ∈ p.selectedSprites y ↔
      i < 64 ∧ p.spriteInRange y i = true ∧ ((List.range i).filter (p.spriteInRange y)).length < 8 :=
  mem_take_filter_range (p.spriteInRange y) 64 8 i

/-- The entries drawn stand in ascending order (R273). -/
theorem Ppu.selectedSprites_ascending (p : Ppu) (y : Nat) : (p.selectedSprites y).Pairwise (· < ·) :=
  (List.pairwise_lt_range.filter _).sublist (List.take_sublist _ _)

/-- With no entry opaque at the pixel the background is put out (R274). -/
theorem Ppu.composed_background {p : Ppu} {y x : Nat} {sprites : List Nat}
    (h : ∀ i, i ∈ sprites → p.spriteColour y i x = 0) : p.composed y sprites x = (p.background x).2 := by
  have none : sprites.find? (fun i => p.spriteColour y i x != 0) = none := List.find?_eq_none.2 (by simpa using h)
  rw [Ppu.composed, none]

/-- In an ascending list the search for an opaque entry ends at the lowest one. -/
theorem Ppu.find?_opaque {p : Ppu} {y x i : Nat} {sprites : List Nat} (ascending : sprites.Pairwise (· < ·))
    (mem : i ∈ sprites) (visible : p.spriteColour y i x ≠ 0)
    (first : ∀ j, j ∈ sprites → j < i → p.spriteColour y j x = 0) :
    sprites.find? (fun i => p.spriteColour y i x != 0) = some i := by
  obtain ⟨before, after, rfl⟩ := List.append_of_mem mem
  refine List.find?_eq_some_iff_append.2 ⟨by simpa using visible, before, after, rfl, fun j hj => ?_⟩
  have lt : j < i := (List.pairwise_append.1 ascending).2.2 j hj i List.mem_cons_self
  simp [first j (List.mem_append_left _ hj) lt]

/-- The pixel put out where entry `i` is the first opaque one (R274). -/
theorem Ppu.composed_sprite {p : Ppu} {y x i : Nat} {sprites : List Nat}
    (h : sprites.find? (fun i => p.spriteColour y i x != 0) = some i) :
    p.composed y sprites x =
      if (p.background x).1 = true ∧ (p.oamByte (4 * i + 2)).getLsbD 5 = true then (p.background x).2
      else 16 + 4 * ((p.oamByte (4 * i + 2)).toNat % 4) + p.spriteColour y i x := by
  rw [Ppu.composed, h]
  simp only [Bool.and_eq_true, Nat.mul_comm 4]

/-- Settles O49: the selection, the colour of one entry by its own bytes, and the search for the first opaque one. -/
theorem spritePixels : Obligations.SpritePixels := by
  intro p y x height inRange drawn bg
  have hrange : p.spriteInRange y = inRange := by
    funext i
    show (decide _ && decide _) = decide _
    rw [← Bool.decide_and]
    refine decide_eq_decide.2 ?_
    show (p.oamByte (4 * i)).toNat + 1 ≤ y ∧ y - ((p.oamByte (4 * i)).toNat + 1) < height ↔ _
    omega
  refine ⟨fun i => ?selected, fun i _ => ?colour, fun none => ?background, fun i mem visible first => ?sprite⟩
  case selected => rw [← hrange]; exact p.mem_selectedSprites y i
  case colour =>
    intro tile flags left down r pattern bit
    have within : (left ≤ x ∧ x - left < 8 ∧ p.mask.getLsbD 4 = true ∧ (8 ≤ x ∨ p.mask.getLsbD 2 = true)) =
        (left ≤ x ∧ x < left + 8 ∧ p.mask.getLsbD 4 = true ∧ (8 ≤ x ∨ p.mask.getLsbD 2 = true)) := by
      refine propext (and_congr_right fun le => and_congr_left' ?_)
      omega
    have pair : tile / 2 * 2 = tile - tile % 2 := by omega
    unfold Ppu.spriteColour
    dsimp only
    refine ite_congr within (fun _ => ?_) fun _ => rfl
    rw [planeColour_eq, toNat_mul_4096, pair]
    rfl
  case background => exact Ppu.composed_background none
  case sprite => exact Ppu.composed_sprite (Ppu.find?_opaque (p.selectedSprites_ascending y) mem visible first)

/-! ## The drawing of a row (R266, R275, R281) -/

/-- A row stored byte by byte from `base + n` up: its own cells hold its bytes, the others what they held. -/
theorem find_foldl_put (base k : Nat) (row : List Nat) (n : Nat) (cells : Cells) :
    Assoc.find k ((row.zipIdx n).foldl (fun cells px => Assoc.put (base + px.2) (BitVec.ofNat 8 px.1) cells) cells) =
      if base + n ≤ k ∧ k < base + n + row.length then some (BitVec.ofNat 8 (row.getD (k - (base + n)) 0))
      else Assoc.find k cells := by
  induction row generalizing n cells with
  | nil => rw [if_neg (by simp)]; rfl
  | cons b row ih =>
    rw [List.zipIdx_cons, List.foldl_cons, ih, List.length_cons]
    by_cases hk : k = base + n
    · subst hk
      rw [if_neg (by omega), Assoc.find_put_same, if_pos (by omega), Nat.sub_self]
      rfl
    · rw [Assoc.find_put_ne hk]
      by_cases inside : base + n ≤ k ∧ k < base + n + (row.length + 1)
      · rw [if_pos inside, if_pos (by omega), show k - (base + n) = k - (base + (n + 1)) + 1 by omega]
        rfl
      · rw [if_neg inside, if_neg (by omega)]

/-- The host's buffer after a row: the row's bytes at its addresses, every other byte as before (R281). -/
theorem Video.find_writeRow {o : Video} {pointer stride : Nat} (h : o.buffer = some (pointer, stride)) (y : Nat)
    (row : List Nat) (k : Nat) :
    Assoc.find k (o.writeRow y row).pixels =
      if pointer + y * stride ≤ k ∧ k < pointer + y * stride + row.length then
        some (BitVec.ofNat 8 (row.getD (k - (pointer + y * stride)) 0))
      else Assoc.find k o.pixels := by
  unfold Video.writeRow
  rw [h]
  exact find_foldl_put (pointer + y * stride) k row 0 o.pixels

theorem Ppu.rowPixels_length (p : Ppu) (y : Nat) : (p.rowPixels y).length = 256 := by
  rw [Ppu.rowPixels, List.length_map, List.length_range]

theorem Ppu.rowPixels_getD (p : Ppu) (y : Nat) {x : Nat} (hx : x < 256) :
    (p.rowPixels y).getD x 0 = p.composed y (p.selectedSprites y) x := by
  rw [Ppu.rowPixels, List.getD_eq_getElem?_getD, List.getElem?_map, List.getElem?_range hx]
  rfl

/-- The first dot of a visible line draws its row (R266). -/
theorem Ppu.lineDot_first (p : Ppu) {y : Nat} (hy : y < 240) : p.lineDot (y + 1) 0 = p.drawRow y := by
  rw [Ppu.lineDot, if_neg (Nat.succ_ne_zero y), if_pos (by omega), Ppu.visibleDot, if_pos rfl, Nat.add_sub_cancel]

theorem Ppu.drawRow_pixels (p : Ppu) (y : Nat) :
    (p.drawRow y).video.pixels = (p.video.writeRow y (p.rowPixels y)).pixels := rfl

/-- With rendering disabled every pixel is the backdrop (R253, R281). -/
theorem Ppu.composed_disabled {p : Ppu} (h : p.rendering = false) (y x : Nat) (sprites : List Nat) :
    p.composed y sprites x = 0 := by
  obtain ⟨bg, sp⟩ : p.mask.getLsbD 3 = false ∧ p.mask.getLsbD 4 = false := by simpa [Ppu.rendering] using h
  have blank : p.background x = (false, 0) := by
    unfold Ppu.background
    dsimp only
    refine if_neg ?_
    rintro ⟨-, shown, -⟩
    exact Bool.false_ne_true (bg.symm.trans shown)
  have transparent : ∀ i, i ∈ sprites → p.spriteColour y i x = 0 := by
    intro i _
    unfold Ppu.spriteColour
    dsimp only
    refine if_neg ?_
    rintro ⟨-, -, shown, -⟩
    exact Bool.false_ne_true (sp.symm.trans shown)
  rw [Ppu.composed_background transparent, blank]

/-- The lookup for a row just drawn gives the palette as it stands (R281, R253). -/
theorem paletteLookup_drawRow {p : Ppu} {s : State} {y : Nat} (drawn : s.ppu = p.drawRow y) {i : Nat} (hi : i < 32) :
    paletteLookup s y i = some (if p.mask.getLsbD 0 then p.paletteByte i &&& 0x30#8 else p.paletteByte i) := by
  have entry : ((List.range 32).map p.paletteByte).getD i 0 = p.paletteByte i := by
    rw [List.getD_eq_getElem?_getD, List.getElem?_map, List.getElem?_range hi]
    rfl
  rw [paletteLookup, drawn, Ppu.drawRow, Assoc.find_put_same, Option.map_some, entry]

/-- Where both entry 0, in range on the row, and the background are opaque (R275). -/
def Ppu.overlaps (p : Ppu) (y x : Nat) : Prop :=
  p.spriteInRange y 0 = true ∧ p.spriteColour y 0 x ≠ 0 ∧ (p.background x).1 = true

/-- The sprite-zero hit falls at the first pixel below 255 where the two overlap (R275). -/
theorem Ppu.spriteZeroHit_eq_some (p : Ppu) (y x : Nat) :
    p.spriteZeroHit y = some x ↔ x < 255 ∧ p.overlaps y x ∧ ∀ x', x' < x → ¬ p.overlaps y x' := by
  have both : ∀ x, (p.spriteColour y 0 x != 0 && (p.background x).1) = true ↔
      p.spriteColour y 0 x ≠ 0 ∧ (p.background x).1 = true := by simp
  unfold Ppu.spriteZeroHit Ppu.overlaps
  cases p.spriteInRange y 0
  · simp
  · rw [if_pos rfl, List.find?_range_eq_some]
    simp only [List.mem_range, Bool.not_eq_true', ← Bool.not_eq_true, both, true_and]
    exact and_left_comm

theorem Ppu.drawRow_spr0Dot (p : Ppu) (y n : Nat) :
    (p.drawRow y).spr0Dot = some n ↔ ∃ x, p.spriteZeroHit y = some x ∧ (y + 1) * 341 + x + 1 = n :=
  Option.map_eq_some_iff

/-- No dot of a line touches the sprite-zero-hit flag. -/
theorem Ppu.lineDot_spr0hit (p : Ppu) (line dot : Nat) : (p.lineDot line dot).spr0hit = p.spr0hit := by
  unfold Ppu.lineDot Ppu.preRenderDot Ppu.visibleDot
  repeat' split
  all_goals rfl

/-- The flag is set at the noted dot and kept at every other (R275). -/
theorem Ppu.atDot_spr0hit (p : Ppu) (n : Nat) :
    (p.atDot n).spr0hit = (p.spr0hit || decide (p.spr0Dot = some n)) := by
  rw [Ppu.atDot, Ppu.lineDot_spr0hit, Ppu.hitDot]
  split
  · next h => simp [h]
  · next h => simp [h]

/-- Settles O50: the row's bytes in the buffer, its colours, and the dot noted for the hit. -/
theorem rowDrawing : Obligations.RowDrawing := by
  intro p y hy q overlaps
  have drawn : q = p.drawRow y := p.lineDot_first hy
  clear_value q
  subst drawn
  refine ⟨fun pointer stride buffer => ⟨fun x hx => ?inside, fun k outside => ?outside⟩,
    fun off x => Ppu.composed_disabled off y x _, fun s i hs hi => paletteLookup_drawRow hs hi, fun n => ?hit,
    p.atDot_spr0hit⟩
  case inside =>
    rw [p.drawRow_pixels, Video.find_writeRow buffer, p.rowPixels_length, if_pos (by omega), Nat.add_sub_cancel_left,
      p.rowPixels_getD y hx]
  case outside =>
    have apart : ¬ (pointer + y * stride ≤ k ∧ k < pointer + y * stride + 256) := fun ⟨low, high⟩ =>
      outside (k - (pointer + y * stride)) (by omega) (by omega)
    rw [p.drawRow_pixels, Video.find_writeRow buffer, p.rowPixels_length, if_neg apart]
  case hit =>
    rw [p.drawRow_spr0Dot]
    refine exists_congr fun x => ?_
    rw [p.spriteZeroHit_eq_some]
    exact ⟨fun ⟨⟨hx, here, first⟩, e⟩ => ⟨hx, e.symm, here, first⟩, fun ⟨hx, e, here, first⟩ => ⟨⟨hx, here, first⟩, e.symm⟩⟩

/-! ## The scroll and address registers (R252, R257, R258) -/

/-- The low `n` bits of a byte moved up by `s` places. -/
theorem getLsbD_shiftedLow {n : Nat} {m : VramAddr} (mask : ∀ k, k < 15 → m.getLsbD k = decide (k < n)) (s : Nat)
    (d : Byte) {k : Nat} (hk : k < 15) :
    ((d.setWidth 15 &&& m) <<< s).getLsbD k = (decide (s ≤ k ∧ k < s + n) && d.getLsbD (k - s)) := by
  rw [BitVec.getLsbD_shiftLeft, BitVec.getLsbD_and, BitVec.getLsbD_setWidth, mask (k - s) (by omega)]
  have low : k - s < 15 := by omega
  by_cases above : s ≤ k
  · have within : k - s < n ↔ k < s + n := by omega
    simp [hk, low, above, within, Bool.and_comm]
  · simp [above]

/-- The high five bits of a byte as the low five of a word. -/
theorem getLsbD_highFive (d : Byte) {k : Nat} (hk : k < 15) :
    ((d >>> 3).setWidth 15).getLsbD k = (decide (k < 5) && d.getLsbD (k + 3)) := by
  rw [BitVec.getLsbD_setWidth, BitVec.getLsbD_ushiftRight, Nat.add_comm 3 k]
  by_cases h : k < 5
  · simp [h, hk]
  · simp [h, BitVec.getLsbD_of_ge d (k + 3) (by omega)]

/-- The first scroll write puts the byte's high five bits into coarse X. -/
theorem tAfterScrollX_getLsbD (t : VramAddr) (d : Byte) {k : Nat} (hk : k < 15) :
    (tAfterScrollX t d).getLsbD k = if k < 5 then d.getLsbD (k + 3) else t.getLsbD k :=
  getLsbD_insert (· < 5) (fun k => d.getLsbD (k + 3)) (by decide) (fun _ => getLsbD_highFive d) t hk

/-- The second puts its low three bits into fine Y and its high five into coarse Y. -/
theorem tAfterScrollY_getLsbD (t : VramAddr) (d : Byte) {k : Nat} (hk : k < 15) :
    (tAfterScrollY t d).getLsbD k =
      if 12 ≤ k ∨ 5 ≤ k ∧ k < 10 then (if 12 ≤ k then d.getLsbD (k - 12) else d.getLsbD (k - 2)) else t.getLsbD k := by
  have bits : ∀ k, k < 15 →
      (((d.setWidth 15 &&& 0x7#15) <<< 12) ||| ((d >>> 3).setWidth 15 <<< 5)).getLsbD k =
        (decide (12 ≤ k ∨ 5 ≤ k ∧ k < 10) && if 12 ≤ k then d.getLsbD (k - 12) else d.getLsbD (k - 2)) := by
    intro k hk
    rw [BitVec.getLsbD_or, getLsbD_shiftedLow (n := 3) (by decide) 12 d hk, BitVec.getLsbD_shiftLeft,
      getLsbD_highFive d (by omega)]
    by_cases fine : 12 ≤ k
    · simp [fine, hk, show ¬ k - 5 < 5 by omega]
    · by_cases coarse : 5 ≤ k ∧ k < 10
      · simp [fine, coarse, hk, show ¬ k < 5 by omega, show k - 5 < 5 by omega, show k - 5 + 3 = k - 2 by omega]
      · have none : ¬ (k < 5) → ¬ (k - 5 < 5) := by omega
        by_cases low : k < 5 <;> simp [fine, coarse, low, none]
  unfold tAfterScrollY
  rw [BitVec.or_assoc]
  exact getLsbD_insert _ _ (by decide) bits t hk

/-- A control write puts the byte's low two bits into bits 11 and 10. -/
theorem tAfterControl_getLsbD (t : VramAddr) (d : Byte) {k : Nat} (hk : k < 15) :
    (tAfterControl t d).getLsbD k = if 10 ≤ k ∧ k < 12 then d.getLsbD (k - 10) else t.getLsbD k :=
  getLsbD_insert (fun k => 10 ≤ k ∧ k < 12) (fun k => d.getLsbD (k - 10)) (by decide)
    (fun _ => getLsbD_shiftedLow (n := 2) (by decide) 10 d) t hk

/-- The first address write puts the byte's low six bits into bits 13 to 8 and clears bit 14. -/
theorem tAfterAddressHigh_getLsbD (t : VramAddr) (d : Byte) {k : Nat} (hk : k < 15) :
    (tAfterAddressHigh t d).getLsbD k = if 8 ≤ k then decide (k < 14) && d.getLsbD (k - 8) else t.getLsbD k :=
  getLsbD_insert (8 ≤ ·) (fun k => decide (k < 14) && d.getLsbD (k - 8)) (by decide)
    (fun k hk => by rw [getLsbD_shiftedLow (n := 6) (by decide) 8 d hk, Bool.decide_and, Bool.and_assoc]) t hk

/-- The second puts the byte into bits 7 to 0. -/
theorem tAfterAddressLow_getLsbD (t : VramAddr) (d : Byte) {k : Nat} (hk : k < 15) :
    (tAfterAddressLow t d).getLsbD k = if k < 8 then d.getLsbD k else t.getLsbD k := by
  refine getLsbD_insert (· < 8) d.getLsbD (by decide) (fun k hk => ?_) t hk
  rw [BitVec.getLsbD_setWidth]
  by_cases h : k < 8
  · simp [h, hk]
  · simp [h, BitVec.getLsbD_of_ge d k (by omega)]

/-- The two bytes of an address, the first without its high two bits, are a word. -/
theorem tAfterAddress_eq (t : VramAddr) (d1 d2 : Byte) :
    tAfterAddressLow (tAfterAddressHigh t d1) d2 = (word d2 (d1 &&& 0x3F#8)).setWidth 15 := by
  have mask : ∀ k, k < 8 → (0x3F#8).getLsbD k = decide (k < 6) := by decide
  refine BitVec.eq_of_getLsbD_eq fun k hk => ?_
  rw [tAfterAddressLow_getLsbD _ _ hk, tAfterAddressHigh_getLsbD _ _ hk, BitVec.getLsbD_setWidth, word,
    BitVec.getLsbD_append, BitVec.getLsbD_and]
  by_cases low : k < 8
  · simp [low, hk]
  · have six : k < 14 ↔ k - 8 < 6 := by omega
    simp [low, hk, mask (k - 8) (by omega), six, show 8 ≤ k by omega, Bool.and_comm]

theorem tAfterAddress_toNat (t : VramAddr) (d1 d2 : Byte) :
    (tAfterAddressLow (tAfterAddressHigh t d1) d2).toNat = d1.toNat % 64 * 256 + d2.toNat := by
  have six : (d1 &&& 0x3F#8).toNat = d1.toNat % 64 := (BitVec.toNat_and d1 _).trans (Nat.and_two_pow_sub_one_eq_mod _ 6)
  rw [tAfterAddress_eq, BitVec.toNat_setWidth, word_toNat, six]
  omega

/-- Two scroll writes from the first of a pair (R257). -/
theorem Ppu.writeScroll_pair {p : Ppu} (first : p.w = false) (d1 d2 : Byte) :
    (p.writeScroll d1).writeScroll d2 =
      { p with t := tAfterScrollY (tAfterScrollX p.t d1) d2, fx := d1.setWidth 3 } := by
  simp [Ppu.writeScroll, first]

/-- Two address writes from the first of a pair (R258). -/
theorem Ppu.writeAddress_pair {p : Ppu} (first : p.w = false) (d1 d2 : Byte) :
    (p.writeAddress d1).writeAddress d2 =
      { p with t := tAfterAddressLow (tAfterAddressHigh p.t d1) d2
               v := tAfterAddressLow (tAfterAddressHigh p.t d1) d2 } := by
  simp [Ppu.writeAddress, first]

/-- A first address write changes `t` and the parity only. -/
theorem Ppu.writeAddress_first {p : Ppu} (first : p.w = false) (d : Byte) :
    p.writeAddress d = { p with t := tAfterAddressHigh p.t d, w := true } := by
  simp [Ppu.writeAddress, first]

/-- Settles O53: the pairs bit by bit, and the arms of registers 5 and 6. -/
theorem scrollAndAddressPairs : Obligations.ScrollAndAddressPairs := by
  refine ⟨fun p d1 d2 first => ⟨?scroll, ?address⟩, fun s a d h ha ha' => ⟨fun e => ?store5, fun e => ?store6⟩⟩
  case scroll =>
    intro q
    have hq : q = _ := Ppu.writeScroll_pair first d1 d2
    clear_value q
    subst hq
    have name : ∀ k, 10 ≤ k → k < 12 → (tAfterScrollY (tAfterScrollX p.t d1) d2).getLsbD k = p.t.getLsbD k := by
      intro k low high
      rw [tAfterScrollY_getLsbD _ _ (by omega), if_neg (by omega), tAfterScrollX_getLsbD _ _ (by omega), if_neg (by omega)]
    refine ⟨rfl, BitVec.toNat_setWidth 3 d1, fun k hk => ?coarseX, fun k hk => ?coarseY, fun k hk => ?fineY,
      name 10 (by decide) (by decide), name 11 (by decide) (by decide), by simp [Ppu.writeScroll, first]⟩
    case coarseX =>
      dsimp only
      rw [tAfterScrollY_getLsbD _ _ (by omega), if_neg (by omega), tAfterScrollX_getLsbD _ _ (by omega), if_pos hk]
    case coarseY =>
      dsimp only
      rw [tAfterScrollY_getLsbD _ _ (by omega), if_pos (by omega), if_neg (by omega)]
      rfl
    case fineY =>
      dsimp only
      rw [tAfterScrollY_getLsbD _ _ (by omega), if_pos (by omega), if_pos (by omega), Nat.add_sub_cancel]
  case address =>
    intro q
    have hq : q = _ := Ppu.writeAddress_pair first d1 d2
    clear_value q
    subst hq
    rw [Ppu.writeAddress_first first]
    exact ⟨rfl, tAfterAddress_toNat p.t d1 d2, rfl, rfl⟩
  case store5 =>
    rw [memWrite_ppu h ha ha', e, ← syncDevices_ppu]
    rfl
  case store6 =>
    rw [memWrite_ppu h ha ha', e, ← syncDevices_ppu]
    rfl

/-! ## Stores to the other PPU registers (R251 to R259) -/

theorem syncDevices_nmiTime (T : Nat) (s : State) : (syncDevices T s).nmiTime = (catchUp T s).nmiTime := by
  unfold syncDevices; rw [mapperRunUntil_eq]

theorem EndLowered.of_some {e : Nat} {e' : Option Nat} (h : EndLowered (some e) e') : ∃ x, e' = some x ∧ x ≤ e := by
  cases e' with
  | none => exact h.elim
  | some x => exact ⟨x, rfl, h⟩

/-- The notice of an interrupt time touches the stop time alone (R239). -/
theorem notifyIrq_eq (s : State) : notifyIrq s = { s with endCycle := (notifyIrq s).endCycle } := irqChanged_eq _ s

@[simp] theorem notifyIrq_ppu (s : State) : (notifyIrq s).ppu = s.ppu := by rw [notifyIrq_eq]

@[simp] theorem notifyIrq_nmiTime (s : State) : (notifyIrq s).nmiTime = s.nmiTime := by rw [notifyIrq_eq]

/-- The machine brought up to a store of `d` to a PPU register, the byte in the I/O latch (R251). -/
def latched (d : Byte) (s : State) : State :=
  { syncDevices s.clk s with ppu := { (syncDevices s.clk s).ppu with iolatch := d } }

@[simp] theorem latched_ppu (d : Byte) (s : State) : (latched d s).ppu = { (catchUp s.clk s).ppu with iolatch := d } := by
  rw [← syncDevices_ppu]; rfl

@[simp] theorem latched_nmiTime (d : Byte) (s : State) : (latched d s).nmiTime = (catchUp s.clk s).nmiTime :=
  syncDevices_nmiTime s.clk s

theorem latched_endCycle (d : Byte) (s : State) : EndLowered s.endCycle (latched d s).endCycle :=
  (syncDevices_frame s.clk s).endCycle

theorem ppuRegWrite_control (d : Byte) (s : State) :
    ppuRegWrite 0 d s = notifyIrq (writeControl s.clk d (latched d s)) := rfl

/-- A control write raises an NMI at its time where the enable bit rises with the flag set (R252). -/
def controlRaises (d : Byte) (p : Ppu) : Bool := !p.ctrl.getLsbD 7 && d.getLsbD 7 && p.vbl

theorem writeControl_ppu (T : Nat) (d : Byte) (s : State) :
    (writeControl T d s).ppu = { s.ppu with ctrl := d, t := tAfterControl s.ppu.t d } := by
  unfold writeControl
  dsimp only
  split
  · unfold raiseNmi; rw [irqChanged_eq]
  · rfl

theorem writeControl_nmiTime (T : Nat) (d : Byte) (s : State) :
    (writeControl T d s).nmiTime = if controlRaises d s.ppu then some T else s.nmiTime := by
  unfold writeControl controlRaises
  dsimp only
  split
  · unfold raiseNmi; rw [irqChanged_eq]; rfl
  · rfl

/-- The NMI of a control write shortens the `run` in progress to its time (R239). -/
theorem writeControl_endCycle {T : Nat} {d : Byte} {s : State} {e : Nat} (raises : controlRaises d s.ppu = true)
    (h : s.endCycle = some e) : (writeControl T d s).endCycle = some (min e T) := by
  unfold controlRaises at raises
  unfold writeControl
  dsimp only
  rw [if_pos raises]
  simp only [raiseNmi, irqChanged, h]
  rfl

/-- No register but the control register raises an NMI. -/
theorem ppuRegWrite_nmiTime {r : Nat} (hr : r ≠ 0) (d : Byte) (s : State) :
    (ppuRegWrite r d s).nmiTime = (catchUp s.clk s).nmiTime := by
  rw [← latched_nmiTime d s]
  match r with
  | 0 => contradiction
  | 1 => exact notifyIrq_nmiTime _
  | 2 | 3 | 4 | 5 | 6 | 7 | _ + 8 => rfl

/-- The address of the data port after an access, as a number (R259). -/
theorem Ppu.stepAddress_eq (p : Ppu) :
    p.stepAddress =
      { p with v := BitVec.ofNat 15 ((p.v.toNat + if p.ctrl.getLsbD 2 then 32 else 1) % 0x8000) } := by
  have sum : ∀ n : Nat, p.v + BitVec.ofNat 15 n = BitVec.ofNat 15 ((p.v.toNat + n) % 0x8000) := fun n =>
    BitVec.eq_of_toNat_eq (by simp)
  unfold Ppu.stepAddress
  split
  · rw [sum 32]
  · rw [sum 1]

/-- A write to the PPU's memory leaves the latches and the address alone. -/
theorem Ppu.write_latches (p : Ppu) (a : Nat) (d : Byte) : (p.write a d).ctrl = p.ctrl ∧ (p.write a d).v = p.v := by
  unfold Ppu.write
  repeat' split
  all_goals exact ⟨rfl, rfl⟩

theorem Ppu.writeData_eq (p : Ppu) (d : Byte) :
    p.writeData d =
      { p.write (p.v.toNat % 0x4000) d with
        v := BitVec.ofNat 15 ((p.v.toNat + if p.ctrl.getLsbD 2 then 32 else 1) % 0x8000) } := by
  obtain ⟨ctrl, v⟩ := p.write_latches (p.v.toNat % 0x4000) d
  refine (Ppu.stepAddress_eq _).trans
    (congrArg (fun x => { p.write (p.v.toNat % 0x4000) d with v := x }) ?_)
  rw [Ppu.dataAddress, ctrl, v]

theorem Ppu.writeOamData_oamByte (p : Ppu) (d : Byte) (k : Nat) :
    (p.writeOamData d).oamByte k = if k = p.oamAddr.toNat then d else p.oamByte k :=
  p.oamByte_oamStore k p.oamAddr.toNat d

/-- The bits of `t` a control write leaves, for every bit number (R252). -/
theorem tAfterControl_bits (t : VramAddr) (d : Byte) (k : Nat) :
    (tAfterControl t d).getLsbD k = if k = 10 then d.getLsbD 0 else if k = 11 then d.getLsbD 1 else t.getLsbD k := by
  rcases Nat.lt_or_ge k 15 with hk | hk
  · rw [tAfterControl_getLsbD t d hk]
    by_cases h10 : k = 10
    · simp [h10]
    · by_cases h11 : k = 11
      · simp [h11]
      · rw [if_neg (by omega), if_neg h10, if_neg h11]
  · rw [if_neg (by omega), if_neg (by omega), BitVec.getLsbD_of_ge _ _ hk, BitVec.getLsbD_of_ge _ _ hk]

/-- What the PPU, brought up to the store and with the byte in its latch, does with a byte for register `r` (R252 to R259). -/
def Ppu.takes (p : Ppu) (r : Nat) (d : Byte) : Ppu :=
  match r with
  | 0 => { p with ctrl := d, t := tAfterControl p.t d }
  | 1 => { p with mask := d }
  | 3 => { p with oamAddr := d }
  | 4 => p.writeOamData d
  | 5 => p.writeScroll d
  | 6 => p.writeAddress d
  | 7 => p.writeData d
  | _ => p

/-- The PPU after a store to a register (R251): the byte is taken at the time of the store. -/
theorem ppuRegWrite_ppu (r : Nat) (d : Byte) (s : State) :
    (ppuRegWrite r d s).ppu = { (catchUp s.clk s).ppu with iolatch := d }.takes r d := by
  rw [← latched_ppu]
  match r with
  | 0 => exact (notifyIrq_ppu _).trans (writeControl_ppu _ _ _)
  | 1 => exact notifyIrq_ppu _
  | 2 | 3 | 4 | 5 | 6 | 7 | _ + 8 => rfl

/-- The NMI of a store to the control register (R252). -/
theorem ppuRegWrite_control_nmiTime (d : Byte) (s : State) :
    (ppuRegWrite 0 d s).nmiTime =
      if controlRaises d (catchUp s.clk s).ppu then some s.clk else (catchUp s.clk s).nmiTime := by
  rw [ppuRegWrite_control, notifyIrq_nmiTime, writeControl_nmiTime, latched_nmiTime, latched_ppu]
  rfl

/-- With that NMI the `run` in progress ends at the next boundary (R239). -/
theorem ppuRegWrite_control_endCycle {d : Byte} {s : State} {e : Nat}
    (raises : controlRaises d (catchUp s.clk s).ppu = true) (he : s.endCycle = some e) :
    ∃ e', (ppuRegWrite 0 d s).endCycle = some e' ∧ e' ≤ s.clk := by
  have raises' : controlRaises d (latched d s).ppu = true := by rw [latched_ppu]; exact raises
  have notified := (notifyIrq_frame (writeControl s.clk d (latched d s))).endCycle
  obtain ⟨e1, he1, -⟩ := EndLowered.of_some (he ▸ latched_endCycle d s)
  rw [writeControl_endCycle raises' he1] at notified
  obtain ⟨e2, he2, le⟩ := notified.of_some
  exact ⟨e2, he2, Nat.le_trans le (Nat.min_le_right _ _)⟩

/-- Settles O54: what the PPU does with the byte, register by register, and the NMI of the control register. -/
theorem ppuRegisterWrites : Obligations.PpuRegisterWrites := by
  intro s a d h ha ha' q p t raises
  have arm : t = ppuRegWrite (a.toNat % 8) d s := memWrite_ppu h ha ha' d
  have frame := ppuRegWrite_frame (a.toNat % 8) d s
  have ppu : t.ppu = p.takes (a.toNat % 8) d := arm ▸ ppuRegWrite_ppu (a.toNat % 8) d s
  rw [← arm] at frame
  clear_value t
  refine ⟨frame.cpu, frame.clk, frame.mem, fun e => ?control, fun e => ?mask, fun e => ?status, fun e => ?oamAddr,
    fun e => ?oamData, fun e => ?data, fun e => ?noNmi⟩
  case control =>
    rw [e] at arm ppu
    refine ⟨by rw [ppu]; rfl, fun k => by rw [ppu]; exact tAfterControl_bits _ d k, ?_, fun raised e he => ?_⟩
    · rw [arm]; exact ppuRegWrite_control_nmiTime d s
    · rw [arm]; exact ppuRegWrite_control_endCycle raised he
  case oamData =>
    rw [e] at ppu
    exact ⟨by rw [ppu]; rfl, fun k => by rw [ppu]; exact p.writeOamData_oamByte d k⟩
  case data => rw [ppu, e]; exact p.writeData_eq d
  case noNmi => rw [arm]; exact ppuRegWrite_nmiTime e d s
  all_goals rw [ppu, e]; rfl

/-! ## The data port (R259) -/

/-- A palette byte in its low six bits, the I/O latch in its high two. -/
theorem getLsbD_paletteRead (x y : Byte) :
    (∀ k, k < 6 → ((x &&& 0x3F#8) ||| (y &&& 0xC0#8)).getLsbD k = x.getLsbD k) ∧
    (∀ k, 6 ≤ k → k < 8 → ((x &&& 0x3F#8) ||| (y &&& 0xC0#8)).getLsbD k = y.getLsbD k) := by
  have low : ∀ k, k < 8 → (0x3F#8).getLsbD k = !decide (6 ≤ k) := by decide
  have high : ∀ k, k < 8 → (y &&& 0xC0#8).getLsbD k = (decide (6 ≤ k) && y.getLsbD k) := by
    intro k hk
    rw [BitVec.getLsbD_and, (by decide : ∀ k, k < 8 → (0xC0#8).getLsbD k = decide (6 ≤ k)) k hk, Bool.and_comm]
  refine ⟨fun k hk => ?_, fun k hk hk' => ?_⟩
  · rw [getLsbD_insert _ _ low high x (by omega), if_neg (by omega)]
  · rw [getLsbD_insert _ _ low high x hk', if_pos hk]

/-- Below the palette the data port is delayed (R259). -/
theorem Ppu.readData_below {p : Ppu} (h : p.v.toNat % 0x4000 < 0x3F00) :
    p.readData = (p.rdbuf, { p with rdbuf := p.read (p.v.toNat % 0x4000) }.stepAddress) := if_pos h

/-- At the palette it is immediate, the buffer taking the nametable byte underneath. -/
theorem Ppu.readData_palette {p : Ppu} (h : 0x3F00 ≤ p.v.toNat % 0x4000) :
    p.readData = ((p.read (p.v.toNat % 0x4000) &&& 0x3F#8) ||| (p.iolatch &&& 0xC0#8),
      { p with rdbuf := p.read (p.v.toNat % 0x4000 - 0x1000) }.stepAddress) := if_neg (Nat.not_lt.2 h)

/-- A read of register 7 is the data port's, on the PPU brought up to the read (R251). -/
theorem ppuRegRead_data (s : State) :
    (ppuRegRead 7 s).1 = (catchUp s.clk s).ppu.readData.1 ∧ (ppuRegRead 7 s).2.ppu = (catchUp s.clk s).ppu.readData.2 := by
  rw [← syncDevices_ppu]
  exact ⟨rfl, rfl⟩

/-- Settles O55: the read below the palette and at it, and the address it moves. -/
theorem dataPortRead : Obligations.DataPortRead := by
  intro s port h ha ha' e p r step a
  obtain ⟨byte, ppu⟩ : r.1 = p.readData.1 ∧ r.2.ppu = p.readData.2 := by
    show (memRead port s).1 = _ ∧ (memRead port s).2.ppu = _
    rw [memRead_ppu h ha ha', e]
    exact ppuRegRead_data s
  refine ⟨fun below => ?below, fun palette => ?palette⟩
  case below =>
    rw [byte, ppu, Ppu.readData_below below, Ppu.stepAddress_eq]
    exact ⟨rfl, rfl⟩
  case palette =>
    rw [byte, ppu, Ppu.readData_palette palette, Ppu.stepAddress_eq]
    dsimp only
    exact ⟨rfl, getLsbD_paletteRead _ _⟩

/-! ## The joypad ports (R318) -/

theorem memRead_pad1 {s : State} (h : PagesInstalled s) : memRead 0x4016#16 s = readPad1 s := by
  simp only [memRead, h.pageAt_io (a := 0x4016#16) (by decide) (by decide), ioRead, if_true]

theorem memRead_pad2 {s : State} (h : PagesInstalled s) : memRead 0x4017#16 s = readPad2 s := by
  have apart : (0x4017#16 : Word) ≠ 0x4016#16 := by decide
  simp only [memRead, h.pageAt_io (a := 0x4017#16) (by decide) (by decide), ioRead, if_neg apart, if_true]

theorem memWrite_strobe {s : State} (h : PagesInstalled s) (d : Byte) : memWrite 0x4016#16 d s = writeStrobe d s := by
  have apart : (0x4016#16 : Word) ≠ 0x4014#16 := by decide
  simp only [memWrite, h.pageAt_io (a := 0x4016#16) (by decide) (by decide), ioWrite, if_neg apart, if_true]

/-- The strobe written one and then zero holds both pads at their first bit. -/
theorem writeStrobe_pulse {d1 d0 : Byte} (one : d1.getLsbD 0 = true) (zero : d0.getLsbD 0 = false) (s : State) :
    writeStrobe d0 (writeStrobe d1 s) = { s with pads := { s.pads with strobe := false, pos1 := 0, pos2 := 0 } } := by
  have up : writeStrobe d1 s = { s with pads := { s.pads with strobe := true, pos1 := 0, pos2 := 0 } } := by
    simp only [writeStrobe, one, Bool.or_true, if_true]
  rw [up]
  simp only [writeStrobe, zero, Bool.true_or, if_true]

/-- Bit 0 of a joypad port is the serial bit (R318). -/
theorem padByte_bit0 (free : Byte) (bit : Bool) : (padByte free bit).getLsbD 0 = bit := by
  cases bit <;> simp [padByte]

/-- A joypad port: with the strobe off a read gives the serial bit of the buttons at the position and moves it on (R318). -/
structure SerialPort (port : Word) (buttons : State → Byte) (pos : State → Nat) : Prop where
  bit : ∀ u, PagesInstalled u → u.pads.strobe = false → (memRead port u).1.getLsbD 0 = padBit (buttons u) (pos u)
  next : ∀ u, PagesInstalled u → u.pads.strobe = false → pos (memRead port u).2 = padNext false (pos u)
  kept : ∀ u, buttons (memRead port u).2 = buttons u

theorem serialPort1 : SerialPort 0x4016#16 (fun s => s.pads.bits1) (fun s => s.pads.pos1) where
  bit u h off := by
    rw [memRead_pad1 h, readPad1, off]
    exact padByte_bit0 _ _
  next u h off := by rw [memRead_pad1 h, readPad1, off]; rfl
  kept u := (memRead_frame _ u).bits1

theorem serialPort2 : SerialPort 0x4017#16 (fun s => s.pads.bits2) (fun s => s.pads.pos2) where
  bit u h off := by
    rw [memRead_pad2 h, readPad2, off]
    exact padByte_bit0 _ _
  next u h off := by rw [memRead_pad2 h, readPad2, off]; rfl
  kept u := (memRead_frame _ u).bits2

/-- The machine after `n` reads of a port. -/
def readTimes (port : Word) (n : Nat) (s : State) : State := Nat.repeat (fun u => (memRead port u).2) n s

theorem readTimes_succ (port : Word) (n : Nat) (s : State) :
    readTimes port (n + 1) s = (memRead port (readTimes port n s)).2 := rfl

/-- After `n` reads with the strobe off, from position 0: the position is `n`, and 8 past the eighth. -/
theorem SerialPort.reads {port : Word} {buttons : State → Byte} {pos : State → Nat} (k : SerialPort port buttons pos)
    {s : State} (h : PagesInstalled s) (off : s.pads.strobe = false) (first : pos s = 0) (n : Nat) :
    PagesInstalled (readTimes port n s) ∧
    (readTimes port n s).pads.strobe = false ∧
    buttons (readTimes port n s) = buttons s ∧
    pos (readTimes port n s) = min n 8 := by
  induction n with
  | zero => exact ⟨h, off, rfl, by rw [Nat.zero_min]; exact first⟩
  | succ n ih =>
    obtain ⟨pages, off', same, here⟩ := ih
    rw [readTimes_succ]
    generalize readTimes port n s = u at *
    have frame := memRead_frame port u
    refine ⟨pages.write frame.toWrite, frame.strobe.trans off', (k.kept u).trans same, ?_⟩
    rw [k.next u pages off', here]
    unfold padNext
    simp only [Bool.false_eq_true, if_false]
    split <;> omega

/-- The next read gives button `n`, and ones past the eighth. -/
theorem SerialPort.serialOrder {port : Word} {buttons : State → Byte} {pos : State → Nat}
    (k : SerialPort port buttons pos) {s : State} (h : PagesInstalled s) (off : s.pads.strobe = false) (first : pos s = 0)
    (n : Nat) :
    (memRead port (readTimes port n s)).1.getLsbD 0 =
      if n < 8 then (buttons s).getLsbD n else true := by
  obtain ⟨pages, off', same, here⟩ := k.reads h off first n
  rw [k.bit _ pages off', same, here, padBit]
  by_cases hn : n < 8
  · rw [if_pos hn, Nat.min_eq_left (Nat.le_of_lt hn), if_pos hn]
  · rw [if_neg hn, Nat.min_eq_right (Nat.not_lt.1 hn), if_neg (Nat.lt_irrefl 8)]

/-- Settles O58: the strobe puts both ports at their first button, and each is a serial port. -/
theorem joypadSerialOrder : Obligations.JoypadSerialOrder := by
  intro s d1 d0 n h one zero strobed after
  have h1 := h.write (memWrite_frame 0x4016#16 d1 s)
  have pulse : strobed = { s with pads := { s.pads with strobe := false, pos1 := 0, pos2 := 0 } } := by
    show memWrite 0x4016#16 d0 (memWrite 0x4016#16 d1 s) = _
    rw [memWrite_strobe h1, memWrite_strobe h, writeStrobe_pulse one zero]
  have pages : PagesInstalled strobed := h1.write (memWrite_frame 0x4016#16 d0 _)
  have off : strobed.pads.strobe = false := by rw [pulse]
  have buttons : strobed.pads.bits1 = s.pads.bits1 ∧ strobed.pads.bits2 = s.pads.bits2 := by rw [pulse]; exact ⟨rfl, rfl⟩
  rw [← buttons.1, ← buttons.2]
  exact ⟨serialPort1.serialOrder pages off (by rw [pulse]) n, serialPort2.serialOrder pages off (by rw [pulse]) n⟩

end Sys2Proof.Machine
end
